-- ==== Sys2Proof/Word.lean ====
section
/-!
DEFINITION. The widths that the spec treats as bits: a byte of BUF (10_state.md R22), and the operand ports of
10_state.md R27 (the header of 32 bits, the 65-bit signed value ports, the 32-bit count port). Everything else the
spec calls a mathematical integer (00_scope.md R7), and the model types as `Nat` or `Int`.
-/

namespace Sys2Proof

/-- The unit of storage: one byte of BUF (10_state.md R22). -/
abbrev Byte := BitVec 8

/-- The command header port HDR (10_state.md R27; 30_encoding.md R80). -/
abbrev HdrWord := BitVec 32

/-- A value port V, LO or HI: 65 bits, signed (10_state.md R27). -/
abbrev ValueWord := BitVec 65

/-- The count port P: 32 bits, unsigned (10_state.md R27). -/
abbrev CountWord := BitVec 32

end Sys2Proof
end

