-- ==== Sys2Proof/Config.lean ====
section
/-!
DEFINITION. What an implementation fixes (the parameter table of 00_scope.md R6), the error codes of
60_exceptions.md R291, and the FREE VALUES: constants without a body, which stand wherever the spec says that a
register is unspecified (93_implementation_defined.md U1, U2; 60_exceptions.md R297).
-/

namespace Sys2Proof

/-- The error codes of the result record, in the source's order, and code 6 for the BitBuffer layer's own failure
(60_exceptions.md R291). `bufferOverflow` is reserved: no command produces it (R298). -/
inductive ErrCode where
  | success | insufficientData | invalidValue | constraintViolation | bufferOverflow | unsupportedOperation
  | bitstreamError
  deriving DecidableEq, Repr, Inhabited

namespace Config

/-- The largest capacity, `2^32 − 1` bits (10_state.md R21). -/
def capMax : Nat := 4294967295

/-- DEFAULT_CAP, the capacity a host gets when it names none (00_scope.md R6; 70_reset_and_hazards.md R323). -/
def defaultCap : Nat := 8388608

/-- MAXF, the widest field one access moves (00_scope.md R6). -/
def maxField : Nat := 64

/-- ALIGN_BYTE (00_scope.md R6). -/
def alignByte : Nat := 8

/-- ALIGN_WORD (00_scope.md R6). PRESUMED: the spec takes the 16 from general knowledge (log entry 8); unsafe. -/
def alignWord : Nat := 16

/-- ALIGN_DWORD (00_scope.md R6). PRESUMED: the spec takes the 32 from general knowledge (log entry 8); unsafe. -/
def alignDword : Nat := 32

/-- MAXDIG, the most BCD digits a command moves (00_scope.md R6). -/
def maxDig : Nat := 20

/-- MAXVB, the most payload bytes a length-embedded integer may announce (00_scope.md R6). -/
def maxVb : Nat := 8

/-- What VAL holds where the spec leaves it unspecified (log entry 3): one value a draw, nothing known of it but
the register's width. -/
opaque freeVal : Nat → ValueWord

/-- What BITS holds where the spec leaves it unspecified (log entry 3). -/
opaque freeBits : Nat → BitVec 33

/-- What DOUT holds where the spec leaves it unspecified (log entry 3). -/
opaque freeDout : Nat → List Byte

/-- What SUCCESS holds where the spec leaves it unspecified (log entry 3). -/
opaque freeSuccess : Nat → Bool

/-- What ERR holds where the spec leaves it unspecified (log entry 3): one of the codes 0 to 6 (10_state.md R30). -/
opaque freeErr : Nat → ErrCode

end Config

end Sys2Proof
end

