-- ==== Sys2Proof/Syntax.lean ====
section
/-!
DEFINITION. The commands: one constructor for each row of spec/opcode_table.json (30_encoding.md R84), with the
operands its format reads (R81, R82), and the port bundle in which a host presents one (10_state.md R27).

Operands are typed as the rules use them: `n` is the header's count, `v`, `lo`, `hi` are integers, `p` and `k` counts,
`din` the bytes of a byte-array write (whose number is the port P). DEC_INT's three optional operands are options
(R82); so is ENC_INT's `size`, which the command accepts and ignores (42_generic_codec.md R150).
-/

namespace Sys2Proof

/-- One presentation of the operand ports (10_state.md R27; 30_encoding.md R80). -/
structure Ports where
  hdr : HdrWord
  v   : ValueWord := 0
  lo  : ValueWord := 0
  hi  : ValueWord := 0
  p   : CountWord := 0
  din : List Byte := []
  deriving DecidableEq, Repr

/-- The commands of the block (30_encoding.md R84). -/
inductive Instr where
  -- BitBuffer commands (40_bitbuffer.md) and the position reset (41_codec_base.md)
  | bbWriteBits (n : Nat) (v : Int)
  | bbReadBits (n : Nat)
  | bbWriteBit (v : Int)
  | bbReadBit
  | bbWriteByte (v : Int)
  | bbReadByte
  | bbWriteBytes (din : List Byte)
  | bbReadBytes (k : Nat)
  | bbBitsRemaining
  | bbIsAtEnd
  | bbSetPos (p : Nat)
  | bbAlignWr
  | bbAlignRd
  | bbGetData
  | bbResetPos
  -- Generic Encoder / Decoder commands (42_generic_codec.md)
  | encInt (v lo hi : Int) (size : Option Nat)
  | decInt (lo hi : Option Int) (size : Option Nat)
  | encUint (n : Nat) (v : Int)
  | decUint (n : Nat)
  | decEnum (k : Nat)
  | encNull
  | decNull
  | encAlignByte
  | encAlignWord
  | encAlignDword
  | decAlignByte
  | decAlignWord
  | decAlignDword
  | encAppendBytes (din : List Byte)
  | encOctetsNolen (din : List Byte)
  | decOctetsNolen (k : Nat)
  -- ACN constant-size and length-embedded integers, length fields (43_acn_fixed_int.md, 44_acn_varsize_int.md)
  | acnEncPosConst (n : Nat) (v : Int)
  | acnDecPosConst (n : Nat)
  | acnEncTcConst (n : Nat) (v : Int)
  | acnDecTcConst (n : Nat)
  | acnEncPosVar (v : Int)
  | acnDecPosVar
  | acnEncTcVar (v : Int)
  | acnDecTcVar
  | acnEncLength (n : Nat) (v : Int)
  | acnDecLength (n : Nat)
  -- ACN positive integers of 16, 32, 64 bits (43_acn_fixed_int.md)
  | acnEncPosBe16 (v : Int)
  | acnDecPosBe16
  | acnEncPosBe32 (v : Int)
  | acnDecPosBe32
  | acnEncPosBe64 (v : Int)
  | acnDecPosBe64
  | acnEncPosLe16 (v : Int)
  | acnDecPosLe16
  | acnEncPosLe32 (v : Int)
  | acnDecPosLe32
  | acnEncPosLe64 (v : Int)
  | acnDecPosLe64
  -- ACN two's-complement integers of 16, 32, 64 bits (43_acn_fixed_int.md)
  | acnEncTcBe16 (v : Int)
  | acnDecTcBe16
  | acnEncTcBe32 (v : Int)
  | acnDecTcBe32
  | acnEncTcBe64 (v : Int)
  | acnDecTcBe64
  | acnEncTcLe16 (v : Int)
  | acnDecTcLe16
  | acnEncTcLe32 (v : Int)
  | acnDecTcLe32
  | acnEncTcLe64 (v : Int)
  | acnDecTcLe64
  -- ACN BCD (45_acn_bcd.md)
  | acnEncBcdConst (n : Nat) (v : Int)
  | acnDecBcdConst (n : Nat)
  | acnEncBcdVar (v : Int)
  | acnDecBcdVar
  | acnEncBcdNt (v : Int)
  | acnDecBcdNt
  -- ACN IEEE-754 reals (46_acn_real.md)
  | acnEncReal32Be (v : Int)
  | acnDecReal32Be
  | acnEncReal32Le (v : Int)
  | acnDecReal32Le
  | acnEncReal64Be (v : Int)
  | acnDecReal64Be
  | acnEncReal64Le (v : Int)
  | acnDecReal64Le
  -- Reserved stubs (47_acn_string_stubs.md)
  | acnStub (which : Nat)
  deriving DecidableEq, Repr

end Sys2Proof
end

