-- ==== Sys2Proof/WellFormed.lean ====
section
/-!
DEFINITION. Which instruction terms a port bundle can carry: the widths of the header's count and of the ports
(10_state.md R27; 30_encoding.md R80). The meanings are total on every term; well-formedness is what the encoder
asks for.
-/

namespace Sys2Proof

/-- The header's count N has 8 bits (30_encoding.md R80). -/
def countWf (n : Nat) : Bool := decide (n < 256)

/-- A value port holds `−2^64 … 2^64 − 1` (10_state.md R27). -/
def valueWf (v : Int) : Bool := decide (-18446744073709551616 ≤ v ∧ v < 18446744073709551616)

/-- The count port P has 32 bits (10_state.md R27). -/
def portPWf (p : Nat) : Bool := decide (p < 4294967296)

/-- Every operand is one its port can carry. -/
def Instr.wf : Instr → Bool
  -- BitBuffer commands (40_bitbuffer.md) and the position reset (41_codec_base.md)
  | .bbWriteBits n v => countWf n && valueWf v
  | .bbReadBits n => countWf n
  | .bbWriteBit v => valueWf v
  | .bbReadBit => true
  | .bbWriteByte v => valueWf v
  | .bbReadByte => true
  | .bbWriteBytes din => portPWf din.length
  | .bbReadBytes k => portPWf k
  | .bbBitsRemaining => true
  | .bbIsAtEnd => true
  | .bbSetPos p => portPWf p
  | .bbAlignWr => true
  | .bbAlignRd => true
  | .bbGetData => true
  | .bbResetPos => true
  -- Generic Encoder / Decoder commands (42_generic_codec.md)
  | .encInt v lo hi size => valueWf v && valueWf lo && valueWf hi && size.all countWf
  | .decInt lo hi size => lo.all valueWf && hi.all valueWf && size.all countWf
  | .encUint n v => countWf n && valueWf v
  | .decUint n => countWf n
  | .decEnum k => portPWf k
  | .encNull => true
  | .decNull => true
  | .encAlignByte => true
  | .encAlignWord => true
  | .encAlignDword => true
  | .decAlignByte => true
  | .decAlignWord => true
  | .decAlignDword => true
  | .encAppendBytes din => portPWf din.length
  | .encOctetsNolen din => portPWf din.length
  | .decOctetsNolen k => portPWf k
  -- ACN constant-size and length-embedded integers, length fields (43_acn_fixed_int.md, 44_acn_varsize_int.md)
  | .acnEncPosConst n v => countWf n && valueWf v
  | .acnDecPosConst n => countWf n
  | .acnEncTcConst n v => countWf n && valueWf v
  | .acnDecTcConst n => countWf n
  | .acnEncPosVar v => valueWf v
  | .acnDecPosVar => true
  | .acnEncTcVar v => valueWf v
  | .acnDecTcVar => true
  | .acnEncLength n v => countWf n && valueWf v
  | .acnDecLength n => countWf n
  -- ACN positive integers of 16, 32, 64 bits (43_acn_fixed_int.md)
  | .acnEncPosBe16 v => valueWf v
  | .acnDecPosBe16 => true
  | .acnEncPosBe32 v => valueWf v
  | .acnDecPosBe32 => true
  | .acnEncPosBe64 v => valueWf v
  | .acnDecPosBe64 => true
  | .acnEncPosLe16 v => valueWf v
  | .acnDecPosLe16 => true
  | .acnEncPosLe32 v => valueWf v
  | .acnDecPosLe32 => true
  | .acnEncPosLe64 v => valueWf v
  | .acnDecPosLe64 => true
  -- ACN two's-complement integers of 16, 32, 64 bits (43_acn_fixed_int.md)
  | .acnEncTcBe16 v => valueWf v
  | .acnDecTcBe16 => true
  | .acnEncTcBe32 v => valueWf v
  | .acnDecTcBe32 => true
  | .acnEncTcBe64 v => valueWf v
  | .acnDecTcBe64 => true
  | .acnEncTcLe16 v => valueWf v
  | .acnDecTcLe16 => true
  | .acnEncTcLe32 v => valueWf v
  | .acnDecTcLe32 => true
  | .acnEncTcLe64 v => valueWf v
  | .acnDecTcLe64 => true
  -- ACN BCD (45_acn_bcd.md)
  | .acnEncBcdConst n v => countWf n && valueWf v
  | .acnDecBcdConst n => countWf n
  | .acnEncBcdVar v => valueWf v
  | .acnDecBcdVar => true
  | .acnEncBcdNt v => valueWf v
  | .acnDecBcdNt => true
  -- ACN IEEE-754 reals (46_acn_real.md)
  | .acnEncReal32Be v => valueWf v
  | .acnDecReal32Be => true
  | .acnEncReal32Le v => valueWf v
  | .acnDecReal32Le => true
  | .acnEncReal64Be v => valueWf v
  | .acnDecReal64Be => true
  | .acnEncReal64Le v => valueWf v
  | .acnDecReal64Le => true
  -- Reserved stubs (47_acn_string_stubs.md)
  | .acnStub which => decide (which < 16)

end Sys2Proof
end

