-- ==== Sys2Proof/Decode.lean ====
section
/-!
DEFINITION. The decoder, from a port bundle to a command or a rejection by name, and after it the encoder, from a
command to the bundle a host presents. Both are written from the header layout of 30_encoding.md R80, the formats of
R81 and the opcode table of R84; R85 and R86 say what the remaining headers are.
-/

namespace Sys2Proof

/-- Why a port bundle is no command. -/
inductive DecodeError where
  /-- A reserved header bit is 1 or the opcode is unassigned (30_encoding.md R86): the block answers
  UNSUPPORTED_OPERATION. -/
  | illegalHeader
  /-- A byte-array write whose DIN is not exactly P bytes: the ports cannot present it (10_state.md R27). -/
  | dinLength
  deriving DecidableEq, Repr

/-- OP, bits 7:0 of the header (30_encoding.md R80). -/
def opField (h : HdrWord) : Nat := h.toNat % 256

/-- N, bits 15:8 of the header. -/
def nField (h : HdrWord) : Nat := h.toNat / 256 % 256

/-- HAS_LO, bit 16 of the header. -/
def hasLo (h : HdrWord) : Bool := h.getLsbD 16

/-- HAS_HI, bit 17 of the header. -/
def hasHi (h : HdrWord) : Bool := h.getLsbD 17

/-- HAS_N, bit 18 of the header. -/
def hasN (h : HdrWord) : Bool := h.getLsbD 18

/-- Bits 31:19 of the header, which must be 0 (30_encoding.md R80, R86). -/
def reservedField (h : HdrWord) : Nat := h.toNat / 524288

/-- An operand that counts only when its presence flag is 1 (30_encoding.md R82). -/
def supplied {α : Type} (flag : Bool) (x : α) : Option α := if flag then some x else none

/-- A byte-array write: DIN is exactly P bytes (30_encoding.md R81, format FPD). -/
def withDin (b : Ports) (mk : List Byte → Instr) : Except DecodeError Instr :=
  if b.din.length = b.p.toNat then .ok (mk b.din) else .error .dinLength

/-- The opcode table (30_encoding.md R84), the stubs (R85) and the unassigned opcodes (R86). -/
def decodeOp (op : Nat) (b : Ports) : Except DecodeError Instr :=
  match op with
  -- BitBuffer commands (40_bitbuffer.md) and the position reset (41_codec_base.md)
  | 0x01 => .ok (.bbWriteBits (nField b.hdr) b.v.toInt)
  | 0x02 => .ok (.bbReadBits (nField b.hdr))
  | 0x03 => .ok (.bbWriteBit b.v.toInt)
  | 0x04 => .ok .bbReadBit
  | 0x05 => .ok (.bbWriteByte b.v.toInt)
  | 0x06 => .ok .bbReadByte
  | 0x07 => withDin b .bbWriteBytes
  | 0x08 => .ok (.bbReadBytes b.p.toNat)
  | 0x09 => .ok .bbBitsRemaining
  | 0x0A => .ok .bbIsAtEnd
  | 0x0B => .ok (.bbSetPos b.p.toNat)
  | 0x0C => .ok .bbAlignWr
  | 0x0D => .ok .bbAlignRd
  | 0x0E => .ok .bbGetData
  | 0x0F => .ok .bbResetPos
  -- Generic Encoder / Decoder commands (42_generic_codec.md)
  | 0x10 => .ok (.encInt b.v.toInt b.lo.toInt b.hi.toInt (supplied (hasN b.hdr) (nField b.hdr)))
  | 0x11 =>
    .ok (.decInt (supplied (hasLo b.hdr) b.lo.toInt) (supplied (hasHi b.hdr) b.hi.toInt)
      (supplied (hasN b.hdr) (nField b.hdr)))
  | 0x12 => .ok (.encUint (nField b.hdr) b.v.toInt)
  | 0x13 => .ok (.decUint (nField b.hdr))
  | 0x14 => .ok (.decEnum b.p.toNat)
  | 0x15 => .ok .encNull
  | 0x16 => .ok .decNull
  | 0x17 => .ok .encAlignByte
  | 0x18 => .ok .encAlignWord
  | 0x19 => .ok .encAlignDword
  | 0x1A => .ok .decAlignByte
  | 0x1B => .ok .decAlignWord
  | 0x1C => .ok .decAlignDword
  | 0x1D => withDin b .encAppendBytes
  | 0x1E => withDin b .encOctetsNolen
  | 0x1F => .ok (.decOctetsNolen b.p.toNat)
  -- ACN constant-size and length-embedded integers, length fields (43_acn_fixed_int.md, 44_acn_varsize_int.md)
  | 0x20 => .ok (.acnEncPosConst (nField b.hdr) b.v.toInt)
  | 0x21 => .ok (.acnDecPosConst (nField b.hdr))
  | 0x22 => .ok (.acnEncTcConst (nField b.hdr) b.v.toInt)
  | 0x23 => .ok (.acnDecTcConst (nField b.hdr))
  | 0x24 => .ok (.acnEncPosVar b.v.toInt)
  | 0x25 => .ok .acnDecPosVar
  | 0x26 => .ok (.acnEncTcVar b.v.toInt)
  | 0x27 => .ok .acnDecTcVar
  | 0x28 => .ok (.acnEncLength (nField b.hdr) b.v.toInt)
  | 0x29 => .ok (.acnDecLength (nField b.hdr))
  -- ACN positive integers of 16, 32, 64 bits (43_acn_fixed_int.md)
  | 0x30 => .ok (.acnEncPosBe16 b.v.toInt)
  | 0x31 => .ok .acnDecPosBe16
  | 0x32 => .ok (.acnEncPosBe32 b.v.toInt)
  | 0x33 => .ok .acnDecPosBe32
  | 0x34 => .ok (.acnEncPosBe64 b.v.toInt)
  | 0x35 => .ok .acnDecPosBe64
  | 0x36 => .ok (.acnEncPosLe16 b.v.toInt)
  | 0x37 => .ok .acnDecPosLe16
  | 0x38 => .ok (.acnEncPosLe32 b.v.toInt)
  | 0x39 => .ok .acnDecPosLe32
  | 0x3A => .ok (.acnEncPosLe64 b.v.toInt)
  | 0x3B => .ok .acnDecPosLe64
  -- ACN two's-complement integers of 16, 32, 64 bits (43_acn_fixed_int.md)
  | 0x40 => .ok (.acnEncTcBe16 b.v.toInt)
  | 0x41 => .ok .acnDecTcBe16
  | 0x42 => .ok (.acnEncTcBe32 b.v.toInt)
  | 0x43 => .ok .acnDecTcBe32
  | 0x44 => .ok (.acnEncTcBe64 b.v.toInt)
  | 0x45 => .ok .acnDecTcBe64
  | 0x46 => .ok (.acnEncTcLe16 b.v.toInt)
  | 0x47 => .ok .acnDecTcLe16
  | 0x48 => .ok (.acnEncTcLe32 b.v.toInt)
  | 0x49 => .ok .acnDecTcLe32
  | 0x4A => .ok (.acnEncTcLe64 b.v.toInt)
  | 0x4B => .ok .acnDecTcLe64
  -- ACN BCD (45_acn_bcd.md)
  | 0x50 => .ok (.acnEncBcdConst (nField b.hdr) b.v.toInt)
  | 0x51 => .ok (.acnDecBcdConst (nField b.hdr))
  | 0x52 => .ok (.acnEncBcdVar b.v.toInt)
  | 0x53 => .ok .acnDecBcdVar
  | 0x54 => .ok (.acnEncBcdNt b.v.toInt)
  | 0x55 => .ok .acnDecBcdNt
  -- ACN IEEE-754 reals (46_acn_real.md)
  | 0x60 => .ok (.acnEncReal32Be b.v.toInt)
  | 0x61 => .ok .acnDecReal32Be
  | 0x62 => .ok (.acnEncReal32Le b.v.toInt)
  | 0x63 => .ok .acnDecReal32Le
  | 0x64 => .ok (.acnEncReal64Be b.v.toInt)
  | 0x65 => .ok .acnDecReal64Be
  | 0x66 => .ok (.acnEncReal64Le b.v.toInt)
  | 0x67 => .ok .acnDecReal64Le
  | op => if op / 16 = 7 then .ok (.acnStub (op % 16)) else .error .illegalHeader

/-- The command a port bundle presents. The reserved bits are looked at before the opcode (30_encoding.md R86). -/
def decode (b : Ports) : Except DecodeError Instr :=
  if reservedField b.hdr = 0 then decodeOp (opField b.hdr) b else .error .illegalHeader

/-- The presence flags as the number in bits 18:16 (30_encoding.md R80). -/
def flags (lo hi n : Bool) : Nat := lo.toNat + 2 * hi.toNat + 4 * n.toNat

/-- A header from its opcode, its count and its presence flags; the reserved bits are 0 (30_encoding.md R80). -/
def header (op n fl : Nat) : HdrWord := BitVec.ofNat 32 (op + 256 * n + 65536 * fl)

/-- The bundle that presents a command; a port or field its format does not read is 0 (30_encoding.md R81). -/
def encode : Instr → Ports
  -- BitBuffer commands (40_bitbuffer.md) and the position reset (41_codec_base.md)
  | .bbWriteBits n v => { hdr := header 0x01 n 0, v := BitVec.ofInt 65 v }
  | .bbReadBits n => { hdr := header 0x02 n 0 }
  | .bbWriteBit v => { hdr := header 0x03 0 0, v := BitVec.ofInt 65 v }
  | .bbReadBit => { hdr := header 0x04 0 0 }
  | .bbWriteByte v => { hdr := header 0x05 0 0, v := BitVec.ofInt 65 v }
  | .bbReadByte => { hdr := header 0x06 0 0 }
  | .bbWriteBytes din => { hdr := header 0x07 0 0, p := BitVec.ofNat 32 din.length, din := din }
  | .bbReadBytes k => { hdr := header 0x08 0 0, p := BitVec.ofNat 32 k }
  | .bbBitsRemaining => { hdr := header 0x09 0 0 }
  | .bbIsAtEnd => { hdr := header 0x0A 0 0 }
  | .bbSetPos p => { hdr := header 0x0B 0 0, p := BitVec.ofNat 32 p }
  | .bbAlignWr => { hdr := header 0x0C 0 0 }
  | .bbAlignRd => { hdr := header 0x0D 0 0 }
  | .bbGetData => { hdr := header 0x0E 0 0 }
  | .bbResetPos => { hdr := header 0x0F 0 0 }
  -- Generic Encoder / Decoder commands (42_generic_codec.md)
  | .encInt v lo hi size =>
    { hdr := header 0x10 (size.getD 0) (flags false false size.isSome),
      v := BitVec.ofInt 65 v, lo := BitVec.ofInt 65 lo, hi := BitVec.ofInt 65 hi }
  | .decInt lo hi size =>
    { hdr := header 0x11 (size.getD 0) (flags lo.isSome hi.isSome size.isSome),
      lo := BitVec.ofInt 65 (lo.getD 0), hi := BitVec.ofInt 65 (hi.getD 0) }
  | .encUint n v => { hdr := header 0x12 n 0, v := BitVec.ofInt 65 v }
  | .decUint n => { hdr := header 0x13 n 0 }
  | .decEnum k => { hdr := header 0x14 0 0, p := BitVec.ofNat 32 k }
  | .encNull => { hdr := header 0x15 0 0 }
  | .decNull => { hdr := header 0x16 0 0 }
  | .encAlignByte => { hdr := header 0x17 0 0 }
  | .encAlignWord => { hdr := header 0x18 0 0 }
  | .encAlignDword => { hdr := header 0x19 0 0 }
  | .decAlignByte => { hdr := header 0x1A 0 0 }
  | .decAlignWord => { hdr := header 0x1B 0 0 }
  | .decAlignDword => { hdr := header 0x1C 0 0 }
  | .encAppendBytes din => { hdr := header 0x1D 0 0, p := BitVec.ofNat 32 din.length, din := din }
  | .encOctetsNolen din => { hdr := header 0x1E 0 0, p := BitVec.ofNat 32 din.length, din := din }
  | .decOctetsNolen k => { hdr := header 0x1F 0 0, p := BitVec.ofNat 32 k }
  -- ACN constant-size and length-embedded integers, length fields (43_acn_fixed_int.md, 44_acn_varsize_int.md)
  | .acnEncPosConst n v => { hdr := header 0x20 n 0, v := BitVec.ofInt 65 v }
  | .acnDecPosConst n => { hdr := header 0x21 n 0 }
  | .acnEncTcConst n v => { hdr := header 0x22 n 0, v := BitVec.ofInt 65 v }
  | .acnDecTcConst n => { hdr := header 0x23 n 0 }
  | .acnEncPosVar v => { hdr := header 0x24 0 0, v := BitVec.ofInt 65 v }
  | .acnDecPosVar => { hdr := header 0x25 0 0 }
  | .acnEncTcVar v => { hdr := header 0x26 0 0, v := BitVec.ofInt 65 v }
  | .acnDecTcVar => { hdr := header 0x27 0 0 }
  | .acnEncLength n v => { hdr := header 0x28 n 0, v := BitVec.ofInt 65 v }
  | .acnDecLength n => { hdr := header 0x29 n 0 }
  -- ACN positive integers of 16, 32, 64 bits (43_acn_fixed_int.md)
  | .acnEncPosBe16 v => { hdr := header 0x30 0 0, v := BitVec.ofInt 65 v }
  | .acnDecPosBe16 => { hdr := header 0x31 0 0 }
  | .acnEncPosBe32 v => { hdr := header 0x32 0 0, v := BitVec.ofInt 65 v }
  | .acnDecPosBe32 => { hdr := header 0x33 0 0 }
  | .acnEncPosBe64 v => { hdr := header 0x34 0 0, v := BitVec.ofInt 65 v }
  | .acnDecPosBe64 => { hdr := header 0x35 0 0 }
  | .acnEncPosLe16 v => { hdr := header 0x36 0 0, v := BitVec.ofInt 65 v }
  | .acnDecPosLe16 => { hdr := header 0x37 0 0 }
  | .acnEncPosLe32 v => { hdr := header 0x38 0 0, v := BitVec.ofInt 65 v }
  | .acnDecPosLe32 => { hdr := header 0x39 0 0 }
  | .acnEncPosLe64 v => { hdr := header 0x3A 0 0, v := BitVec.ofInt 65 v }
  | .acnDecPosLe64 => { hdr := header 0x3B 0 0 }
  -- ACN two's-complement integers of 16, 32, 64 bits (43_acn_fixed_int.md)
  | .acnEncTcBe16 v => { hdr := header 0x40 0 0, v := BitVec.ofInt 65 v }
  | .acnDecTcBe16 => { hdr := header 0x41 0 0 }
  | .acnEncTcBe32 v => { hdr := header 0x42 0 0, v := BitVec.ofInt 65 v }
  | .acnDecTcBe32 => { hdr := header 0x43 0 0 }
  | .acnEncTcBe64 v => { hdr := header 0x44 0 0, v := BitVec.ofInt 65 v }
  | .acnDecTcBe64 => { hdr := header 0x45 0 0 }
  | .acnEncTcLe16 v => { hdr := header 0x46 0 0, v := BitVec.ofInt 65 v }
  | .acnDecTcLe16 => { hdr := header 0x47 0 0 }
  | .acnEncTcLe32 v => { hdr := header 0x48 0 0, v := BitVec.ofInt 65 v }
  | .acnDecTcLe32 => { hdr := header 0x49 0 0 }
  | .acnEncTcLe64 v => { hdr := header 0x4A 0 0, v := BitVec.ofInt 65 v }
  | .acnDecTcLe64 => { hdr := header 0x4B 0 0 }
  -- ACN BCD (45_acn_bcd.md)
  | .acnEncBcdConst n v => { hdr := header 0x50 n 0, v := BitVec.ofInt 65 v }
  | .acnDecBcdConst n => { hdr := header 0x51 n 0 }
  | .acnEncBcdVar v => { hdr := header 0x52 0 0, v := BitVec.ofInt 65 v }
  | .acnDecBcdVar => { hdr := header 0x53 0 0 }
  | .acnEncBcdNt v => { hdr := header 0x54 0 0, v := BitVec.ofInt 65 v }
  | .acnDecBcdNt => { hdr := header 0x55 0 0 }
  -- ACN IEEE-754 reals (46_acn_real.md)
  | .acnEncReal32Be v => { hdr := header 0x60 0 0, v := BitVec.ofInt 65 v }
  | .acnDecReal32Be => { hdr := header 0x61 0 0 }
  | .acnEncReal32Le v => { hdr := header 0x62 0 0, v := BitVec.ofInt 65 v }
  | .acnDecReal32Le => { hdr := header 0x63 0 0 }
  | .acnEncReal64Be v => { hdr := header 0x64 0 0, v := BitVec.ofInt 65 v }
  | .acnDecReal64Be => { hdr := header 0x65 0 0 }
  | .acnEncReal64Le v => { hdr := header 0x66 0 0, v := BitVec.ofInt 65 v }
  | .acnDecReal64Le => { hdr := header 0x67 0 0 }
  -- Reserved stubs (47_acn_string_stubs.md)
  | .acnStub which => { hdr := header (0x70 + which) 0 0 }

/-- The bundle the opcode table's words stand for: the header is the low `nbits` bits of `w`, every other port is 0. -/
def tablePorts (nbits w : Nat) : Ports := { hdr := BitVec.ofNat 32 (w % 2 ^ nbits) }

/-- The command of a row of spec/opcode_table.json: what the decoder reads from the header `w`. -/
def decodeTableWord (nbits w : Nat) : Option Instr :=
  match decode (tablePorts nbits w) with
  | .ok i => some i
  | .error _ => none

end Sys2Proof
end

