-- ==== Sys2Proof/Machine/State.lean ====
section
/-!
DEFINITION. The state of one instance of the block (10_state.md R20 to R30), the reasons a step can stop, and the
state after reset.
-/

namespace Sys2Proof.Machine

/-- BUF as (byte address, byte) cells in canonical form: addresses strictly rising, no cell holding 0. A byte that
no cell lists holds the reset content 0 (70_reset_and_hazards.md R321). `Memory.wf` says the form holds. -/
abbrev Memory := List Host.Cell

/-- What the host does to an instance (60_exceptions.md R312): present a command, or INIT it anew
(70_reset_and_hazards.md R320). COPY and register reads change nothing and are functions of a state. -/
inductive HostAction where
  | command (b : Ports)
  | init (maxBits : Nat) (initBytes : List Byte)
  deriving DecidableEq, Repr

/-- One instance of the block, and the host actions it has still to take. -/
structure State where
  /-- CAP, the capacity in bits (10_state.md R21). -/
  cap : Nat
  /-- BUF, the bytes of the buffer (10_state.md R22). -/
  buf : Memory
  /-- POS, the cursor (10_state.md R23). -/
  pos : Nat
  /-- USED, the high-water mark (10_state.md R24). -/
  used : Nat
  /-- FAULT, the sticky flag (10_state.md R25). -/
  fault : Bool
  /-- SUCCESS, result register (10_state.md R28). -/
  success : Bool
  /-- ERR, result register (10_state.md R28; 60_exceptions.md R291). -/
  err : ErrCode
  /-- VAL, result register: a signed integer of 65 bits (10_state.md R28). -/
  val : Int
  /-- BITS, result register: an unsigned integer of 33 bits (10_state.md R28). -/
  bits : Nat
  /-- DOUT, result register: the bytes returned (10_state.md R28). -/
  dout : List Byte
  /-- The host actions not yet taken, the oldest first (60_exceptions.md R312). The model's own field (log entry 5). -/
  pending : List HostAction
  /-- How many unspecified values have been drawn. The model's own field (log entry 3). -/
  freeIx : Nat
  deriving DecidableEq, Repr

/-- Why a step ends in the fault outcome. -/
inductive Fault where
  /-- ContractFault (60_exceptions.md R297): raised by every command whose operands lie outside the domain the source
  defines, and by every command while FAULT = 1. `after` is the state the block is left in: FAULT is 1, BUF, POS and
  USED are as before, the result registers are unspecified. Safe: no claim holds of a run past it. -/
  | contractFault (after : State)
  deriving DecidableEq, Repr

/-- Why a step ends in a refusal. -/
inductive Refusal where
  /-- Raised by an arm of `exec` whose command has no meaning; every command has one. Safe. -/
  | notModelled (mnemonic : String)
  /-- Raised by the step for a byte-array write whose DIN is not exactly P bytes, which the ports cannot present
  (10_state.md R27; log entry 6). Safe. -/
  | dinLength
  deriving DecidableEq, Repr

/-- What a command or a step ends in. -/
abbrev StepResult := Host.Outcome State Fault Refusal

/-- The instance INIT gives a host that names no capacity and no data (70_reset_and_hazards.md R320, R321, R323; log
entry 1). The result registers are unspecified by the spec and zero here (log entry 2). -/
def State.reset : State where
  cap := Config.defaultCap
  buf := []
  pos := 0
  used := 0
  fault := false
  success := false
  err := .success
  val := 0
  bits := 0
  dout := []
  pending := []
  freeIx := 0

end Sys2Proof.Machine
end

