-- ==== Sys2Proof/Machine/Flags.lean ====
section
/-!
DEFINITION. The status a command leaves. The block has no condition codes (10_state.md R29): what stands in their place
is the result record SUCCESS, ERR, VAL, BITS, DOUT (R28), the error codes and their numerals (60_exceptions.md R291),
and the sticky FAULT (10_state.md R25). Every command ends in `ok`, `fail` or `contractFault`.
-/

namespace Sys2Proof.Machine

/-- The numeral of an error code (60_exceptions.md R291). -/
def errNumeral : ErrCode → Nat
  | .success => 0
  | .insufficientData => 1
  | .invalidValue => 2
  | .constraintViolation => 3
  | .bufferOverflow => 4
  | .unsupportedOperation => 5
  | .bitstreamError => 6

/-- The result record of `Ok(val, bits, data)` (10_state.md R28). A command that returns no bytes passes the empty
sequence for `data`. For the commands of 40_bitbuffer.md its R124(c) says that DOUT is then empty; for the codec commands
(42_generic_codec.md to 46_acn_real.md) the spec does not say what DOUT holds after `Ok(val, bits)`, and the empty
sequence is the model's. DESIGN CHOICE, unsafe: log entry 21. -/
def setOk (val : Int) (bits : Nat) (data : List Byte) (s : State) : State :=
  { s with success := true, err := .success, val := val, bits := bits, dout := data }

/-- The payload registers, unspecified (93_implementation_defined.md U1): one draw of free values. -/
def forgetPayload (s : State) : State :=
  { s with
    val := (Config.freeVal s.freeIx).toInt
    bits := (Config.freeBits s.freeIx).toNat
    dout := Config.freeDout s.freeIx
    freeIx := s.freeIx + 1 }

/-- All result registers, unspecified (60_exceptions.md R297; 70_reset_and_hazards.md R321). -/
def forgetResult (s : State) : State :=
  forgetPayload { s with success := Config.freeSuccess s.freeIx, err := Config.freeErr s.freeIx }

/-- The result record of `Err(code)`: SUCCESS 0, ERR the code, the payload unspecified (10_state.md R28). -/
def setErr (code : ErrCode) (s : State) : State :=
  forgetPayload { s with success := false, err := code }

/-- The state a ContractFault leaves (60_exceptions.md R297): FAULT 1, the result registers unspecified. -/
def setFault (s : State) : State := forgetResult { s with fault := true }

/-- `return Ok(val, bits, data)`; `return Ok(val, bits)` is it with no bytes (log entry 21). -/
def ok (val : Int) (bits : Nat) (data : List Byte) (s : State) : StepResult := .next (setOk val bits data s)

/-- `return Err(code)`: the command ends, and the next one runs normally (60_exceptions.md R290). -/
def fail (code : ErrCode) (s : State) : StepResult := .next (setErr code s)

/-- `raise BitStreamError`: code 6, not sticky (60_exceptions.md R296). -/
def bitStreamError (s : State) : StepResult := fail .bitstreamError s

/-- `raise ContractFault`: the fault outcome, with the state it leaves (60_exceptions.md R297). -/
def contractFault (s : State) : StepResult := .fault (.contractFault (setFault s))

/-- Step 0 of every command: while FAULT = 1 it raises ContractFault again (10_state.md R25; 60_exceptions.md R300). -/
def unlessFaulted (s : State) (body : StepResult) : StepResult := if s.fault then contractFault s else body

end Sys2Proof.Machine
end

