-- ==== Sys2Proof/Machine/Operands.lean ====
section
/-!
DEFINITION. The arithmetic helper functions of 00_scope.md R9 and R10, on mathematical integers: widths, range tests,
two's complement, byte counts, digits and padding.
-/

namespace Sys2Proof.Machine

/-- `bit_length(x)`: the least `k` with `x < 2^k` (R10). -/
def bitLength (x : Nat) : Nat := if x = 0 then 0 else Nat.log2 x + 1

/-- `fits_u(v, n)` (R10). -/
abbrev fitsU (v : Int) (n : Nat) : Prop := 0 ≤ v ∧ v < 2 ^ n

/-- `fits_s(v, n)` (R10). -/
abbrev fitsS (v : Int) (n : Nat) : Prop := -(2 ^ (n - 1)) ≤ v ∧ v ≤ 2 ^ (n - 1) - 1

/-- `to_u(v, n)`: the `n`-bit two's-complement field of `v` as an unsigned integer (R10). -/
def toU (v : Int) (n : Nat) : Nat := (if 0 ≤ v then v else 2 ^ n + v).toNat

/-- `sext_n(u)`: the signed integer whose `n`-bit two's-complement field is `u` (R9). -/
def sext (n u : Nat) : Int := if 2 ^ (n - 1) ≤ u then (u : Int) - 2 ^ n else u

/-- `ubytes(v)` (R10). -/
def ubytes (v : Nat) : Nat := max 1 ((bitLength v + 7) / 8)

/-- `sbytes(v)`: the least `k ≥ 1` with `fits_s(v, 8·k)`, by R10's formula. -/
def sbytes (v : Int) : Nat :=
  if 0 ≤ v then max 1 ((bitLength v.toNat + 1 + 7) / 8) else max 1 ((bitLength (-v - 1).toNat + 1 + 7) / 8)

/-- `byte_i(u, i)`: the byte of weight `256^i` (R10). -/
def byteI (u i : Nat) : Nat := u / 256 ^ i % 256

/-- `digit_i(v, i)`: the decimal digit of weight `10^i` (R10). -/
def digitI (v i : Nat) : Nat := v / 10 ^ i % 10

/-- `ndigits` on at most `fuel + 1` digits. -/
def ndigitsUpTo : Nat → Nat → Nat
  | 0, _ => 1
  | fuel + 1, v => if v < 10 then 1 else ndigitsUpTo fuel (v / 10) + 1

/-- `ndigits(v)`: 1 for 0, else the least `d ≥ 1` with `v < 10^d` (R10). A number has at most as many decimal digits
as bits, which bounds the search. -/
def ndigits (v : Nat) : Nat := ndigitsUpTo (bitLength v) v

/-- `pad(a, p)`: the bits from `p` to the next multiple of `a` (R10). -/
def pad (a p : Nat) : Nat := (a - p % a) % a

/-- `ceil(n / 8)`: the bytes that hold `n` bits (00_scope.md R7). -/
def bytesFor (n : Nat) : Nat := (n + 7) / 8

/-- The `k` bytes of `u`, least significant first (43_acn_fixed_int.md R180, `EncLE`). -/
def leBytes (k u : Nat) : List Byte := (List.range k).map fun i => BitVec.ofNat 8 (byteI u i)

/-- The integer whose bytes, least significant first, are these (43_acn_fixed_int.md R180, `DecLE`). -/
def leValue : List Byte → Nat
  | [] => 0
  | b :: bs => b.toNat + 256 * leValue bs

end Sys2Proof.Machine
end

