-- ==== Sys2Proof/Machine/Ops.lean ====
section
/-!
DEFINITION. The operations every command is written in: the bytes and bits of BUF, MemRead and MemWrite
(20_memory.md R50 to R53), Room, ReadField and WriteField (00_scope.md R11), and the runs of fields that the codec
moves. The block has no exception entry and no return (60_exceptions.md R304): what a ContractFault does stands in
Flags.lean (`contractFault`).

The codec's `Ok(val, bits)` leaves DOUT empty: DESIGN CHOICE, unsafe, log entry 21 (see `setOk`).
-/

namespace Sys2Proof.Machine

/-! ### The buffer -/

/-- BUF[a]: the byte a cell lists, else the reset content 0 (70_reset_and_hazards.md R321). -/
def readByte : Memory → Nat → Byte
  | [], _ => 0
  | (a', b) :: m, a => if a = a' then b else readByte m a

/-- `BUF[a] <- b`, keeping the canonical form: a byte that becomes 0 is listed no more. -/
def writeByte : Memory → Nat → Byte → Memory
  | [], a, b => if b = 0 then [] else [(a, b)]
  | (a', b') :: m, a, b =>
    if a < a' then (if b = 0 then (a', b') :: m else (a, b) :: (a', b') :: m)
    else if a = a' then (if b = 0 then m else (a, b) :: m)
    else (a', b') :: writeByte m a b

/-- Canonical from address `lo` on: addresses rise from `lo`, no cell holds 0. -/
def Memory.wfFrom : Nat → Memory → Bool
  | _, [] => true
  | lo, (a, b) :: m => decide (lo ≤ a) && decide (b ≠ 0) && Memory.wfFrom (a + 1) m

/-- The canonical form: equal buffers are equal data. -/
def Memory.wf (m : Memory) : Bool := Memory.wfFrom 0 m

/-- `bit(p)`: bit `7 − (p mod 8)` of byte `BUF[p div 8]` (20_memory.md R50). -/
def bitAt (m : Memory) (p : Nat) : Bool := (readByte m (p / 8)).getLsbD (7 - p % 8)

/-- A byte with its bit `i` replaced. -/
def putBit (x : Byte) (i : Nat) (b : Bool) : Byte :=
  if b then x ||| BitVec.twoPow 8 i else x &&& ~~~ BitVec.twoPow 8 i

/-- `bit(p) <- b`. -/
def setBitAt (m : Memory) (p : Nat) (b : Bool) : Memory :=
  writeByte m (p / 8) (putBit (readByte m (p / 8)) (7 - p % 8) b)

/-- `MemRead(p, n)`: the `n` bits at `p` as an unsigned integer, the first the most significant (20_memory.md R52). -/
def memRead (m : Memory) (p : Nat) : Nat → Nat
  | 0 => 0
  | n + 1 => 2 * memRead m p n + (bitAt m (p + n)).toNat

/-- `MemWrite(p, n, v)`: `bit(p + i) <- v[n−1−i]` for each `i < n` (20_memory.md R53). -/
def memWrite (m : Memory) (p : Nat) : Nat → Nat → Memory
  | 0, _ => m
  | n + 1, v => setBitAt (memWrite m p n (v / 2)) (p + n) (decide (v % 2 = 1))

/-! ### Fields at the cursor -/

/-- `Room(n)` (00_scope.md R11). -/
abbrev room (n : Nat) (s : State) : Prop := s.pos + n ≤ s.cap

/-- `WriteField(n, v)` (00_scope.md R11): USED rises only with a write of at least one bit. -/
def writeField (n v : Nat) (s : State) : State :=
  { s with
    buf := memWrite s.buf s.pos n v
    pos := s.pos + n
    used := if 0 < n then max s.used (s.pos + n) else s.used }

/-- `POS <- POS + n`: the cursor passes over `n` bits. -/
def skipBits (n : Nat) (s : State) : State := { s with pos := s.pos + n }

/-- `ReadField(n)` (00_scope.md R11): the field at the cursor, and the cursor behind it. -/
def readField (n : Nat) (s : State) : Nat × State := (memRead s.buf s.pos n, skipBits n s)

/-- `POS <- p`. -/
def moveTo (p : Nat) (s : State) : State := { s with pos := p }

/-! ### Runs of fields -/

/-- Bytes as consecutive 8-bit fields, the first byte first (40_bitbuffer.md R116). -/
def writeBytes : List Byte → State → State
  | [], s => s
  | b :: bs, s => writeBytes bs (writeField 8 b.toNat s)

/-- `k` consecutive 8-bit fields (40_bitbuffer.md R117). -/
def readBytes : Nat → State → List Byte × State
  | 0, s => ([], s)
  | k + 1, s =>
    let r := readField 8 s
    let rest := readBytes k r.2
    (BitVec.ofNat 8 r.1 :: rest.1, rest.2)

/-- `WriteDigits(v, d)`: the `d` low decimal digits of `v`, the most significant first (45_acn_bcd.md R240). -/
def writeDigits (v : Nat) : Nat → State → State
  | 0, s => s
  | d + 1, s => writeDigits v d (writeField 4 (digitI v d) s)

/-- `ReadDigits(c)` from the accumulator `acc` (45_acn_bcd.md R240): it stops at the first nibble above 9, with the
cursor just behind that nibble. -/
def readDigits : Nat → Nat → State → Except ErrCode Nat × State
  | 0, acc, s => (.ok acc, s)
  | c + 1, acc, s =>
    let r := readField 4 s
    if 9 < r.1 then (.error .invalidValue, r.2) else readDigits c (acc * 10 + r.1) r.2

/-- The loop of ACN_DEC_BCD_NT (45_acn_bcd.md R246): `left` is how many more digits it takes, `acc` the number so far,
`b` the bits read. It yields the number and the bits read, the sentinel's included. -/
def readDigitsNt (left acc b : Nat) (s : State) : Except ErrCode (Nat × Nat) × State :=
  if ¬ room 4 s then (.error .insufficientData, s) else
  let r := readField 4 s
  if r.1 = 15 then (.ok (acc, b + 4), r.2) else
  if 9 < r.1 then (.error .invalidValue, r.2) else
  match left with
  | 0 => (.error .invalidValue, r.2)
  | left + 1 => readDigitsNt left (acc * 10 + r.1) (b + 4) r.2

/-! ### Bodies that several commands share -/

/-- A BitBuffer field write (40_bitbuffer.md R110, R112, R114). -/
def bufWrite (n : Nat) (v : Int) (s : State) : StepResult :=
  if Config.maxField < n then bitStreamError s else
  if ¬ fitsU v n then bitStreamError s else
  if ¬ room n s then bitStreamError s else
  ok 0 n [] (writeField n v.toNat s)

/-- A BitBuffer field read (40_bitbuffer.md R111, R113, R115). -/
def bufRead (n : Nat) (s : State) : StepResult :=
  if Config.maxField < n then bitStreamError s else
  if ¬ room n s then bitStreamError s else
  let r := readField n s
  ok r.1 n [] r.2

/-- `EncPos(n, v)` (43_acn_fixed_int.md R180); DOUT empty on success: DESIGN CHOICE, log entry 21. -/
def encPos (n : Nat) (v : Int) (s : State) : StepResult :=
  if v < 0 then fail .invalidValue s else
  if 2 ^ n ≤ v then fail .invalidValue s else
  if ¬ room n s then fail .insufficientData s else
  ok 0 n [] (writeField n v.toNat s)

/-- `DecPos(n)` (43_acn_fixed_int.md R180). -/
def decPos (n : Nat) (s : State) : StepResult :=
  if ¬ room n s then fail .insufficientData s else
  let r := readField n s
  ok r.1 n [] r.2

/-- `EncTC(n, v)` (43_acn_fixed_int.md R180). -/
def encTc (n : Nat) (v : Int) (s : State) : StepResult :=
  if ¬ fitsS v n then fail .invalidValue s else
  if ¬ room n s then fail .insufficientData s else
  ok 0 n [] (writeField n (toU v n) s)

/-- `DecTC(n)` (43_acn_fixed_int.md R180). -/
def decTc (n : Nat) (s : State) : StepResult :=
  if ¬ room n s then fail .insufficientData s else
  let r := readField n s
  ok (sext n r.1) n [] r.2

/-- `EncLE(k, u)` (43_acn_fixed_int.md R180; 46_acn_real.md R270). -/
def encLe (k u : Nat) (s : State) : StepResult :=
  if ¬ room (8 * k) s then fail .insufficientData s else
  ok 0 (8 * k) [] (writeBytes (leBytes k u) s)

/-- `DecLE(k)` (43_acn_fixed_int.md R180; 46_acn_real.md R270), with the value made of the assembled integer by
`value`: itself, or its sign extension. -/
def decLe (k : Nat) (value : Nat → Int) (s : State) : StepResult :=
  if ¬ room (8 * k) s then fail .insufficientData s else
  let r := readBytes k s
  ok (value (leValue r.1)) (8 * k) [] r.2

/-- A fixed-width unsigned field of any width up to 64 (42_generic_codec.md R152; 43_acn_fixed_int.md R209). -/
def encWidth (n : Nat) (v : Int) (s : State) : StepResult :=
  if Config.maxField < n then contractFault s else encPos n v s

/-- Its decoder (42_generic_codec.md R153; 43_acn_fixed_int.md R210). -/
def decWidth (n : Nat) (s : State) : StepResult :=
  if Config.maxField < n then contractFault s else decPos n s

/-- The domain check of a constant size, 1 to 64 bits (43_acn_fixed_int.md R181 to R184). -/
def constSize (n : Nat) (s : State) (body : StepResult) : StepResult :=
  if n < 1 ∨ Config.maxField < n then contractFault s else body

/-- `EncAlign(a)` (42_generic_codec.md R169). -/
def encAlign (a : Nat) (s : State) : StepResult :=
  if ¬ room (pad a s.pos) s then fail .insufficientData s else
  ok 0 (pad a s.pos) [] (writeField (pad a s.pos) 0 s)

/-- `DecAlign(a)` (42_generic_codec.md R169). -/
def decAlign (a : Nat) (s : State) : StepResult :=
  if ¬ room (pad a s.pos) s then fail .insufficientData s else
  ok 0 (pad a s.pos) [] (skipBits (pad a s.pos) s)

/-- A byte array without a length (42_generic_codec.md R163, R164). -/
def encBytes (din : List Byte) (s : State) : StepResult :=
  if ¬ room (8 * din.length) s then fail .insufficientData s else
  ok 0 (8 * din.length) [] (writeBytes din s)

/-- A count byte, then the `8·k`-bit field `u` (44_acn_varsize_int.md R224); DOUT empty on success: DESIGN CHOICE, log
entry 21. -/
def encCounted (k u : Nat) (s : State) : StepResult :=
  if ¬ room (8 + 8 * k) s then fail .insufficientData s else
  ok 0 (8 + 8 * k) [] (writeField (8 * k) u (writeField 8 k s))

/-- The count byte and the field it announces (44_acn_varsize_int.md R221, R223): the count and the field, or the
failure and the cursor it leaves. -/
def readCounted (s : State) : Except ErrCode (Nat × Nat) × State :=
  if ¬ room 8 s then (.error .insufficientData, s) else
  let c := readField 8 s
  if Config.maxVb < c.1 then (.error .invalidValue, c.2) else
  if ¬ room (8 * c.1) c.2 then (.error .insufficientData, c.2) else
  let r := readField (8 * c.1) c.2
  (.ok (c.1, r.1), r.2)

/-- The value path of the BCD decoders: a number of 2^64 or more is INVALID_VALUE after it is read
(45_acn_bcd.md R240). -/
def bcdResult (acc bits : Nat) (s : State) : StepResult :=
  if 2 ^ 64 ≤ acc then fail .invalidValue s else ok acc bits [] s

/-- `EncRealBE(k, V)` (46_acn_real.md R270). -/
def encRealBe (k : Nat) (v : Int) (s : State) : StepResult :=
  if v < 0 ∨ 2 ^ (8 * k) ≤ v then contractFault s else
  if ¬ room (8 * k) s then fail .insufficientData s else
  ok 0 (8 * k) [] (writeField (8 * k) v.toNat s)

/-- `EncRealLE(k, V)` (46_acn_real.md R270). -/
def encRealLe (k : Nat) (v : Int) (s : State) : StepResult :=
  if v < 0 ∨ 2 ^ (8 * k) ≤ v then contractFault s else encLe k v.toNat s

/-! ### The host's side -/

/-- The oldest host action and the state without it. -/
def takeAction (s : State) : Option (HostAction × State) :=
  match s.pending with
  | [] => none
  | a :: rest => some (a, { s with pending := rest })

end Sys2Proof.Machine
end

