-- ==== Sys2Proof/Machine/AcnBcd.lean ====
section
/-!
DEFINITION. The ACN binary-coded decimal commands (45_acn_bcd.md): constant size in nibbles, length-embedded, and
terminated by the nibble 0xF.
A success that returns no bytes leaves DOUT empty: DESIGN CHOICE, log entry 21.
-/

namespace Sys2Proof.Machine

/-- ACN_ENC_BCD_CONST (R241). -/
def execAcnEncBcdConst (n : Nat) (v : Int) (s : State) : StepResult :=
  unlessFaulted s <|
  if n < 1 ∨ Config.maxDig < n then contractFault s else
  if 2 ^ 64 ≤ v then contractFault s else
  if v < 0 then fail .invalidValue s else
  if 10 ^ n ≤ v then fail .invalidValue s else
  if ¬ room (4 * n) s then fail .insufficientData s else
  ok 0 (4 * n) [] (writeDigits v.toNat n s)

/-- ACN_DEC_BCD_CONST (R242). -/
def execAcnDecBcdConst (n : Nat) (s : State) : StepResult :=
  unlessFaulted s <|
  if n < 1 ∨ Config.maxDig < n then contractFault s else
  if ¬ room (4 * n) s then fail .insufficientData s else
  match readDigits n 0 s with
  | (.error code, t) => fail code t
  | (.ok acc, t) => bcdResult acc (4 * n) t

/-- ACN_ENC_BCD_VAR (R243): the count, then the digits without leading zeros. -/
def execAcnEncBcdVar (v : Int) (s : State) : StepResult :=
  unlessFaulted s <|
  if 2 ^ 64 ≤ v then contractFault s else
  if v < 0 then fail .invalidValue s else
  let d := ndigits v.toNat
  if ¬ room (8 + 4 * d) s then fail .insufficientData s else
  ok 0 (8 + 4 * d) [] (writeDigits v.toNat d (writeField 8 d s))

/-- ACN_DEC_BCD_VAR (R244). -/
def execAcnDecBcdVar (s : State) : StepResult :=
  unlessFaulted s <|
  if ¬ room 8 s then fail .insufficientData s else
  let c := readField 8 s
  if Config.maxDig < c.1 then fail .invalidValue c.2 else
  if ¬ room (4 * c.1) c.2 then fail .insufficientData c.2 else
  match readDigits c.1 0 c.2 with
  | (.error code, t) => fail code t
  | (.ok acc, t) => bcdResult acc (8 + 4 * c.1) t

/-- ACN_ENC_BCD_NT (R245): the digits, then the sentinel nibble 0xF. -/
def execAcnEncBcdNt (v : Int) (s : State) : StepResult :=
  unlessFaulted s <|
  if 2 ^ 64 ≤ v then contractFault s else
  if v < 0 then fail .invalidValue s else
  let d := ndigits v.toNat
  if ¬ room (4 * d + 4) s then fail .insufficientData s else
  ok 0 (4 * d + 4) [] (writeField 4 15 (writeDigits v.toNat d s))

/-- ACN_DEC_BCD_NT (R246). -/
def execAcnDecBcdNt (s : State) : StepResult :=
  unlessFaulted s <|
  match readDigitsNt Config.maxDig 0 0 s with
  | (.error code, t) => fail code t
  | (.ok (acc, b), t) => bcdResult acc b t

end Sys2Proof.Machine
end

