-- ==== Sys2Proof/Machine/AcnFixed.lean ====
section
/-!
DEFINITION. The ACN fixed-size integers and length fields (43_acn_fixed_int.md), each an instance of a routine of R180.
-/

namespace Sys2Proof.Machine

/-- ACN_ENC_POS_CONST (R181). -/
def execAcnEncPosConst (n : Nat) (v : Int) (s : State) : StepResult := unlessFaulted s (constSize n s (encPos n v s))

/-- ACN_DEC_POS_CONST (R182). -/
def execAcnDecPosConst (n : Nat) (s : State) : StepResult := unlessFaulted s (constSize n s (decPos n s))

/-- ACN_ENC_TC_CONST (R183). -/
def execAcnEncTcConst (n : Nat) (v : Int) (s : State) : StepResult := unlessFaulted s (constSize n s (encTc n v s))

/-- ACN_DEC_TC_CONST (R184). -/
def execAcnDecTcConst (n : Nat) (s : State) : StepResult := unlessFaulted s (constSize n s (decTc n s))

/-- A little-endian positive encoder of `k` bytes: the range check of R191, R193, R195, then `EncLE`. -/
def encPosLe (k : Nat) (v : Int) (s : State) : StepResult :=
  if v < 0 then fail .invalidValue s else
  if 2 ^ (8 * k) ≤ v then fail .invalidValue s else
  encLe k v.toNat s

/-- A little-endian two's-complement encoder of `k` bytes: the range check of R203, R205, R207, then `EncLE`. -/
def encTcLe (k : Nat) (v : Int) (s : State) : StepResult :=
  if ¬ fitsS v (8 * k) then fail .invalidValue s else
  encLe k (toU v (8 * k)) s

/-- ACN_ENC_POS_BE16 (R185). -/
def execAcnEncPosBe16 (v : Int) (s : State) : StepResult := unlessFaulted s (encPos 16 v s)

/-- ACN_DEC_POS_BE16 (R186). -/
def execAcnDecPosBe16 (s : State) : StepResult := unlessFaulted s (decPos 16 s)

/-- ACN_ENC_POS_BE32 (R187). -/
def execAcnEncPosBe32 (v : Int) (s : State) : StepResult := unlessFaulted s (encPos 32 v s)

/-- ACN_DEC_POS_BE32 (R188). -/
def execAcnDecPosBe32 (s : State) : StepResult := unlessFaulted s (decPos 32 s)

/-- ACN_ENC_POS_BE64 (R189). -/
def execAcnEncPosBe64 (v : Int) (s : State) : StepResult := unlessFaulted s (encPos 64 v s)

/-- ACN_DEC_POS_BE64 (R190). -/
def execAcnDecPosBe64 (s : State) : StepResult := unlessFaulted s (decPos 64 s)

/-- ACN_ENC_POS_LE16 (R191). -/
def execAcnEncPosLe16 (v : Int) (s : State) : StepResult := unlessFaulted s (encPosLe 2 v s)

/-- ACN_DEC_POS_LE16 (R192). -/
def execAcnDecPosLe16 (s : State) : StepResult := unlessFaulted s (decLe 2 Int.ofNat s)

/-- ACN_ENC_POS_LE32 (R193). -/
def execAcnEncPosLe32 (v : Int) (s : State) : StepResult := unlessFaulted s (encPosLe 4 v s)

/-- ACN_DEC_POS_LE32 (R194). -/
def execAcnDecPosLe32 (s : State) : StepResult := unlessFaulted s (decLe 4 Int.ofNat s)

/-- ACN_ENC_POS_LE64 (R195). -/
def execAcnEncPosLe64 (v : Int) (s : State) : StepResult := unlessFaulted s (encPosLe 8 v s)

/-- ACN_DEC_POS_LE64 (R196). -/
def execAcnDecPosLe64 (s : State) : StepResult := unlessFaulted s (decLe 8 Int.ofNat s)

/-- ACN_ENC_TC_BE16 (R197). -/
def execAcnEncTcBe16 (v : Int) (s : State) : StepResult := unlessFaulted s (encTc 16 v s)

/-- ACN_DEC_TC_BE16 (R198). -/
def execAcnDecTcBe16 (s : State) : StepResult := unlessFaulted s (decTc 16 s)

/-- ACN_ENC_TC_BE32 (R199). -/
def execAcnEncTcBe32 (v : Int) (s : State) : StepResult := unlessFaulted s (encTc 32 v s)

/-- ACN_DEC_TC_BE32 (R200). -/
def execAcnDecTcBe32 (s : State) : StepResult := unlessFaulted s (decTc 32 s)

/-- ACN_ENC_TC_BE64 (R201). -/
def execAcnEncTcBe64 (v : Int) (s : State) : StepResult := unlessFaulted s (encTc 64 v s)

/-- ACN_DEC_TC_BE64 (R202). -/
def execAcnDecTcBe64 (s : State) : StepResult := unlessFaulted s (decTc 64 s)

/-- ACN_ENC_TC_LE16 (R203). -/
def execAcnEncTcLe16 (v : Int) (s : State) : StepResult := unlessFaulted s (encTcLe 2 v s)

/-- ACN_DEC_TC_LE16 (R204). -/
def execAcnDecTcLe16 (s : State) : StepResult := unlessFaulted s (decLe 2 (sext 16) s)

/-- ACN_ENC_TC_LE32 (R205). -/
def execAcnEncTcLe32 (v : Int) (s : State) : StepResult := unlessFaulted s (encTcLe 4 v s)

/-- ACN_DEC_TC_LE32 (R206). -/
def execAcnDecTcLe32 (s : State) : StepResult := unlessFaulted s (decLe 4 (sext 32) s)

/-- ACN_ENC_TC_LE64 (R207). -/
def execAcnEncTcLe64 (v : Int) (s : State) : StepResult := unlessFaulted s (encTcLe 8 v s)

/-- ACN_DEC_TC_LE64 (R208). -/
def execAcnDecTcLe64 (s : State) : StepResult := unlessFaulted s (decLe 8 (sext 64) s)

/-- ACN_ENC_LENGTH (R209): ENC_UINT under another name. -/
def execAcnEncLength (n : Nat) (v : Int) (s : State) : StepResult := unlessFaulted s (encWidth n v s)

/-- ACN_DEC_LENGTH (R210): DEC_UINT under another name. -/
def execAcnDecLength (n : Nat) (s : State) : StepResult := unlessFaulted s (decWidth n s)

end Sys2Proof.Machine
end

