-- ==== Sys2Proof/Machine/AcnReal.lean ====
section
/-!
DEFINITION. The ACN IEEE-754 reals (46_acn_real.md): bit patterns in, bit patterns out, by the routines of R270. No bit
is interpreted (R260).
-/

namespace Sys2Proof.Machine

/-- ACN_ENC_REAL32_BE (R262). -/
def execAcnEncReal32Be (v : Int) (s : State) : StepResult := unlessFaulted s (encRealBe 4 v s)

/-- ACN_DEC_REAL32_BE (R263). -/
def execAcnDecReal32Be (s : State) : StepResult := unlessFaulted s (decPos 32 s)

/-- ACN_ENC_REAL32_LE (R264). -/
def execAcnEncReal32Le (v : Int) (s : State) : StepResult := unlessFaulted s (encRealLe 4 v s)

/-- ACN_DEC_REAL32_LE (R265). -/
def execAcnDecReal32Le (s : State) : StepResult := unlessFaulted s (decLe 4 Int.ofNat s)

/-- ACN_ENC_REAL64_BE (R266). -/
def execAcnEncReal64Be (v : Int) (s : State) : StepResult := unlessFaulted s (encRealBe 8 v s)

/-- ACN_DEC_REAL64_BE (R267). -/
def execAcnDecReal64Be (s : State) : StepResult := unlessFaulted s (decPos 64 s)

/-- ACN_ENC_REAL64_LE (R268). -/
def execAcnEncReal64Le (v : Int) (s : State) : StepResult := unlessFaulted s (encRealLe 8 v s)

/-- ACN_DEC_REAL64_LE (R269). -/
def execAcnDecReal64Le (s : State) : StepResult := unlessFaulted s (decLe 8 Int.ofNat s)

end Sys2Proof.Machine
end

