-- ==== Sys2Proof/Machine/AcnVar.lean ====
section
/-!
DEFINITION. The ACN variable-size integers with an embedded 8-bit byte count (44_acn_varsize_int.md).
A success that returns no bytes leaves DOUT empty: DESIGN CHOICE, log entry 21.
-/

namespace Sys2Proof.Machine

/-- ACN_ENC_POS_VAR (R220). -/
def execAcnEncPosVar (v : Int) (s : State) : StepResult :=
  unlessFaulted s <|
  if 2 ^ 64 ≤ v then contractFault s else
  if v < 0 then fail .invalidValue s else
  encCounted (ubytes v.toNat) v.toNat s

/-- ACN_DEC_POS_VAR (R221). -/
def execAcnDecPosVar (s : State) : StepResult :=
  unlessFaulted s <|
  match readCounted s with
  | (.error code, t) => fail code t
  | (.ok (l, u), t) => ok u (8 + 8 * l) [] t

/-- ACN_ENC_TC_VAR (R222). -/
def execAcnEncTcVar (v : Int) (s : State) : StepResult :=
  unlessFaulted s <|
  if ¬ fitsS v 64 then contractFault s else
  encCounted (sbytes v) (toU v (8 * sbytes v)) s

/-- ACN_DEC_TC_VAR (R223): a count of 0 has no sign bit to inspect. -/
def execAcnDecTcVar (s : State) : StepResult :=
  unlessFaulted s <|
  match readCounted s with
  | (.error code, t) => fail code t
  | (.ok (l, u), t) => ok (if l = 0 then 0 else sext (8 * l) u) (8 + 8 * l) [] t

end Sys2Proof.Machine
end

