-- ==== Sys2Proof/Machine/BitBuffer.lean ====
section
/-!
DEFINITION. The BitBuffer commands (40_bitbuffer.md) and the codec's position reset (41_codec_base.md). They fail by
BitStreamError, with nothing changed (R124), except BB_RESET_POS, which cannot fail.
-/

namespace Sys2Proof.Machine

/-- BB_WRITE_BITS (R110). -/
def execBbWriteBits (n : Nat) (v : Int) (s : State) : StepResult := unlessFaulted s (bufWrite n v s)

/-- BB_READ_BITS (R111). -/
def execBbReadBits (n : Nat) (s : State) : StepResult := unlessFaulted s (bufRead n s)

/-- BB_WRITE_BIT (R112): BB_WRITE_BITS with the count 1. -/
def execBbWriteBit (v : Int) (s : State) : StepResult := unlessFaulted s (bufWrite 1 v s)

/-- BB_READ_BIT (R113). -/
def execBbReadBit (s : State) : StepResult := unlessFaulted s (bufRead 1 s)

/-- BB_WRITE_BYTE (R114). -/
def execBbWriteByte (v : Int) (s : State) : StepResult := unlessFaulted s (bufWrite 8 v s)

/-- BB_READ_BYTE (R115). -/
def execBbReadByte (s : State) : StepResult := unlessFaulted s (bufRead 8 s)

/-- BB_WRITE_BYTES (R116): the whole block is checked before the first byte is written. -/
def execBbWriteBytes (din : List Byte) (s : State) : StepResult :=
  unlessFaulted s <|
  if ¬ room (8 * din.length) s then bitStreamError s else
  ok 0 (8 * din.length) [] (writeBytes din s)

/-- BB_READ_BYTES (R117). -/
def execBbReadBytes (k : Nat) (s : State) : StepResult :=
  unlessFaulted s <|
  if ¬ room (8 * k) s then bitStreamError s else
  let r := readBytes k s
  ok 0 (8 * k) r.1 r.2

/-- BB_BITS_REMAINING (R118). -/
def execBbBitsRemaining (s : State) : StepResult :=
  unlessFaulted s (ok ((s.cap : Int) - s.pos) 0 [] s)

/-- BB_IS_AT_END (R119). -/
def execBbIsAtEnd (s : State) : StepResult :=
  unlessFaulted s (ok (if s.pos = s.cap then 1 else 0) 0 [] s)

/-- BB_SET_POS (R123). -/
def execBbSetPos (p : Nat) (s : State) : StepResult :=
  unlessFaulted s <|
  if s.cap < p then bitStreamError s else ok 0 0 [] (moveTo p s)

/-- BB_ALIGN_WR (R120): the gap is written with zero bits. -/
def execBbAlignWr (s : State) : StepResult :=
  unlessFaulted s <|
  if ¬ room (pad Config.alignByte s.pos) s then bitStreamError s else
  ok 0 (pad Config.alignByte s.pos) [] (writeField (pad Config.alignByte s.pos) 0 s)

/-- BB_ALIGN_RD (R121): the gap is skipped unseen. -/
def execBbAlignRd (s : State) : StepResult :=
  unlessFaulted s <|
  if ¬ room (pad Config.alignByte s.pos) s then bitStreamError s else
  ok 0 (pad Config.alignByte s.pos) [] (skipBits (pad Config.alignByte s.pos) s)

/-- BB_GET_DATA (R122): the used prefix, in whole bytes. -/
def execBbGetData (s : State) : StepResult :=
  unlessFaulted s (ok 0 0 ((List.range (bytesFor s.used)).map (readByte s.buf)) s)

/-- BB_RESET_POS (41_codec_base.md R141). -/
def execBbResetPos (s : State) : StepResult := unlessFaulted s (ok 0 0 [] (moveTo 0 s))

end Sys2Proof.Machine
end

