-- ==== Sys2Proof/Machine/Generic.lean ====
section
/-!
DEFINITION. The generic Encoder / Decoder commands (42_generic_codec.md). The order of their checks is R166's.
A success that returns no bytes leaves DOUT empty: DESIGN CHOICE, log entry 21.
-/

namespace Sys2Proof.Machine

/-- ENC_INT (R150): offset encoding. `size` is accepted and ignored. -/
def execEncInt (v lo hi : Int) (_size : Option Nat) (s : State) : StepResult :=
  unlessFaulted s <|
  if hi < lo then contractFault s else
  if 2 ^ 64 ≤ hi - lo then contractFault s else
  if v < lo ∨ hi < v then fail .constraintViolation s else
  let b := bitLength (hi - lo).toNat
  if ¬ room b s then fail .insufficientData s else
  ok 0 b [] (writeField b (v - lo).toNat s)

/-- DEC_INT with both bounds (R151, range mode). -/
def decIntRange (lo hi : Int) (s : State) : StepResult :=
  if hi < lo then contractFault s else
  if 2 ^ 64 ≤ hi - lo then contractFault s else
  let b := bitLength (hi - lo).toNat
  if ¬ room b s then fail .insufficientData s else
  let r := readField b s
  if hi < (r.1 : Int) + lo then fail .constraintViolation r.2 else
  ok ((r.1 : Int) + lo) b [] r.2

/-- DEC_INT with a size and at most one bound (R151, size mode): no offset; the bound, if any, is checked. -/
def decIntSized (lo hi : Option Int) (n : Nat) (s : State) : StepResult :=
  if Config.maxField < n then contractFault s else
  if ¬ room n s then fail .insufficientData s else
  let r := readField n s
  if lo.any (fun l => decide ((r.1 : Int) < l)) then fail .constraintViolation r.2 else
  if hi.any (fun h => decide (h < (r.1 : Int))) then fail .constraintViolation r.2 else
  ok r.1 n [] r.2

/-- DEC_INT (R151). -/
def execDecInt (lo hi : Option Int) (size : Option Nat) (s : State) : StepResult :=
  unlessFaulted s <|
  match lo, hi, size with
  | some l, some h, _ => decIntRange l h s
  | none, _, some n => decIntSized lo hi n s
  | some _, none, some n => decIntSized lo hi n s
  | none, _, none => fail .invalidValue s
  | some _, none, none => fail .invalidValue s

/-- ENC_UINT (R152). -/
def execEncUint (n : Nat) (v : Int) (s : State) : StepResult := unlessFaulted s (encWidth n v s)

/-- DEC_UINT (R153). -/
def execDecUint (n : Nat) (s : State) : StepResult := unlessFaulted s (decWidth n s)

/-- DEC_ENUM (R154): `k` candidates, the answer is the index. -/
def execDecEnum (k : Nat) (s : State) : StepResult :=
  unlessFaulted s <|
  if k = 0 then contractFault s else
  let b := bitLength (k - 1)
  if ¬ room b s then fail .insufficientData s else
  let r := readField b s
  if k ≤ r.1 then fail .constraintViolation r.2 else
  ok r.1 b [] r.2

/-- ENC_NULL (R155). -/
def execEncNull (s : State) : StepResult := unlessFaulted s (ok 0 0 [] s)

/-- DEC_NULL (R156). -/
def execDecNull (s : State) : StepResult := unlessFaulted s (ok 0 0 [] s)

/-- ENC_ALIGN_BYTE (R157). -/
def execEncAlignByte (s : State) : StepResult := unlessFaulted s (encAlign Config.alignByte s)

/-- ENC_ALIGN_WORD (R158). -/
def execEncAlignWord (s : State) : StepResult := unlessFaulted s (encAlign Config.alignWord s)

/-- ENC_ALIGN_DWORD (R159). -/
def execEncAlignDword (s : State) : StepResult := unlessFaulted s (encAlign Config.alignDword s)

/-- DEC_ALIGN_BYTE (R160). -/
def execDecAlignByte (s : State) : StepResult := unlessFaulted s (decAlign Config.alignByte s)

/-- DEC_ALIGN_WORD (R161). -/
def execDecAlignWord (s : State) : StepResult := unlessFaulted s (decAlign Config.alignWord s)

/-- DEC_ALIGN_DWORD (R162). -/
def execDecAlignDword (s : State) : StepResult := unlessFaulted s (decAlign Config.alignDword s)

/-- ENC_APPEND_BYTES (R163). -/
def execEncAppendBytes (din : List Byte) (s : State) : StepResult := unlessFaulted s (encBytes din s)

/-- ENC_OCTETS_NOLEN (R164): exactly as ENC_APPEND_BYTES. -/
def execEncOctetsNolen (din : List Byte) (s : State) : StepResult := unlessFaulted s (encBytes din s)

/-- DEC_OCTETS_NOLEN (R165). -/
def execDecOctetsNolen (k : Nat) (s : State) : StepResult :=
  unlessFaulted s <|
  if ¬ room (8 * k) s then fail .insufficientData s else
  let r := readBytes k s
  ok 0 (8 * k) r.1 r.2

end Sys2Proof.Machine
end

