-- ==== Sys2Proof/Machine/Stub.lean ====
section
/-!
DEFINITION. The reserved string and ASCII-integer stubs (47_acn_string_stubs.md) and the illegal commands
(30_encoding.md R86): both answer UNSUPPORTED_OPERATION and change no state.
-/

namespace Sys2Proof.Machine

/-- ACN_STUB (R280): the sixteen opcodes behave alike. -/
def execAcnStub (_which : Nat) (s : State) : StepResult := unlessFaulted s (fail .unsupportedOperation s)

/-- A command whose header no row of the opcode table selects (30_encoding.md R86). It is no constructor of `Instr`:
the step runs it where the decoder rejects the header. -/
def execIllegal (s : State) : StepResult := unlessFaulted s (fail .unsupportedOperation s)

end Sys2Proof.Machine
end

