-- ==== Sys2Proof/Machine/Dispatch.lean ====
section
/-!
DEFINITION. The meaning of each command: one arm per constructor, one call per arm.
-/

namespace Sys2Proof.Machine

def exec (i : Instr) (s : State) : Host.Outcome State Fault Refusal :=
  match i with
  -- BitBuffer commands (40_bitbuffer.md) and the position reset (41_codec_base.md)
  | .bbWriteBits n v => Sys2Proof.Machine.execBbWriteBits n v s
  | .bbReadBits n => Sys2Proof.Machine.execBbReadBits n s
  | .bbWriteBit v => Sys2Proof.Machine.execBbWriteBit v s
  | .bbReadBit => Sys2Proof.Machine.execBbReadBit s
  | .bbWriteByte v => Sys2Proof.Machine.execBbWriteByte v s
  | .bbReadByte => Sys2Proof.Machine.execBbReadByte s
  | .bbWriteBytes din => Sys2Proof.Machine.execBbWriteBytes din s
  | .bbReadBytes k => Sys2Proof.Machine.execBbReadBytes k s
  | .bbBitsRemaining => Sys2Proof.Machine.execBbBitsRemaining s
  | .bbIsAtEnd => Sys2Proof.Machine.execBbIsAtEnd s
  | .bbSetPos p => Sys2Proof.Machine.execBbSetPos p s
  | .bbAlignWr => Sys2Proof.Machine.execBbAlignWr s
  | .bbAlignRd => Sys2Proof.Machine.execBbAlignRd s
  | .bbGetData => Sys2Proof.Machine.execBbGetData s
  | .bbResetPos => Sys2Proof.Machine.execBbResetPos s
  -- Generic Encoder / Decoder commands (42_generic_codec.md)
  | .encInt v lo hi size => Sys2Proof.Machine.execEncInt v lo hi size s
  | .decInt lo hi size => Sys2Proof.Machine.execDecInt lo hi size s
  | .encUint n v => Sys2Proof.Machine.execEncUint n v s
  | .decUint n => Sys2Proof.Machine.execDecUint n s
  | .decEnum k => Sys2Proof.Machine.execDecEnum k s
  | .encNull => Sys2Proof.Machine.execEncNull s
  | .decNull => Sys2Proof.Machine.execDecNull s
  | .encAlignByte => Sys2Proof.Machine.execEncAlignByte s
  | .encAlignWord => Sys2Proof.Machine.execEncAlignWord s
  | .encAlignDword => Sys2Proof.Machine.execEncAlignDword s
  | .decAlignByte => Sys2Proof.Machine.execDecAlignByte s
  | .decAlignWord => Sys2Proof.Machine.execDecAlignWord s
  | .decAlignDword => Sys2Proof.Machine.execDecAlignDword s
  | .encAppendBytes din => Sys2Proof.Machine.execEncAppendBytes din s
  | .encOctetsNolen din => Sys2Proof.Machine.execEncOctetsNolen din s
  | .decOctetsNolen k => Sys2Proof.Machine.execDecOctetsNolen k s
  -- ACN constant-size and length-embedded integers, length fields (43_acn_fixed_int.md, 44_acn_varsize_int.md)
  | .acnEncPosConst n v => Sys2Proof.Machine.execAcnEncPosConst n v s
  | .acnDecPosConst n => Sys2Proof.Machine.execAcnDecPosConst n s
  | .acnEncTcConst n v => Sys2Proof.Machine.execAcnEncTcConst n v s
  | .acnDecTcConst n => Sys2Proof.Machine.execAcnDecTcConst n s
  | .acnEncPosVar v => Sys2Proof.Machine.execAcnEncPosVar v s
  | .acnDecPosVar => Sys2Proof.Machine.execAcnDecPosVar s
  | .acnEncTcVar v => Sys2Proof.Machine.execAcnEncTcVar v s
  | .acnDecTcVar => Sys2Proof.Machine.execAcnDecTcVar s
  | .acnEncLength n v => Sys2Proof.Machine.execAcnEncLength n v s
  | .acnDecLength n => Sys2Proof.Machine.execAcnDecLength n s
  -- ACN positive integers of 16, 32, 64 bits (43_acn_fixed_int.md)
  | .acnEncPosBe16 v => Sys2Proof.Machine.execAcnEncPosBe16 v s
  | .acnDecPosBe16 => Sys2Proof.Machine.execAcnDecPosBe16 s
  | .acnEncPosBe32 v => Sys2Proof.Machine.execAcnEncPosBe32 v s
  | .acnDecPosBe32 => Sys2Proof.Machine.execAcnDecPosBe32 s
  | .acnEncPosBe64 v => Sys2Proof.Machine.execAcnEncPosBe64 v s
  | .acnDecPosBe64 => Sys2Proof.Machine.execAcnDecPosBe64 s
  | .acnEncPosLe16 v => Sys2Proof.Machine.execAcnEncPosLe16 v s
  | .acnDecPosLe16 => Sys2Proof.Machine.execAcnDecPosLe16 s
  | .acnEncPosLe32 v => Sys2Proof.Machine.execAcnEncPosLe32 v s
  | .acnDecPosLe32 => Sys2Proof.Machine.execAcnDecPosLe32 s
  | .acnEncPosLe64 v => Sys2Proof.Machine.execAcnEncPosLe64 v s
  | .acnDecPosLe64 => Sys2Proof.Machine.execAcnDecPosLe64 s
  -- ACN two's-complement integers of 16, 32, 64 bits (43_acn_fixed_int.md)
  | .acnEncTcBe16 v => Sys2Proof.Machine.execAcnEncTcBe16 v s
  | .acnDecTcBe16 => Sys2Proof.Machine.execAcnDecTcBe16 s
  | .acnEncTcBe32 v => Sys2Proof.Machine.execAcnEncTcBe32 v s
  | .acnDecTcBe32 => Sys2Proof.Machine.execAcnDecTcBe32 s
  | .acnEncTcBe64 v => Sys2Proof.Machine.execAcnEncTcBe64 v s
  | .acnDecTcBe64 => Sys2Proof.Machine.execAcnDecTcBe64 s
  | .acnEncTcLe16 v => Sys2Proof.Machine.execAcnEncTcLe16 v s
  | .acnDecTcLe16 => Sys2Proof.Machine.execAcnDecTcLe16 s
  | .acnEncTcLe32 v => Sys2Proof.Machine.execAcnEncTcLe32 v s
  | .acnDecTcLe32 => Sys2Proof.Machine.execAcnDecTcLe32 s
  | .acnEncTcLe64 v => Sys2Proof.Machine.execAcnEncTcLe64 v s
  | .acnDecTcLe64 => Sys2Proof.Machine.execAcnDecTcLe64 s
  -- ACN BCD (45_acn_bcd.md)
  | .acnEncBcdConst n v => Sys2Proof.Machine.execAcnEncBcdConst n v s
  | .acnDecBcdConst n => Sys2Proof.Machine.execAcnDecBcdConst n s
  | .acnEncBcdVar v => Sys2Proof.Machine.execAcnEncBcdVar v s
  | .acnDecBcdVar => Sys2Proof.Machine.execAcnDecBcdVar s
  | .acnEncBcdNt v => Sys2Proof.Machine.execAcnEncBcdNt v s
  | .acnDecBcdNt => Sys2Proof.Machine.execAcnDecBcdNt s
  -- ACN IEEE-754 reals (46_acn_real.md)
  | .acnEncReal32Be v => Sys2Proof.Machine.execAcnEncReal32Be v s
  | .acnDecReal32Be => Sys2Proof.Machine.execAcnDecReal32Be s
  | .acnEncReal32Le v => Sys2Proof.Machine.execAcnEncReal32Le v s
  | .acnDecReal32Le => Sys2Proof.Machine.execAcnDecReal32Le s
  | .acnEncReal64Be v => Sys2Proof.Machine.execAcnEncReal64Be v s
  | .acnDecReal64Be => Sys2Proof.Machine.execAcnDecReal64Be s
  | .acnEncReal64Le v => Sys2Proof.Machine.execAcnEncReal64Le v s
  | .acnDecReal64Le => Sys2Proof.Machine.execAcnDecReal64Le s
  -- Reserved stubs (47_acn_string_stubs.md)
  | .acnStub which => Sys2Proof.Machine.execAcnStub which s

end Sys2Proof.Machine
end

