-- ==== Sys2Proof/Machine/HostActions.lean ====
section
/-!
DEFINITION. What the host may do besides presenting a command (60_exceptions.md R312): INIT (70_reset_and_hazards.md
R320 to R322), COPY (41_codec_base.md R140) and a register read (10_state.md R30).
-/

namespace Sys2Proof.Machine

/-- `BUF[a + i] <- bytes[i]`. -/
def loadBytes : Nat → List Byte → Memory → Memory
  | _, [], m => m
  | a, b :: bs, m => loadBytes (a + 1) bs (writeByte m a b)

/-- BUF after INIT: zeros, the data over them, and the bits from CAP on cleared (R320). -/
def initBuffer (maxBits : Nat) (initBytes : List Byte) : Memory :=
  memWrite (loadBytes 0 initBytes []) maxBits (8 * bytesFor maxBits - maxBits) 0

/-- INIT refuses a capacity of 0 or above `2^32 − 1`, and data longer than the buffer (R320, R322). -/
def initRefused (maxBits : Nat) (initBytes : List Byte) : Bool :=
  decide (maxBits < 1) || decide (Config.capMax < maxBits) ||
    decide (8 * bytesFor maxBits < 8 * initBytes.length)

/-- INIT (R320): a fresh instance, or none. The result registers are unspecified until the first command ends, so they
are drawn as free value `ix`; `pending` is the host's, not the instance's. -/
def initInstance (ix maxBits : Nat) (initBytes : List Byte) (pending : List HostAction) : Option State :=
  if initRefused maxBits initBytes then none
  else some <| forgetResult
    { cap := maxBits
      buf := initBuffer maxBits initBytes
      pos := 0
      used := min (8 * initBytes.length) maxBits
      fault := false
      success := false
      err := .success
      val := 0
      bits := 0
      dout := []
      pending := pending
      freeIx := ix }

/-- INIT on an existing instance replaces it; a refused INIT leaves it as it was (R320, R322). -/
def reinit (maxBits : Nat) (initBytes : List Byte) (s : State) : State :=
  (initInstance s.freeIx maxBits initBytes s.pending).getD s

/-- COPY (41_codec_base.md R140): an equal instance, its result registers unspecified, nothing pending. `ix` is where
the copy's draws of free values start; nothing ties them to the original's. -/
def copyInstance (ix : Nat) (s : State) : State := forgetResult { s with pending := [], freeIx := ix }

/-- A register read (10_state.md R30): registers 0 to 6, no other number is a register. Reading changes nothing. -/
def readRegister (number : Nat) (s : State) : Option Int :=
  match number with
  | 0 => some s.cap
  | 1 => some s.pos
  | 2 => some s.used
  | 3 => some s.fault.toNat
  | 4 => some (s.success.toNat + 2 * errNumeral s.err : Nat)
  | 5 => some s.val
  | 6 => some s.bits
  | _ => none

end Sys2Proof.Machine
end

