-- ==== Sys2Proof/Machine/Step.lean ====
section
/-!
DEFINITION. One step: the oldest host action, run to completion (20_memory.md R60, R64).
-/

namespace Sys2Proof.Machine

/-- A presented bundle: the command it decodes to, or an illegal command (30_encoding.md R86). -/
def present (b : Ports) (s : State) : StepResult :=
  match decode b with
  | .ok i => exec i s
  | .error .illegalHeader => execIllegal s
  | .error .dinLength => .refused .dinLength

/-- One step of the block. With nothing pending it holds its state (60_exceptions.md R311). -/
def step (s : State) : Host.Outcome State Fault Refusal :=
  match takeAction s with
  | none => .next s
  | some (.command b, t) => present b t
  | some (.init maxBits initBytes, t) => .next (reinit maxBits initBytes t)

/-- `s` with the header `w` presented as the next command, every other port 0 (log entry 5). -/
def State.withFetchWord (s : State) (nbits w : Nat) : State :=
  { s with pending := .command (tablePorts nbits w) :: s.pending }

end Sys2Proof.Machine
end

