-- ==== Sys2Proof/Safety.lean ====
section
/-!
DEFINITION. The terms the claims are stated in: the invariant of 10_state.md R26, the complete list of ContractFault
causes (60_exceptions.md R297), what it means that a command wrote or read at the cursor and reported a result, and
the encoder / decoder pairs of 42_generic_codec.md R168.
-/

namespace Sys2Proof.Machine

/-! ### The state -/

/-- The invariant of 10_state.md R26, with the canonical form of the buffer. Bits from CAP on are 0 because CAP is not
below USED. -/
structure BlockInv (s : State) : Prop where
  cap_pos : 1 ≤ s.cap
  cap_le : s.cap ≤ Config.capMax
  pos_le : s.pos ≤ s.cap
  used_le : s.used ≤ s.cap
  buf_wf : s.buf.wf = true
  zero_beyond : ∀ q, s.used ≤ q → bitAt s.buf q = false

/-- An instance that runs commands: FAULT is 0, and the buffer is in its canonical form. -/
def Ready (s : State) : Prop := s.fault = false ∧ s.buf.wf = true

/-- Everything but the result registers and the model's draw counter is equal. -/
def SameInstance (s t : State) : Prop :=
  t.cap = s.cap ∧ t.buf = s.buf ∧ t.pos = s.pos ∧ t.used = s.used ∧ t.fault = s.fault ∧ t.pending = s.pending

/-- Alike but for the result registers, the draw counter and what is pending: what a COPY is (41_codec_base.md R140). -/
def SameBlock (s t : State) : Prop :=
  t.cap = s.cap ∧ t.buf = s.buf ∧ t.pos = s.pos ∧ t.used = s.used ∧ t.fault = s.fault

/-! ### What a command did -/

/-- `t` is `s` after a write of `n` bits at the cursor: the cursor and USED moved, every bit and every byte outside the
written ones reads as before, the rest of the instance is the same. -/
structure WritesAt (s t : State) (n : Nat) : Prop where
  cap : t.cap = s.cap
  fault : t.fault = s.fault
  pending : t.pending = s.pending
  pos : t.pos = s.pos + n
  used : t.used = if 0 < n then max s.used (s.pos + n) else s.used
  bits_outside : ∀ q, q < s.pos ∨ s.pos + n ≤ q → bitAt t.buf q = bitAt s.buf q
  bytes_outside : ∀ a, 8 * a + 8 ≤ s.pos ∨ s.pos + n ≤ 8 * a → readByte t.buf a = readByte s.buf a

/-- `t` is `s` with the cursor moved over `n` bits and nothing else of the instance changed: all of BUF is as before. -/
structure ReadsAt (s t : State) (n : Nat) : Prop where
  cap : t.cap = s.cap
  buf : t.buf = s.buf
  used : t.used = s.used
  fault : t.fault = s.fault
  pending : t.pending = s.pending
  pos : t.pos = s.pos + n

/-- The result record `Ok(val, bits, data)` (10_state.md R28). -/
def ReportsOk (t : State) (val : Int) (bits : Nat) (data : List Byte) : Prop :=
  t.success = true ∧ t.err = .success ∧ t.val = val ∧ t.bits = bits ∧ t.dout = data

/-- The result record `Err(code)`; nothing is said of the payload registers (10_state.md R28). -/
def ReportsErr (t : State) (code : ErrCode) : Prop := t.success = false ∧ t.err = code

/-- `Ok(val, bits)` of a codec command that returns no bytes (42_generic_codec.md R166). The spec does not say what DOUT
holds then, and neither does this; what the model does is in a statement of its own (log entry 21). -/
def Reports (t : State) (val : Int) (bits : Nat) : Prop :=
  t.success = true ∧ t.err = .success ∧ t.val = val ∧ t.bits = bits

/-- The command ends in `Ok(0, n)`, with DOUT empty, after writing `k` fields of `w` bits at the cursor, field `i`
holding `f i`. -/
def WritesRun (r : StepResult) (s : State) (w k : Nat) (f : Nat → Nat) : Prop :=
  ∃ t, r = .next t ∧ WritesAt s t (w * k) ∧ (∀ i < k, memRead t.buf (s.pos + w * i) w = f i) ∧
    ReportsOk t 0 (w * k) []

/-- The command ends in `Ok(0, n)`, with DOUT empty, after writing the one field `u` of `n` bits at the cursor. -/
def WritesField (r : StepResult) (s : State) (n u : Nat) : Prop :=
  ∃ t, r = .next t ∧ WritesAt s t n ∧ memRead t.buf s.pos n = u ∧ ReportsOk t 0 n []

/-- The command ends in `Ok(val, n, data)` after moving the cursor over `n` bits. -/
def ReadsTo (r : StepResult) (s : State) (n : Nat) (val : Int) (data : List Byte) : Prop :=
  ∃ t, r = .next t ∧ ReadsAt s t n ∧ ReportsOk t val n data

/-- A codec command's `WritesRun`, which says nothing of DOUT (`Reports`). -/
def EncodesRun (r : StepResult) (s : State) (w k : Nat) (f : Nat → Nat) : Prop :=
  ∃ t, r = .next t ∧ WritesAt s t (w * k) ∧ (∀ i < k, memRead t.buf (s.pos + w * i) w = f i) ∧ Reports t 0 (w * k)

/-- A codec command's `WritesField`, which says nothing of DOUT (`Reports`). -/
def EncodesField (r : StepResult) (s : State) (n u : Nat) : Prop :=
  ∃ t, r = .next t ∧ WritesAt s t n ∧ memRead t.buf s.pos n = u ∧ Reports t 0 n

/-- The codec command ends in `Ok(val, n)` after moving the cursor over `n` bits (`Reports`). -/
def DecodesTo (r : StepResult) (s : State) (n : Nat) (val : Int) : Prop :=
  ∃ t, r = .next t ∧ ReadsAt s t n ∧ Reports t val n

/-- The command ends in `Ok(val, 0, data)` and moves nothing. -/
def Answers (r : StepResult) (s : State) (val : Int) (data : List Byte) : Prop := ReadsTo r s 0 val data

/-- The command ends in `Err(code)` with the cursor `n` bits further and nothing else changed. -/
def FailsAfter (r : StepResult) (s : State) (n : Nat) (code : ErrCode) : Prop :=
  ∃ t, r = .next t ∧ ReadsAt s t n ∧ ReportsErr t code

/-- The command ends in `Err(code)` with nothing changed. -/
def FailsWith (r : StepResult) (s : State) (code : ErrCode) : Prop := FailsAfter r s 0 code

/-- The command raises ContractFault: the fault outcome, FAULT 1, the rest of the instance as before
(60_exceptions.md R297). -/
def RaisesContractFault (r : StepResult) (s : State) : Prop :=
  ∃ t, r = .fault (.contractFault t) ∧ t.fault = true ∧ t.cap = s.cap ∧ t.buf = s.buf ∧ t.pos = s.pos ∧
    t.used = s.used ∧ t.pending = s.pending

/-- The codec command ends in `Ok(0, 8 + n)` after writing an 8-bit count at the cursor and behind it `k` fields of `w` bits,
`n = w · k`, field `i` holding `f i`. -/
def WritesCounted (r : StepResult) (s : State) (count w k : Nat) (f : Nat → Nat) : Prop :=
  ∃ t, r = .next t ∧ WritesAt s t (8 + w * k) ∧ memRead t.buf s.pos 8 = count ∧
    (∀ i < k, memRead t.buf (s.pos + 8 + w * i) w = f i) ∧ Reports t 0 (8 + w * k)

/-- The codec command ends in `Ok(0, 8 + 8·k)` after writing an 8-bit count `k` at the cursor and behind it the one field `u`
of `8·k` bits (44_acn_varsize_int.md R224). -/
def WritesLengthPrefixed (r : StepResult) (s : State) (k u : Nat) : Prop :=
  ∃ t, r = .next t ∧ WritesAt s t (8 + 8 * k) ∧ memRead t.buf s.pos 8 = k ∧ memRead t.buf (s.pos + 8) (8 * k) = u ∧
    Reports t 0 (8 + 8 * k)

/-- The codec command ends in `Ok(x, n)` after moving the cursor over `n` bits, `x` the value whose `w`-bit
two's-complement field is `u`. -/
def ReadsSigned (r : StepResult) (s : State) (n w u : Nat) : Prop :=
  ∃ x : Int, fitsS x w ∧ x % 2 ^ w = u ∧ DecodesTo r s n x

/-! ### Numbers -/

/-- `b` is the bit length of `x`: the least `k` with `x < 2^k` (00_scope.md R10). -/
def IsBitLength (x : Int) (b : Nat) : Prop := x < 2 ^ b ∧ ∀ k, x < 2 ^ k → b ≤ k

/-- `k` is the least byte count, at least 1, that holds `v` unsigned (44_acn_varsize_int.md R225). -/
def IsByteCount (v : Int) (k : Nat) : Prop := 1 ≤ k ∧ v < 2 ^ (8 * k) ∧ ∀ j, 1 ≤ j → v < 2 ^ (8 * j) → k ≤ j

/-- `k` is the least byte count, at least 1, whose two's-complement range contains `v` (R225). -/
def IsSignedByteCount (v : Int) (k : Nat) : Prop :=
  1 ≤ k ∧ fitsS v (8 * k) ∧ ∀ j, 1 ≤ j → fitsS v (8 * j) → k ≤ j

/-- `d` is the number of decimal digits of `v`, 1 for 0 (00_scope.md R10). -/
def IsDigitCount (v : Int) (d : Nat) : Prop := 1 ≤ d ∧ v < 10 ^ d ∧ ∀ e, 1 ≤ e → v < 10 ^ e → d ≤ e

/-- `g` bits lead from `p` to the next multiple of `a`, 0 bits when `p` is one (00_scope.md R10, `pad`). -/
def IsPadding (a p g : Nat) : Prop := g < a ∧ a ∣ p + g

/-- The byte at bit address `p + 8·i`. -/
def byteAt (m : Memory) (p i : Nat) : Nat := memRead m (p + 8 * i) 8

/-- The nibble at bit address `p + 4·i`. -/
def nibbleAt (m : Memory) (p i : Nat) : Nat := memRead m (p + 4 * i) 4

/-- The `k` bytes from `p` on as an integer, least significant byte first (43_acn_fixed_int.md R180). -/
def littleEndianAt (m : Memory) (p k : Nat) : Nat := ∑ i ∈ Finset.range k, byteAt m p i * 256 ^ i

/-- The `c` nibbles from `p` on as a decimal number, most significant digit first (45_acn_bcd.md R240). -/
def decimalAt (m : Memory) (p c : Nat) : Nat := ∑ i ∈ Finset.range c, nibbleAt m p i * 10 ^ (c - 1 - i)

/-! ### Classes of commands -/

/-- The complete list of ContractFault causes but FAULT itself (60_exceptions.md R297). -/
def ContractCause : Instr → Prop
  | .encInt _ lo hi _ => hi < lo ∨ 2 ^ 64 ≤ hi - lo
  | .decInt (some lo) (some hi) _ => hi < lo ∨ 2 ^ 64 ≤ hi - lo
  | .decInt (some _) none (some n) | .decInt none _ (some n) => 64 < n
  | .encUint n _ | .decUint n | .acnEncLength n _ | .acnDecLength n => 64 < n
  | .decEnum k => k = 0
  | .acnEncPosConst n _ | .acnDecPosConst n | .acnEncTcConst n _ | .acnDecTcConst n => n < 1 ∨ 64 < n
  | .acnEncPosVar v => 2 ^ 64 ≤ v
  | .acnEncTcVar v => ¬ fitsS v 64
  | .acnEncBcdConst n v => (n < 1 ∨ 20 < n) ∨ 2 ^ 64 ≤ v
  | .acnDecBcdConst n => n < 1 ∨ 20 < n
  | .acnEncBcdVar v | .acnEncBcdNt v => 2 ^ 64 ≤ v
  | .acnEncReal32Be v | .acnEncReal32Le v => v < 0 ∨ 2 ^ 32 ≤ v
  | .acnEncReal64Be v | .acnEncReal64Le v => v < 0 ∨ 2 ^ 64 ≤ v
  | _ => False

/-- The commands of the BitBuffer layer, opcodes 0x01 to 0x0E, whose failures are BitStreamErrors (60_exceptions.md
R296). -/
def isBitBuffer : Instr → Bool
  | .bbWriteBits _ _ | .bbReadBits _ | .bbWriteBit _ | .bbReadBit | .bbWriteByte _ | .bbReadByte | .bbWriteBytes _
  | .bbReadBytes _ | .bbBitsRemaining | .bbIsAtEnd | .bbSetPos _ | .bbAlignWr | .bbAlignRd | .bbGetData => true
  | _ => false

/-- The reserved stubs (47_acn_string_stubs.md R280). -/
def isStub : Instr → Bool
  | .acnStub _ => true
  | _ => false

/-- The commands that may write bits into BUF; every other command leaves BUF and USED alone. -/
def mayWrite : Instr → Bool
  | .bbWriteBits _ _ | .bbWriteBit _ | .bbWriteByte _ | .bbWriteBytes _ | .bbAlignWr
  | .encInt _ _ _ _ | .encUint _ _ | .encAlignByte | .encAlignWord | .encAlignDword
  | .encAppendBytes _ | .encOctetsNolen _
  | .acnEncPosConst _ _ | .acnEncTcConst _ _ | .acnEncPosVar _ | .acnEncTcVar _ | .acnEncLength _ _
  | .acnEncPosBe16 _ | .acnEncPosBe32 _ | .acnEncPosBe64 _ | .acnEncPosLe16 _ | .acnEncPosLe32 _ | .acnEncPosLe64 _
  | .acnEncTcBe16 _ | .acnEncTcBe32 _ | .acnEncTcBe64 _ | .acnEncTcLe16 _ | .acnEncTcLe32 _ | .acnEncTcLe64 _
  | .acnEncBcdConst _ _ | .acnEncBcdVar _ | .acnEncBcdNt _
  | .acnEncReal32Be _ | .acnEncReal32Le _ | .acnEncReal64Be _ | .acnEncReal64Le _ => true
  | _ => false

/-- The commands that return bytes in DOUT (10_state.md R28). -/
def returnsBytes : Instr → Bool
  | .bbReadBytes _ | .bbGetData | .decOctetsNolen _ => true
  | _ => false

/-- The two commands that place the cursor (10_state.md R23). -/
def placesCursor : Instr → Bool
  | .bbSetPos _ | .bbResetPos => true
  | _ => false

/-- The decoders that can fail after they have read (the rows of 60_exceptions.md R301 that say "advanced"). -/
def mayFailLate : Instr → Bool
  | .decInt _ _ _ | .decEnum _ | .acnDecPosVar | .acnDecTcVar
  | .acnDecBcdConst _ | .acnDecBcdVar | .acnDecBcdNt => true
  | _ => false

/-- The formats of 30_encoding.md R81. -/
inductive Format where
  | f0 | fn | fv | fvn | fvr | fr | fp | fpd | any
  deriving DecidableEq, Repr

/-- The format of a command (30_encoding.md R84). -/
def formatOf : Instr → Format
  | .bbWriteBits _ _ | .encUint _ _ | .acnEncPosConst _ _ | .acnEncTcConst _ _ | .acnEncLength _ _
  | .acnEncBcdConst _ _ => .fvn
  | .bbReadBits _ | .decUint _ | .acnDecPosConst _ | .acnDecTcConst _ | .acnDecLength _ | .acnDecBcdConst _ => .fn
  | .bbWriteBit _ | .bbWriteByte _ | .acnEncPosVar _ | .acnEncTcVar _
  | .acnEncPosBe16 _ | .acnEncPosBe32 _ | .acnEncPosBe64 _ | .acnEncPosLe16 _ | .acnEncPosLe32 _ | .acnEncPosLe64 _
  | .acnEncTcBe16 _ | .acnEncTcBe32 _ | .acnEncTcBe64 _ | .acnEncTcLe16 _ | .acnEncTcLe32 _ | .acnEncTcLe64 _
  | .acnEncBcdVar _ | .acnEncBcdNt _
  | .acnEncReal32Be _ | .acnEncReal32Le _ | .acnEncReal64Be _ | .acnEncReal64Le _ => .fv
  | .bbWriteBytes _ | .encAppendBytes _ | .encOctetsNolen _ => .fpd
  | .bbReadBytes _ | .bbSetPos _ | .decEnum _ | .decOctetsNolen _ => .fp
  | .encInt _ _ _ _ => .fvr
  | .decInt _ _ _ => .fr
  | .acnStub _ => .any
  | .bbReadBit | .bbReadByte | .bbBitsRemaining | .bbIsAtEnd | .bbAlignWr | .bbAlignRd | .bbGetData | .bbResetPos
  | .encNull | .decNull | .encAlignByte | .encAlignWord | .encAlignDword | .decAlignByte | .decAlignWord
  | .decAlignDword | .acnDecPosVar | .acnDecTcVar
  | .acnDecPosBe16 | .acnDecPosBe32 | .acnDecPosBe64 | .acnDecPosLe16 | .acnDecPosLe32 | .acnDecPosLe64
  | .acnDecTcBe16 | .acnDecTcBe32 | .acnDecTcBe64 | .acnDecTcLe16 | .acnDecTcLe32 | .acnDecTcLe64
  | .acnDecBcdVar | .acnDecBcdNt
  | .acnDecReal32Be | .acnDecReal32Le | .acnDecReal64Be | .acnDecReal64Le => .f0

/-- Two bundles with the same opcode agree on every port and field that a command of the format reads (R81, R82). -/
def PortsAgree (f : Format) (b b' : Ports) : Prop :=
  match f with
  | .f0 | .any => True
  | .fn => nField b'.hdr = nField b.hdr
  | .fv => b'.v = b.v
  | .fvn => nField b'.hdr = nField b.hdr ∧ b'.v = b.v
  | .fvr => b'.v = b.v ∧ b'.lo = b.lo ∧ b'.hi = b.hi ∧ hasN b'.hdr = hasN b.hdr ∧
      (hasN b.hdr = true → nField b'.hdr = nField b.hdr)
  | .fr => hasLo b'.hdr = hasLo b.hdr ∧ hasHi b'.hdr = hasHi b.hdr ∧ hasN b'.hdr = hasN b.hdr ∧
      (hasLo b.hdr = true → b'.lo = b.lo) ∧ (hasHi b.hdr = true → b'.hi = b.hi) ∧
      (hasN b.hdr = true → nField b'.hdr = nField b.hdr)
  | .fp => b'.p = b.p
  | .fpd => b'.p = b.p ∧ b'.din = b.din

/-- The opcodes no row of the table selects (30_encoding.md R86). -/
def Unassigned (op : Nat) : Prop :=
  op = 0x00 ∨ (0x2A ≤ op ∧ op ≤ 0x2F) ∨ (0x3C ≤ op ∧ op ≤ 0x3F) ∨ (0x4C ≤ op ∧ op ≤ 0x4F) ∨
    (0x56 ≤ op ∧ op ≤ 0x5F) ∨ (0x68 ≤ op ∧ op ≤ 0x6F) ∨ 0x80 ≤ op

/-! ### Encoder / decoder pairs -/

/-- The decoder an encoder is paired with, with the same parameters (42_generic_codec.md R168). -/
def pairedDecoder : Instr → Option Instr
  | .encInt _ lo hi _ => some (.decInt (some lo) (some hi) none)
  | .encUint n _ => some (.decUint n)
  | .encNull => some .decNull
  | .encAlignByte => some .decAlignByte
  | .encAlignWord => some .decAlignWord
  | .encAlignDword => some .decAlignDword
  | .encAppendBytes din | .encOctetsNolen din => some (.decOctetsNolen din.length)
  | .acnEncPosConst n _ => some (.acnDecPosConst n)
  | .acnEncTcConst n _ => some (.acnDecTcConst n)
  | .acnEncPosVar _ => some .acnDecPosVar
  | .acnEncTcVar _ => some .acnDecTcVar
  | .acnEncLength n _ => some (.acnDecLength n)
  | .acnEncPosBe16 _ => some .acnDecPosBe16
  | .acnEncPosBe32 _ => some .acnDecPosBe32
  | .acnEncPosBe64 _ => some .acnDecPosBe64
  | .acnEncPosLe16 _ => some .acnDecPosLe16
  | .acnEncPosLe32 _ => some .acnDecPosLe32
  | .acnEncPosLe64 _ => some .acnDecPosLe64
  | .acnEncTcBe16 _ => some .acnDecTcBe16
  | .acnEncTcBe32 _ => some .acnDecTcBe32
  | .acnEncTcBe64 _ => some .acnDecTcBe64
  | .acnEncTcLe16 _ => some .acnDecTcLe16
  | .acnEncTcLe32 _ => some .acnDecTcLe32
  | .acnEncTcLe64 _ => some .acnDecTcLe64
  | .acnEncBcdConst n _ => some (.acnDecBcdConst n)
  | .acnEncBcdVar _ => some .acnDecBcdVar
  | .acnEncBcdNt _ => some .acnDecBcdNt
  | .acnEncReal32Be _ => some .acnDecReal32Be
  | .acnEncReal32Le _ => some .acnDecReal32Le
  | .acnEncReal64Be _ => some .acnDecReal64Be
  | .acnEncReal64Le _ => some .acnDecReal64Le
  | _ => none

/-- The value an encoder encodes, which its decoder must return in VAL; 0 where the pair carries none. -/
def encodedValue : Instr → Int
  | .encInt v _ _ _ | .encUint _ v | .acnEncPosConst _ v | .acnEncTcConst _ v | .acnEncPosVar v | .acnEncTcVar v
  | .acnEncLength _ v
  | .acnEncPosBe16 v | .acnEncPosBe32 v | .acnEncPosBe64 v | .acnEncPosLe16 v | .acnEncPosLe32 v | .acnEncPosLe64 v
  | .acnEncTcBe16 v | .acnEncTcBe32 v | .acnEncTcBe64 v | .acnEncTcLe16 v | .acnEncTcLe32 v | .acnEncTcLe64 v
  | .acnEncBcdConst _ v | .acnEncBcdVar v | .acnEncBcdNt v
  | .acnEncReal32Be v | .acnEncReal32Le v | .acnEncReal64Be v | .acnEncReal64Le v => v
  | _ => 0

/-- The bytes an encoder encodes, which its decoder must return in DOUT. -/
def encodedBytes : Instr → List Byte
  | .encAppendBytes din | .encOctetsNolen din => din
  | _ => []

/-- Commands in order, as long as each succeeds: the final state. -/
def runOk : List Instr → State → Option State
  | [], s => some s
  | i :: is, s =>
    match exec i s with
    | .next t => if t.success then runOk is t else none
    | .fault _ => none
    | .refused _ => none

/-- Commands in order, as long as each succeeds: what each returned in VAL and DOUT, and the final state. -/
def resultsOk : List Instr → State → Option (List (Int × List Byte) × State)
  | [], s => some ([], s)
  | i :: is, s =>
    match exec i s with
    | .next t => if t.success then (resultsOk is t).map fun r => ((t.val, t.dout) :: r.1, r.2) else none
    | .fault _ => none
    | .refused _ => none

/-- Commands in order, whatever their results, until one stops the run: the last outcome. -/
def runCommands : List Instr → State → StepResult
  | [], s => .next s
  | i :: is, s =>
    match exec i s with
    | .next t => runCommands is t
    | .fault f => .fault f
    | .refused q => .refused q

/-- Two outcomes of the same command on two copies: both stop, or both go on with equal blocks and, on success, equal
results. -/
def SameOutcome (r r' : StepResult) : Prop :=
  match r, r' with
  | .next t, .next t' =>
    SameBlock t t' ∧ t'.success = t.success ∧ t'.err = t.err ∧
      (t.success = true → t'.val = t.val ∧ t'.bits = t.bits ∧ t'.dout = t.dout)
  | .fault (.contractFault t), .fault (.contractFault t') => SameBlock t t'
  | .refused q, .refused q' => q = q'
  | _, _ => False

end Sys2Proof.Machine
end

