-- ==== Sys2Proof/Certificates/Slice0/Obligations.lean ====
section
/-!
DEFINITION. The statements for the provers, in the terms of Sys2Proof/Safety.lean. A statement about a command
quantifies over every operand, so operands that no port can carry are covered; a hypothesis is about the state and
the operands alone.
-/

open Sys2Proof Sys2Proof.Machine

/-! ### Reset, INIT and the invariant -/

/-- What reset holds: R321's values for an instance made by INIT with DEFAULT_CAP and no data. That reset is that
INIT is the model's choice (log entry 1). -/
def Obligations.ResetHoldsInitialValues : Prop :=
  State.reset.cap = 8388608 ∧ (∀ a, readByte State.reset.buf a = 0) ∧ State.reset.pos = 0 ∧ State.reset.used = 0 ∧
    State.reset.fault = false ∧ State.reset.pending = []

/-- The invariant of R26 holds after reset (reset itself: log entry 1). -/
def Obligations.ResetSatisfiesInvariant : Prop := BlockInv State.reset

/-- The invariant of R26 is kept by every step from every state that has it: commands, illegal commands and INIT. -/
def Obligations.StepKeepsInvariant : Prop := ∀ s t : State, BlockInv s → step s = .next t → BlockInv t

/-- A step that faults leaves a state that has the invariant of R26 and holds FAULT = 1 (R297). -/
def Obligations.FaultLeavesInvariant : Prop :=
  ∀ (s : State) (f : Fault), BlockInv s → step s = .fault f →
    ∃ t, f = .contractFault t ∧ BlockInv t ∧ t.fault = true

/-- INIT (R320, R322): the fresh instance, or the refusal that leaves the existing one. That the host's INIT stands
in a queue, that a refused one is taken from it, and that INIT keeps the actions behind it are the model's choices (log
entries 5, 14). -/
def Obligations.InitReplacesTheInstance : Prop :=
  ∀ (s : State) (maxBits : Nat) (bytes : List Byte) (rest : List HostAction),
    s.pending = .init maxBits bytes :: rest →
    (1 ≤ maxBits → maxBits ≤ 2 ^ 32 - 1 → bytes.length ≤ (maxBits + 7) / 8 →
      ∃ t, step s = .next t ∧ t.cap = maxBits ∧ t.pos = 0 ∧ t.used = min (8 * bytes.length) maxBits ∧
        t.fault = false ∧ t.pending = rest ∧
        (∀ a (h : a < bytes.length), ∀ j < 8,
          bitAt t.buf (8 * a + j) = (decide (8 * a + j < maxBits) && bytes[a].getLsbD (7 - j))) ∧
        (∀ q, 8 * bytes.length ≤ q → bitAt t.buf q = false)) ∧
    (maxBits < 1 ∨ 2 ^ 32 - 1 < maxBits ∨ (maxBits + 7) / 8 < bytes.length →
      step s = .next { s with pending := rest })

/-! ### The step and the encoding -/

/-- A step runs the command that the oldest pending bundle decodes to; with nothing pending it holds the state
(R311; the queue is the model's, log entry 5). -/
def Obligations.StepRunsDecodedCommand : Prop :=
  (∀ s b rest i, s.pending = .command b :: rest → decode b = .ok i →
      step s = exec i { s with pending := rest }) ∧
    (∀ s : State, s.pending = [] → step s = .next s)

/-- R86: which headers are illegal, that every other header is a command, and what an illegal command does. DIN
holds P bytes, as R27 says of the port. -/
def Obligations.IllegalHeadersAnswerUnsupported : Prop :=
  (∀ b, decode b = .error .illegalHeader ↔ b.hdr.toNat / 2 ^ 19 ≠ 0 ∨ Unassigned (b.hdr.toNat % 256)) ∧
    (∀ b, b.din.length = b.p.toNat → ¬ (b.hdr.toNat / 2 ^ 19 ≠ 0 ∨ Unassigned (b.hdr.toNat % 256)) →
      ∃ i, decode b = .ok i) ∧
    (∀ (s : State) b rest, s.fault = false → s.pending = .command b :: rest →
      (b.hdr.toNat / 2 ^ 19 ≠ 0 ∨ Unassigned (b.hdr.toNat % 256)) →
      FailsWith (step s) { s with pending := rest } .unsupportedOperation)

/-- Headers of the opcode table, written out from R80 and R84, and the commands they are. -/
def Obligations.DecodeReadsWrittenWords : Prop :=
  decodeTableWord 32 0x00000801 = some (.bbWriteBits 8 0) ∧
    decodeTableWord 32 0x0000000E = some .bbGetData ∧
    decodeTableWord 32 0x00000011 = some (.decInt none none none) ∧
    decodeTableWord 32 0x00072011 = some (.decInt (some 0) (some 0) (some 32)) ∧
    decodeTableWord 32 0x00004022 = some (.acnEncTcConst 64 0) ∧
    decodeTableWord 32 0x0000004B = some .acnDecTcLe64 ∧
    decodeTableWord 32 0x00001450 = some (.acnEncBcdConst 20 0) ∧
    decodeTableWord 32 0x00000067 = some .acnDecReal64Le ∧
    decodeTableWord 32 0x0000007F = some (.acnStub 15) ∧
    decodeTableWord 32 0x80000001 = none

/-- Decoding the bundle of a well-formed command gives the command back, for every command and every operand value
its ports can carry (R80 to R84). -/
def Obligations.DecodeInvertsEncode : Prop := ∀ i : Instr, i.wf = true → decode (encode i) = .ok i

/-- R81: a port or header field that a command's format does not list is ignored, whatever it holds. -/
def Obligations.UnlistedPortsAreIgnored : Prop :=
  ∀ b b' i, decode b = .ok i → opField b'.hdr = opField b.hdr → reservedField b'.hdr = 0 →
    PortsAgree (formatOf i) b b' → decode b' = .ok i

/-- Every bundle decodes to operands that its ports can carry: the ranges of R82. -/
def Obligations.DecodedOperandsAreInRange : Prop := ∀ b (i : Instr), decode b = .ok i → i.wf = true

/-- The step refuses nothing but a byte-array write whose DIN is not P bytes, which the ports cannot present (R27;
the refusal is the model's, log entry 6). -/
def Obligations.OnlyUnpresentableBytesAreRefused : Prop :=
  (∀ i s q, exec i s ≠ .refused q) ∧
    (∀ s q, step s = .refused q → ∃ b rest, s.pending = .command b :: rest ∧ b.din.length ≠ b.p.toNat ∧
      (opField b.hdr = 0x07 ∨ opField b.hdr = 0x1D ∨ opField b.hdr = 0x1E))

/-! ### Outcomes that hold of every command -/

/-- R297's complete list: a command raises ContractFault when FAULT is 1 or its operands are a listed cause, and in
every other case it goes on, with FAULT 0. -/
def Obligations.ContractFaultExactlyOnListedCauses : Prop :=
  ∀ (i : Instr) (s : State), (s.fault = true ∨ ContractCause i → RaisesContractFault (exec i s) s) ∧
    (s.fault = false → ¬ ContractCause i → ∃ t, exec i s = .next t ∧ t.fault = false)

/-- R25: FAULT is 0 after INIT, set by a ContractFault alone and sticky. While it is 1 every command (an illegal one
too) raises ContractFault and changes nothing; only INIT clears it. A bundle the ports cannot present is left out (log
entry 6). -/
def Obligations.FaultIsStickyUntilInit : Prop :=
  (∀ ix maxBits bytes pending t, initInstance ix maxBits bytes pending = some t → t.fault = false) ∧
    (∀ (s : State) f, step s = .fault f → ∃ t, f = .contractFault t ∧ t.fault = true) ∧
    (∀ s t, s.fault = false → step s = .next t → t.fault = false) ∧
    (∀ (s : State) b rest, s.fault = true → s.pending = .command b :: rest → decode b ≠ .error .dinLength →
      RaisesContractFault (step s) { s with pending := rest }) ∧
    (∀ s t, s.fault = true → step s = .next t → t.fault = false →
      ∃ maxBits bytes rest, s.pending = .init maxBits bytes :: rest)

/-- R301 without the distances: a failed command changes neither BUF nor USED; the cursor moves only for the
decoders of R301's "advanced" rows, and then never backwards. The distances are in the statements of those decoders.
-/
def Obligations.FailureLeavesBufferUnchanged : Prop :=
  ∀ (i : Instr) (s t : State), exec i s = .next t → t.success = false →
    t.buf = s.buf ∧ t.used = s.used ∧ t.cap = s.cap ∧ t.fault = s.fault ∧ t.pending = s.pending ∧
      s.pos ≤ t.pos ∧
      (mayFailLate i = false ∨ t.err = .bitstreamError ∨ t.err = .unsupportedOperation → t.pos = s.pos)

/-- A command that fails does so with BITSTREAM_ERROR exactly when it is a BitBuffer command, opcodes 0x01 to 0x0E
(R296, R166). -/
def Obligations.BitStreamErrorOnlyFromBitBuffer : Prop :=
  ∀ (i : Instr) (s t : State), exec i s = .next t → t.success = false →
    (t.err = .bitstreamError ↔ isBitBuffer i = true)

/-- R292, R298, R299 for every presented bundle: SUCCESS = 1 iff ERR = 0; no command returns BUFFER_OVERFLOW;
UNSUPPORTED_OPERATION comes from the stubs and the illegal commands alone, with the state unchanged. -/
def Obligations.ErrorCodesAreTheListedOnes : Prop :=
  ∀ (s t : State) b rest, s.pending = .command b :: rest → step s = .next t →
    (t.success = true ↔ t.err = .success) ∧ t.err ≠ .bufferOverflow ∧
      (t.err = .unsupportedOperation ↔ decode b = .error .illegalHeader ∨ ∃ w, decode b = .ok (.acnStub w)) ∧
      (t.err = .unsupportedOperation → SameInstance { s with pending := rest } t)

/-- On success BITS is the number of bits by which the command advanced POS (R28, R290); the two commands that place
the cursor report 0 (R123, R141). -/
def Obligations.BitsCountsTheAdvance : Prop :=
  ∀ (i : Instr) (s t : State), exec i s = .next t → t.success = true →
    (placesCursor i = false → t.pos = s.pos + t.bits) ∧ (placesCursor i = true → t.bits = 0)

/-- No command changes CAP or FAULT, lowers USED, or lowers POS unless it places the cursor (R21, R24, R64). -/
def Obligations.CommandsOnlyAdvance : Prop :=
  ∀ (i : Instr) (s t : State), exec i s = .next t →
    t.cap = s.cap ∧ t.fault = s.fault ∧ t.pending = s.pending ∧ s.used ≤ t.used ∧
      (placesCursor i = false → s.pos ≤ t.pos)

/-- The frame of BUF and USED: a command that writes changes only the bits its cursor passed over and raises USED
past them (R24, R53); every other command changes neither (R60). -/
def Obligations.OnlyPassedBitsChange : Prop :=
  ∀ (i : Instr) (s t : State), s.buf.wf = true → exec i s = .next t →
    (mayWrite i = true →
      (∀ q, q < s.pos ∨ t.pos ≤ q → bitAt t.buf q = bitAt s.buf q) ∧
        (∀ a, 8 * a + 8 ≤ s.pos ∨ t.pos ≤ 8 * a → readByte t.buf a = readByte s.buf a) ∧
        t.used = if s.pos < t.pos then max s.used t.pos else s.used) ∧
    (mayWrite i = false → t.buf = s.buf ∧ t.used = s.used)

/-- Results fit their registers: VAL 65 bits signed and BITS 33 bits after every command, BITS at most CAP on
success (R28, R30). -/
def Obligations.ResultsFitTheirRegisters : Prop :=
  ∀ (i : Instr) (s t : State), i.wf = true → BlockInv s → exec i s = .next t →
    -(2 ^ 64) ≤ t.val ∧ t.val < 2 ^ 64 ∧ t.bits < 2 ^ 33 ∧ (t.success = true → t.bits ≤ t.cap)

/-- No command reads a result register, nor anything else outside CAP, BUF, POS, USED and FAULT: on states that
agree on those it has the same outcome (R27, R29). -/
def Obligations.ResultRegistersAreNotRead : Prop :=
  ∀ (i : Instr) (s s' : State), SameBlock s s' → SameOutcome (exec i s) (exec i s')

/-- R140: a copy is an equal instance, and every command sequence has on it the outcome it has on the original. -/
def Obligations.CopyRunsLikeTheOriginal : Prop :=
  ∀ (ix : Nat) (s : State), SameBlock s (copyInstance ix s) ∧
    ∀ is, is ≠ [] → SameOutcome (runCommands is s) (runCommands is (copyInstance ix s))

/-- The register map of R30, with SUCCESS in bit 0 and ERR in bits 3:1 of RESULT by the numerals of R291. -/
def Obligations.RegisterMapReads : Prop :=
  ∀ s : State,
    readRegister 0 s = some s.cap ∧ readRegister 1 s = some s.pos ∧ readRegister 2 s = some s.used ∧
      readRegister 3 s = some (if s.fault then 1 else 0) ∧
      (∀ v b d, ReportsOk s v b d →
        readRegister 4 s = some 1 ∧ readRegister 5 s = some v ∧ readRegister 6 s = some b) ∧
      (ReportsErr s .insufficientData → readRegister 4 s = some 2) ∧
      (ReportsErr s .invalidValue → readRegister 4 s = some 4) ∧
      (ReportsErr s .constraintViolation → readRegister 4 s = some 6) ∧
      (ReportsErr s .unsupportedOperation → readRegister 4 s = some 10) ∧
      (ReportsErr s .bitstreamError → readRegister 4 s = some 12)

/-! ### Laws of the buffer -/

/-- A field's value is the sum of its bits, the first the most significant; each bit is bit `7 − (p mod 8)` of byte
`p div 8` (R50 to R52). -/
def Obligations.FieldValueIsTheSumOfItsBits : Prop :=
  ∀ (m : Memory) (p n : Nat), memRead m p n =
    ∑ i ∈ Finset.range n, (readByte m ((p + i) / 8)).toNat / 2 ^ (7 - (p + i) % 8) % 2 * 2 ^ (n - 1 - i)

/-- Mixed widths (R57): fields written one behind the other read back as one field, and one field reads as two. -/
def Obligations.AdjacentFieldsConcatenate : Prop :=
  (∀ (s : State) (n k : Nat) (v w : Int), Ready s → fitsU v n → fitsU w k → n + k ≤ 64 → room (n + k) s →
      ∃ t, runOk [.bbWriteBits n v, .bbWriteBits k w, .bbSetPos s.pos, .bbReadBits (n + k)] s = some t ∧
        t.val = v * 2 ^ k + w) ∧
    (∀ (m : Memory) (p n k : Nat),
      memRead m p n = memRead m p (n + k) / 2 ^ k ∧ memRead m (p + n) k = memRead m p (n + k) % 2 ^ k)

/-- Write-then-read (R126): bits, a byte, a block of bytes. -/
def Obligations.WriteThenReadReturnsTheValue : Prop :=
  (∀ (s : State) (n : Nat) (v : Int), Ready s → n ≤ 64 → fitsU v n → room n s →
      ∃ t, runOk [.bbWriteBits n v, .bbSetPos s.pos, .bbReadBits n] s = some t ∧ ReportsOk t v n [] ∧
        t.pos = s.pos + n) ∧
    (∀ (s : State) (v : Int), Ready s → fitsU v 8 → room 8 s →
      ∃ t, runOk [.bbWriteByte v, .bbSetPos s.pos, .bbReadByte] s = some t ∧ ReportsOk t v 8 [] ∧
        t.pos = s.pos + 8) ∧
    (∀ (s : State) (din : List Byte), Ready s → room (8 * din.length) s →
      ∃ t, runOk [.bbWriteBytes din, .bbSetPos s.pos, .bbReadBytes din.length] s = some t ∧
        ReportsOk t 0 (8 * din.length) din ∧ t.pos = s.pos + 8 * din.length)

/-- Zero-bit commands (R125), at any cursor of the invariant's range. -/
def Obligations.ZeroBitAccessesMoveNothing : Prop :=
  ∀ s : State, Ready s → s.pos ≤ s.cap →
    Answers (exec (.bbReadBits 0) s) s 0 [] ∧ Answers (exec (.bbWriteBits 0 0) s) s 0 [] ∧
      ∀ v, v ≠ 0 → FailsWith (exec (.bbWriteBits 0 v) s) s .bitstreamError

/-! ### Laws of the codec -/

/-- R89: each alias has the same state change and the same outcome as the command it stands for. -/
def Obligations.AliasesAreTheSameCommand : Prop :=
  ∀ (s : State) (v : Int),
    exec (.bbWriteByte v) s = exec (.bbWriteBits 8 v) s ∧ exec .bbReadByte s = exec (.bbReadBits 8) s ∧
    exec (.bbWriteBit v) s = exec (.bbWriteBits 1 v) s ∧ exec .bbReadBit s = exec (.bbReadBits 1) s ∧
    (∀ din, exec (.encOctetsNolen din) s = exec (.encAppendBytes din) s) ∧
    exec (.acnEncPosBe16 v) s = exec (.acnEncPosConst 16 v) s ∧
    exec (.acnEncPosBe32 v) s = exec (.acnEncPosConst 32 v) s ∧
    exec (.acnEncPosBe64 v) s = exec (.acnEncPosConst 64 v) s ∧
    exec (.acnEncTcBe16 v) s = exec (.acnEncTcConst 16 v) s ∧
    exec (.acnEncTcBe32 v) s = exec (.acnEncTcConst 32 v) s ∧
    exec (.acnEncTcBe64 v) s = exec (.acnEncTcConst 64 v) s ∧
    exec .acnDecPosBe16 s = exec (.acnDecPosConst 16) s ∧ exec .acnDecPosBe32 s = exec (.acnDecPosConst 32) s ∧
    exec .acnDecPosBe64 s = exec (.acnDecPosConst 64) s ∧ exec .acnDecTcBe16 s = exec (.acnDecTcConst 16) s ∧
    exec .acnDecTcBe32 s = exec (.acnDecTcConst 32) s ∧ exec .acnDecTcBe64 s = exec (.acnDecTcConst 64) s ∧
    (∀ n, exec (.acnEncLength n v) s = exec (.encUint n v) s ∧ exec (.acnDecLength n) s = exec (.decUint n) s) ∧
    (fitsU v 32 → exec (.acnEncReal32Be v) s = exec (.acnEncPosBe32 v) s ∧
      exec (.acnEncReal32Le v) s = exec (.acnEncPosLe32 v) s) ∧
    (fitsU v 64 → exec (.acnEncReal64Be v) s = exec (.acnEncPosBe64 v) s ∧
      exec (.acnEncReal64Le v) s = exec (.acnEncPosLe64 v) s) ∧
    exec .acnDecReal32Be s = exec .acnDecPosBe32 s ∧ exec .acnDecReal32Le s = exec .acnDecPosLe32 s ∧
    exec .acnDecReal64Be s = exec .acnDecPosBe64 s ∧ exec .acnDecReal64Le s = exec .acnDecPosLe64 s

/-- The round trip of R168 for every encoder / decoder pair: from any state with the same bits at the same cursor
and the same CAP, the decoder returns what was encoded and consumes what was produced. That a pair without bytes leaves
DOUT empty is the model's choice (log entry 21). -/
def Obligations.EveryPairRoundTrips : Prop :=
  ∀ (i j : Instr) (s t s' : State), pairedDecoder i = some j → Ready s → exec i s = .next t → t.success = true →
    s'.fault = false → s'.pos = s.pos → s'.cap = s.cap →
    (∀ q, s.pos ≤ q → q < s.pos + t.bits → bitAt s'.buf q = bitAt t.buf q) →
    ReadsTo (exec j s') s' t.bits (encodedValue i) (encodedBytes i)

/-- The composition law of R168: values encoded in order come back in order, and the decoders consume in total what
the encoders produced. That DOUT is empty where no bytes are returned is the model's choice (log entry 21). -/
def Obligations.SequencesRoundTrip : Prop :=
  ∀ (es ds : List Instr) (s t s' : State), List.Forall₂ (fun e d => pairedDecoder e = some d) es ds → Ready s →
    runOk es s = some t →
    s'.fault = false → s'.pos = s.pos → s'.cap = s.cap →
    (∀ q, s.pos ≤ q → q < t.pos → bitAt s'.buf q = bitAt t.buf q) →
    ∃ u, resultsOk ds s' = some (es.map fun e => (encodedValue e, encodedBytes e), u) ∧ u.pos = t.pos

/-! ### BitBuffer commands -/

/-- BB_WRITE_BITS (R110) and BB_WRITE_BYTE (R114). -/
def Obligations.BitFieldWrites : Prop :=
  ∀ (s : State) (n : Nat) (v : Int), Ready s →
    (n ≤ 64 → fitsU v n → room n s → WritesField (exec (.bbWriteBits n v) s) s n v.toNat) ∧
    (64 < n ∨ ¬ fitsU v n ∨ ¬ room n s → FailsWith (exec (.bbWriteBits n v) s) s .bitstreamError) ∧
    (fitsU v 8 → room 8 s → WritesField (exec (.bbWriteByte v) s) s 8 v.toNat) ∧
    (¬ fitsU v 8 ∨ ¬ room 8 s → FailsWith (exec (.bbWriteByte v) s) s .bitstreamError)

/-- BB_READ_BITS (R111) and BB_READ_BYTE (R115). -/
def Obligations.BitFieldReads : Prop :=
  ∀ (s : State) (n : Nat), Ready s →
    memRead s.buf s.pos n < 2 ^ n ∧
    (n ≤ 64 → room n s → ReadsTo (exec (.bbReadBits n) s) s n (memRead s.buf s.pos n) []) ∧
    (64 < n ∨ ¬ room n s → FailsWith (exec (.bbReadBits n) s) s .bitstreamError) ∧
    (room 8 s → ReadsTo (exec .bbReadByte s) s 8 (memRead s.buf s.pos 8) []) ∧
    (¬ room 8 s → FailsWith (exec .bbReadByte s) s .bitstreamError)

/-- BB_WRITE_BIT (R112) and BB_READ_BIT (R113). -/
def Obligations.SingleBitAccess : Prop :=
  ∀ (s : State) (v : Int), Ready s →
    (v = 0 ∨ v = 1 → room 1 s → WritesField (exec (.bbWriteBit v) s) s 1 v.toNat) ∧
    ((v ≠ 0 ∧ v ≠ 1) ∨ ¬ room 1 s → FailsWith (exec (.bbWriteBit v) s) s .bitstreamError) ∧
    (room 1 s → ReadsTo (exec .bbReadBit s) s 1 (if bitAt s.buf s.pos then 1 else 0) []) ∧
    (¬ room 1 s → FailsWith (exec .bbReadBit s) s .bitstreamError)

/-- BB_WRITE_BYTES (R116), BB_READ_BYTES (R117) and DEC_OCTETS_NOLEN (R165). -/
def Obligations.ByteBlocks : Prop :=
  ∀ (s : State) (din : List Byte) (k : Nat), Ready s →
    (room (8 * din.length) s →
      WritesRun (exec (.bbWriteBytes din) s) s 8 din.length (fun i => (din.getD i 0).toNat)) ∧
    (¬ room (8 * din.length) s → FailsWith (exec (.bbWriteBytes din) s) s .bitstreamError) ∧
    (room (8 * k) s → ∃ data : List Byte, data.length = k ∧
      (∀ i < k, (data.getD i 0).toNat = byteAt s.buf s.pos i) ∧
      ReadsTo (exec (.bbReadBytes k) s) s (8 * k) 0 data ∧
      ReadsTo (exec (.decOctetsNolen k) s) s (8 * k) 0 data) ∧
    (¬ room (8 * k) s → FailsWith (exec (.bbReadBytes k) s) s .bitstreamError ∧
      FailsWith (exec (.decOctetsNolen k) s) s .insufficientData)

/-- BB_BITS_REMAINING (R118), BB_IS_AT_END (R119), BB_GET_DATA (R122). -/
def Obligations.BufferQueries : Prop :=
  ∀ s : State, Ready s →
    Answers (exec .bbBitsRemaining s) s ((s.cap : Int) - s.pos) [] ∧
    (s.pos = s.cap → Answers (exec .bbIsAtEnd s) s 1 []) ∧
    (s.pos ≠ s.cap → Answers (exec .bbIsAtEnd s) s 0 []) ∧
    ∃ data : List Byte, data.length = (s.used + 7) / 8 ∧
      (∀ a < (s.used + 7) / 8, data.getD a 0 = readByte s.buf a) ∧ Answers (exec .bbGetData s) s 0 data

/-- BB_SET_POS (R123) and BB_RESET_POS (R141): the cursor is placed, everything else is as before. -/
def Obligations.CursorPlacement : Prop :=
  (∀ (s : State) (p : Nat), Ready s →
    (p ≤ s.cap → ∃ t, exec (.bbSetPos p) s = .next t ∧ SameInstance { s with pos := p } t ∧ ReportsOk t 0 0 []) ∧
    (s.cap < p → FailsWith (exec (.bbSetPos p) s) s .bitstreamError) ∧
    (∃ t, exec .bbResetPos s = .next t ∧ SameInstance { s with pos := 0 } t ∧ ReportsOk t 0 0 [])) ∧
  (∀ s : State, s.fault = true → RaisesContractFault (exec .bbResetPos s) s)

/-! ### Alignment and NULL -/

/-- Alignment to a byte: BB_ALIGN_WR (R120), BB_ALIGN_RD (R121), ENC_ALIGN_BYTE (R157), DEC_ALIGN_BYTE (R160). -/
def Obligations.ByteAlignment : Prop :=
  ∀ (s : State) (g : Nat), Ready s → IsPadding 8 s.pos g →
    (room g s → WritesField (exec .bbAlignWr s) s g 0 ∧ ReadsTo (exec .bbAlignRd s) s g 0 [] ∧
      EncodesField (exec .encAlignByte s) s g 0 ∧ DecodesTo (exec .decAlignByte s) s g 0) ∧
    (¬ room g s → FailsWith (exec .bbAlignWr s) s .bitstreamError ∧ FailsWith (exec .bbAlignRd s) s .bitstreamError ∧
      FailsWith (exec .encAlignByte s) s .insufficientData ∧ FailsWith (exec .decAlignByte s) s .insufficientData)

/-- Alignment to a word and to a double word: ENC_ALIGN_WORD, ENC_ALIGN_DWORD, DEC_ALIGN_WORD, DEC_ALIGN_DWORD
(R158, R159, R161, R162). The 16 and the 32 are the spec's from general knowledge (log entry 8); that DOUT is empty
after them is the model's choice (log entry 21). -/
def Obligations.WordAlignment : Prop :=
  ∀ (s : State) (g : Nat), Ready s →
    (IsPadding 16 s.pos g →
      (room g s → WritesField (exec .encAlignWord s) s g 0 ∧ ReadsTo (exec .decAlignWord s) s g 0 []) ∧
      (¬ room g s → FailsWith (exec .encAlignWord s) s .insufficientData ∧
        FailsWith (exec .decAlignWord s) s .insufficientData)) ∧
    (IsPadding 32 s.pos g →
      (room g s → WritesField (exec .encAlignDword s) s g 0 ∧ ReadsTo (exec .decAlignDword s) s g 0 []) ∧
      (¬ room g s → FailsWith (exec .encAlignDword s) s .insufficientData ∧
        FailsWith (exec .decAlignDword s) s .insufficientData))

/-- ENC_NULL (R155) and DEC_NULL (R156). -/
def Obligations.NullCommands : Prop :=
  ∀ s : State, s.fault = false → DecodesTo (exec .encNull s) s 0 0 ∧ DecodesTo (exec .decNull s) s 0 0

/-! ### Generic Encoder / Decoder -/

/-- ENC_INT (R150): the offset `v − lo` in `bit_length(hi − lo)` bits, whatever the size operand. bit_length is
R10's, which the spec marks as general knowledge (log entry 9); an empty DOUT is the model's choice (log entry 21). -/
def Obligations.ConstrainedEncode : Prop :=
  ∀ (s : State) (v lo hi : Int) (size : Option Nat) (b : Nat), Ready s →
    (lo ≤ hi → hi - lo < 2 ^ 64 → IsBitLength (hi - lo) b →
      (lo ≤ v → v ≤ hi → room b s → WritesField (exec (.encInt v lo hi size) s) s b (v - lo).toNat) ∧
      (lo ≤ v → v ≤ hi → ¬ room b s → FailsWith (exec (.encInt v lo hi size) s) s .insufficientData) ∧
      (v < lo ∨ hi < v → FailsWith (exec (.encInt v lo hi size) s) s .constraintViolation)) ∧
    (hi < lo ∨ 2 ^ 64 ≤ hi - lo → RaisesContractFault (exec (.encInt v lo hi size) s) s)

/-- DEC_INT (R151): range mode, size mode with at most one bound, and no sizing mechanism. bit_length is R10's,
which the spec marks as general knowledge (log entry 9); an empty DOUT is the model's choice (log entry 21). -/
def Obligations.ConstrainedDecode : Prop :=
  (∀ (s : State) (lo hi : Int) (size : Option Nat) (b : Nat), Ready s →
    (lo ≤ hi → hi - lo < 2 ^ 64 → IsBitLength (hi - lo) b →
      (room b s → memRead s.buf s.pos b + lo ≤ hi →
        ReadsTo (exec (.decInt (some lo) (some hi) size) s) s b (memRead s.buf s.pos b + lo) []) ∧
      (room b s → hi < memRead s.buf s.pos b + lo →
        FailsAfter (exec (.decInt (some lo) (some hi) size) s) s b .constraintViolation) ∧
      (¬ room b s → FailsWith (exec (.decInt (some lo) (some hi) size) s) s .insufficientData)) ∧
    (hi < lo ∨ 2 ^ 64 ≤ hi - lo → RaisesContractFault (exec (.decInt (some lo) (some hi) size) s) s)) ∧
  (∀ (s : State) (lo hi : Option Int) (n : Nat), Ready s → lo = none ∨ hi = none →
    (n ≤ 64 → room n s → (∀ l, lo = some l → l ≤ memRead s.buf s.pos n) →
      (∀ h, hi = some h → (memRead s.buf s.pos n : Int) ≤ h) →
      ReadsTo (exec (.decInt lo hi (some n)) s) s n (memRead s.buf s.pos n) []) ∧
    (n ≤ 64 → room n s → ∀ l, lo = some l → (memRead s.buf s.pos n : Int) < l →
      FailsAfter (exec (.decInt lo hi (some n)) s) s n .constraintViolation) ∧
    (n ≤ 64 → room n s → ∀ h, hi = some h → h < memRead s.buf s.pos n →
      FailsAfter (exec (.decInt lo hi (some n)) s) s n .constraintViolation) ∧
    (n ≤ 64 → ¬ room n s → FailsWith (exec (.decInt lo hi (some n)) s) s .insufficientData) ∧
    (64 < n → RaisesContractFault (exec (.decInt lo hi (some n)) s) s) ∧
    FailsWith (exec (.decInt lo hi none) s) s .invalidValue)

/-- ENC_UINT (R152), DEC_UINT (R153), ACN_ENC_LENGTH (R209), ACN_DEC_LENGTH (R210). -/
def Obligations.UnsignedFields : Prop :=
  ∀ (s : State) (n : Nat) (v : Int), Ready s →
    (n ≤ 64 → fitsU v n → room n s → EncodesField (exec (.encUint n v) s) s n v.toNat ∧
      EncodesField (exec (.acnEncLength n v) s) s n v.toNat) ∧
    (n ≤ 64 → ¬ fitsU v n → FailsWith (exec (.encUint n v) s) s .invalidValue ∧
      FailsWith (exec (.acnEncLength n v) s) s .invalidValue) ∧
    (n ≤ 64 → fitsU v n → ¬ room n s → FailsWith (exec (.encUint n v) s) s .insufficientData ∧
      FailsWith (exec (.acnEncLength n v) s) s .insufficientData) ∧
    (n ≤ 64 → room n s → DecodesTo (exec (.decUint n) s) s n (memRead s.buf s.pos n) ∧
      DecodesTo (exec (.acnDecLength n) s) s n (memRead s.buf s.pos n)) ∧
    (n ≤ 64 → ¬ room n s → FailsWith (exec (.decUint n) s) s .insufficientData ∧
      FailsWith (exec (.acnDecLength n) s) s .insufficientData) ∧
    (64 < n → RaisesContractFault (exec (.encUint n v) s) s ∧ RaisesContractFault (exec (.acnEncLength n v) s) s ∧
      RaisesContractFault (exec (.decUint n) s) s ∧ RaisesContractFault (exec (.acnDecLength n) s) s)

/-- DEC_ENUM (R154), and that it inverts ENC_INT over `0 … k − 1`. bit_length is R10's, which the spec marks as
general knowledge (log entry 9); an empty DOUT is the model's choice (log entry 21). -/
def Obligations.EnumIndexDecode : Prop :=
  ∀ (s : State) (k b : Nat), Ready s →
    (1 ≤ k → IsBitLength ((k : Int) - 1) b →
      (room b s → memRead s.buf s.pos b < k → ReadsTo (exec (.decEnum k) s) s b (memRead s.buf s.pos b) []) ∧
      (room b s → k ≤ memRead s.buf s.pos b → FailsAfter (exec (.decEnum k) s) s b .constraintViolation) ∧
      (¬ room b s → FailsWith (exec (.decEnum k) s) s .insufficientData) ∧
      (∀ i < k, k ≤ 2 ^ 64 → room b s →
        ∃ t, runOk [.encInt i 0 (k - 1) none, .bbSetPos s.pos, .decEnum k] s = some t ∧ ReportsOk t i b [])) ∧
    (k = 0 → RaisesContractFault (exec (.decEnum k) s) s)

/-- ENC_APPEND_BYTES (R163) and ENC_OCTETS_NOLEN (R164). -/
def Obligations.OctetArrays : Prop :=
  ∀ (s : State) (din : List Byte), Ready s →
    (room (8 * din.length) s →
      EncodesRun (exec (.encAppendBytes din) s) s 8 din.length (fun i => (din.getD i 0).toNat) ∧
      EncodesRun (exec (.encOctetsNolen din) s) s 8 din.length (fun i => (din.getD i 0).toNat)) ∧
    (¬ room (8 * din.length) s → FailsWith (exec (.encAppendBytes din) s) s .insufficientData ∧
      FailsWith (exec (.encOctetsNolen din) s) s .insufficientData)

/-! ### ACN integers of fixed size -/

/-- ACN_ENC_POS_CONST (R181) and ACN_DEC_POS_CONST (R182). -/
def Obligations.ConstantSizePositive : Prop :=
  ∀ (s : State) (n : Nat) (v : Int), Ready s →
    (1 ≤ n → n ≤ 64 →
      (fitsU v n → room n s → EncodesField (exec (.acnEncPosConst n v) s) s n v.toNat) ∧
      (¬ fitsU v n → FailsWith (exec (.acnEncPosConst n v) s) s .invalidValue) ∧
      (fitsU v n → ¬ room n s → FailsWith (exec (.acnEncPosConst n v) s) s .insufficientData) ∧
      (room n s → DecodesTo (exec (.acnDecPosConst n) s) s n (memRead s.buf s.pos n)) ∧
      (¬ room n s → FailsWith (exec (.acnDecPosConst n) s) s .insufficientData)) ∧
    (n < 1 ∨ 64 < n → RaisesContractFault (exec (.acnEncPosConst n v) s) s ∧
      RaisesContractFault (exec (.acnDecPosConst n) s) s)

/-- ACN_ENC_TC_CONST (R183) and ACN_DEC_TC_CONST (R184). -/
def Obligations.ConstantSizeTwosComplement : Prop :=
  ∀ (s : State) (n : Nat) (v : Int), Ready s →
    (1 ≤ n → n ≤ 64 →
      (fitsS v n → room n s → EncodesField (exec (.acnEncTcConst n v) s) s n (v % 2 ^ n).toNat) ∧
      (¬ fitsS v n → FailsWith (exec (.acnEncTcConst n v) s) s .invalidValue) ∧
      (fitsS v n → ¬ room n s → FailsWith (exec (.acnEncTcConst n v) s) s .insufficientData) ∧
      (room n s → ReadsSigned (exec (.acnDecTcConst n) s) s n n (memRead s.buf s.pos n)) ∧
      (¬ room n s → FailsWith (exec (.acnDecTcConst n) s) s .insufficientData)) ∧
    (n < 1 ∨ 64 < n → RaisesContractFault (exec (.acnEncTcConst n v) s) s ∧
      RaisesContractFault (exec (.acnDecTcConst n) s) s)

/-- ACN_ENC_POS_BE16, BE32, BE64 and ACN_DEC_POS_BE16, BE32, BE64 (R185 to R190). -/
def Obligations.BigEndianPositive : Prop :=
  ∀ (s : State) (v : Int), Ready s →
    (fitsU v 16 → room 16 s → EncodesField (exec (.acnEncPosBe16 v) s) s 16 v.toNat) ∧
    (¬ fitsU v 16 → FailsWith (exec (.acnEncPosBe16 v) s) s .invalidValue) ∧
    (fitsU v 16 → ¬ room 16 s → FailsWith (exec (.acnEncPosBe16 v) s) s .insufficientData) ∧
    (room 16 s → DecodesTo (exec .acnDecPosBe16 s) s 16 (memRead s.buf s.pos 16)) ∧
    (¬ room 16 s → FailsWith (exec .acnDecPosBe16 s) s .insufficientData) ∧
    (fitsU v 32 → room 32 s → EncodesField (exec (.acnEncPosBe32 v) s) s 32 v.toNat) ∧
    (¬ fitsU v 32 → FailsWith (exec (.acnEncPosBe32 v) s) s .invalidValue) ∧
    (fitsU v 32 → ¬ room 32 s → FailsWith (exec (.acnEncPosBe32 v) s) s .insufficientData) ∧
    (room 32 s → DecodesTo (exec .acnDecPosBe32 s) s 32 (memRead s.buf s.pos 32)) ∧
    (¬ room 32 s → FailsWith (exec .acnDecPosBe32 s) s .insufficientData) ∧
    (fitsU v 64 → room 64 s → EncodesField (exec (.acnEncPosBe64 v) s) s 64 v.toNat) ∧
    (¬ fitsU v 64 → FailsWith (exec (.acnEncPosBe64 v) s) s .invalidValue) ∧
    (fitsU v 64 → ¬ room 64 s → FailsWith (exec (.acnEncPosBe64 v) s) s .insufficientData) ∧
    (room 64 s → DecodesTo (exec .acnDecPosBe64 s) s 64 (memRead s.buf s.pos 64)) ∧
    (¬ room 64 s → FailsWith (exec .acnDecPosBe64 s) s .insufficientData)

/-- ACN_ENC_POS_LE16, LE32, LE64 and ACN_DEC_POS_LE16, LE32, LE64 (R191 to R196). -/
def Obligations.LittleEndianPositive : Prop :=
  ∀ (s : State) (v : Int), Ready s →
    (fitsU v 16 → room 16 s → EncodesRun (exec (.acnEncPosLe16 v) s) s 8 2 (fun i => v.toNat / 256 ^ i % 256)) ∧
    (¬ fitsU v 16 → FailsWith (exec (.acnEncPosLe16 v) s) s .invalidValue) ∧
    (fitsU v 16 → ¬ room 16 s → FailsWith (exec (.acnEncPosLe16 v) s) s .insufficientData) ∧
    (room 16 s → DecodesTo (exec .acnDecPosLe16 s) s 16 (littleEndianAt s.buf s.pos 2)) ∧
    (¬ room 16 s → FailsWith (exec .acnDecPosLe16 s) s .insufficientData) ∧
    (fitsU v 32 → room 32 s → EncodesRun (exec (.acnEncPosLe32 v) s) s 8 4 (fun i => v.toNat / 256 ^ i % 256)) ∧
    (¬ fitsU v 32 → FailsWith (exec (.acnEncPosLe32 v) s) s .invalidValue) ∧
    (fitsU v 32 → ¬ room 32 s → FailsWith (exec (.acnEncPosLe32 v) s) s .insufficientData) ∧
    (room 32 s → DecodesTo (exec .acnDecPosLe32 s) s 32 (littleEndianAt s.buf s.pos 4)) ∧
    (¬ room 32 s → FailsWith (exec .acnDecPosLe32 s) s .insufficientData) ∧
    (fitsU v 64 → room 64 s → EncodesRun (exec (.acnEncPosLe64 v) s) s 8 8 (fun i => v.toNat / 256 ^ i % 256)) ∧
    (¬ fitsU v 64 → FailsWith (exec (.acnEncPosLe64 v) s) s .invalidValue) ∧
    (fitsU v 64 → ¬ room 64 s → FailsWith (exec (.acnEncPosLe64 v) s) s .insufficientData) ∧
    (room 64 s → DecodesTo (exec .acnDecPosLe64 s) s 64 (littleEndianAt s.buf s.pos 8)) ∧
    (¬ room 64 s → FailsWith (exec .acnDecPosLe64 s) s .insufficientData)

/-- ACN_ENC_TC_BE16, BE32, BE64 and ACN_DEC_TC_BE16, BE32, BE64 (R197 to R202). -/
def Obligations.BigEndianTwosComplement : Prop :=
  ∀ (s : State) (v : Int), Ready s →
    (fitsS v 16 → room 16 s → EncodesField (exec (.acnEncTcBe16 v) s) s 16 (v % 2 ^ 16).toNat) ∧
    (¬ fitsS v 16 → FailsWith (exec (.acnEncTcBe16 v) s) s .invalidValue) ∧
    (fitsS v 16 → ¬ room 16 s → FailsWith (exec (.acnEncTcBe16 v) s) s .insufficientData) ∧
    (room 16 s → ReadsSigned (exec .acnDecTcBe16 s) s 16 16 (memRead s.buf s.pos 16)) ∧
    (¬ room 16 s → FailsWith (exec .acnDecTcBe16 s) s .insufficientData) ∧
    (fitsS v 32 → room 32 s → EncodesField (exec (.acnEncTcBe32 v) s) s 32 (v % 2 ^ 32).toNat) ∧
    (¬ fitsS v 32 → FailsWith (exec (.acnEncTcBe32 v) s) s .invalidValue) ∧
    (fitsS v 32 → ¬ room 32 s → FailsWith (exec (.acnEncTcBe32 v) s) s .insufficientData) ∧
    (room 32 s → ReadsSigned (exec .acnDecTcBe32 s) s 32 32 (memRead s.buf s.pos 32)) ∧
    (¬ room 32 s → FailsWith (exec .acnDecTcBe32 s) s .insufficientData) ∧
    (fitsS v 64 → room 64 s → EncodesField (exec (.acnEncTcBe64 v) s) s 64 (v % 2 ^ 64).toNat) ∧
    (¬ fitsS v 64 → FailsWith (exec (.acnEncTcBe64 v) s) s .invalidValue) ∧
    (fitsS v 64 → ¬ room 64 s → FailsWith (exec (.acnEncTcBe64 v) s) s .insufficientData) ∧
    (room 64 s → ReadsSigned (exec .acnDecTcBe64 s) s 64 64 (memRead s.buf s.pos 64)) ∧
    (¬ room 64 s → FailsWith (exec .acnDecTcBe64 s) s .insufficientData)

/-- ACN_ENC_TC_LE16, LE32, LE64 and ACN_DEC_TC_LE16, LE32, LE64 (R203 to R208). -/
def Obligations.LittleEndianTwosComplement : Prop :=
  ∀ (s : State) (v : Int), Ready s →
    (fitsS v 16 → room 16 s →
      EncodesRun (exec (.acnEncTcLe16 v) s) s 8 2 (fun i => (v % 2 ^ 16).toNat / 256 ^ i % 256)) ∧
    (¬ fitsS v 16 → FailsWith (exec (.acnEncTcLe16 v) s) s .invalidValue) ∧
    (fitsS v 16 → ¬ room 16 s → FailsWith (exec (.acnEncTcLe16 v) s) s .insufficientData) ∧
    (room 16 s → ReadsSigned (exec .acnDecTcLe16 s) s 16 16 (littleEndianAt s.buf s.pos 2)) ∧
    (¬ room 16 s → FailsWith (exec .acnDecTcLe16 s) s .insufficientData) ∧
    (fitsS v 32 → room 32 s →
      EncodesRun (exec (.acnEncTcLe32 v) s) s 8 4 (fun i => (v % 2 ^ 32).toNat / 256 ^ i % 256)) ∧
    (¬ fitsS v 32 → FailsWith (exec (.acnEncTcLe32 v) s) s .invalidValue) ∧
    (fitsS v 32 → ¬ room 32 s → FailsWith (exec (.acnEncTcLe32 v) s) s .insufficientData) ∧
    (room 32 s → ReadsSigned (exec .acnDecTcLe32 s) s 32 32 (littleEndianAt s.buf s.pos 4)) ∧
    (¬ room 32 s → FailsWith (exec .acnDecTcLe32 s) s .insufficientData) ∧
    (fitsS v 64 → room 64 s →
      EncodesRun (exec (.acnEncTcLe64 v) s) s 8 8 (fun i => (v % 2 ^ 64).toNat / 256 ^ i % 256)) ∧
    (¬ fitsS v 64 → FailsWith (exec (.acnEncTcLe64 v) s) s .invalidValue) ∧
    (fitsS v 64 → ¬ room 64 s → FailsWith (exec (.acnEncTcLe64 v) s) s .insufficientData) ∧
    (room 64 s → ReadsSigned (exec .acnDecTcLe64 s) s 64 64 (littleEndianAt s.buf s.pos 8)) ∧
    (¬ room 64 s → FailsWith (exec .acnDecTcLe64 s) s .insufficientData)

/-! ### ACN integers of variable size -/

/-- ACN_ENC_POS_VAR (R220) and ACN_DEC_POS_VAR (R221). -/
def Obligations.VariableSizeUnsigned : Prop :=
  ∀ (s : State) (v : Int) (k : Nat), Ready s →
    (0 ≤ v → v < 2 ^ 64 → IsByteCount v k →
      (room (8 + 8 * k) s → WritesLengthPrefixed (exec (.acnEncPosVar v) s) s k v.toNat) ∧
      (¬ room (8 + 8 * k) s → FailsWith (exec (.acnEncPosVar v) s) s .insufficientData)) ∧
    (v < 0 → FailsWith (exec (.acnEncPosVar v) s) s .invalidValue) ∧
    (2 ^ 64 ≤ v → RaisesContractFault (exec (.acnEncPosVar v) s) s) ∧
    (¬ room 8 s → FailsWith (exec .acnDecPosVar s) s .insufficientData) ∧
    (room 8 s → memRead s.buf s.pos 8 = k →
      (8 < k → FailsAfter (exec .acnDecPosVar s) s 8 .invalidValue) ∧
      (k ≤ 8 → ¬ room (8 + 8 * k) s → FailsAfter (exec .acnDecPosVar s) s 8 .insufficientData) ∧
      (k ≤ 8 → room (8 + 8 * k) s →
        DecodesTo (exec .acnDecPosVar s) s (8 + 8 * k) (memRead s.buf (s.pos + 8) (8 * k))))

/-- ACN_ENC_TC_VAR (R222) and ACN_DEC_TC_VAR (R223). -/
def Obligations.VariableSizeTwosComplement : Prop :=
  ∀ (s : State) (v : Int) (k : Nat), Ready s →
    (fitsS v 64 → IsSignedByteCount v k →
      (room (8 + 8 * k) s →
        WritesLengthPrefixed (exec (.acnEncTcVar v) s) s k (v % 2 ^ (8 * k)).toNat) ∧
      (¬ room (8 + 8 * k) s → FailsWith (exec (.acnEncTcVar v) s) s .insufficientData)) ∧
    (¬ fitsS v 64 → RaisesContractFault (exec (.acnEncTcVar v) s) s) ∧
    (¬ room 8 s → FailsWith (exec .acnDecTcVar s) s .insufficientData) ∧
    (room 8 s → memRead s.buf s.pos 8 = k →
      (8 < k → FailsAfter (exec .acnDecTcVar s) s 8 .invalidValue) ∧
      (k ≤ 8 → ¬ room (8 + 8 * k) s → FailsAfter (exec .acnDecTcVar s) s 8 .insufficientData) ∧
      (k = 0 → DecodesTo (exec .acnDecTcVar s) s 8 0) ∧
      (1 ≤ k → k ≤ 8 → room (8 + 8 * k) s →
        ReadsSigned (exec .acnDecTcVar s) s (8 + 8 * k) (8 * k) (memRead s.buf (s.pos + 8) (8 * k))))

/-! ### BCD -/

/-- ACN_ENC_BCD_CONST (R241) and ACN_DEC_BCD_CONST (R242). -/
def Obligations.BcdConstantSize : Prop :=
  ∀ (s : State) (n : Nat) (v : Int), Ready s →
    (1 ≤ n → n ≤ 20 →
      (0 ≤ v → v < 2 ^ 64 → v < 10 ^ n → room (4 * n) s →
        EncodesRun (exec (.acnEncBcdConst n v) s) s 4 n (fun i => v.toNat / 10 ^ (n - 1 - i) % 10)) ∧
      (v < 0 ∨ (v < 2 ^ 64 ∧ 10 ^ n ≤ v) → FailsWith (exec (.acnEncBcdConst n v) s) s .invalidValue) ∧
      (0 ≤ v → v < 2 ^ 64 → v < 10 ^ n → ¬ room (4 * n) s →
        FailsWith (exec (.acnEncBcdConst n v) s) s .insufficientData) ∧
      (¬ room (4 * n) s → FailsWith (exec (.acnDecBcdConst n) s) s .insufficientData) ∧
      (room (4 * n) s → (∀ i < n, nibbleAt s.buf s.pos i ≤ 9) →
        (decimalAt s.buf s.pos n < 2 ^ 64 →
          DecodesTo (exec (.acnDecBcdConst n) s) s (4 * n) (decimalAt s.buf s.pos n)) ∧
        (2 ^ 64 ≤ decimalAt s.buf s.pos n →
          FailsAfter (exec (.acnDecBcdConst n) s) s (4 * n) .invalidValue)) ∧
      (room (4 * n) s → ∀ j < n, (∀ i < j, nibbleAt s.buf s.pos i ≤ 9) → 9 < nibbleAt s.buf s.pos j →
        FailsAfter (exec (.acnDecBcdConst n) s) s (4 * (j + 1)) .invalidValue)) ∧
    (n < 1 ∨ 20 < n → RaisesContractFault (exec (.acnEncBcdConst n v) s) s ∧
      RaisesContractFault (exec (.acnDecBcdConst n) s) s) ∧
    (2 ^ 64 ≤ v → RaisesContractFault (exec (.acnEncBcdConst n v) s) s)

/-- ACN_ENC_BCD_VAR (R243) and ACN_DEC_BCD_VAR (R244). -/
def Obligations.BcdLengthEmbedded : Prop :=
  ∀ (s : State) (v : Int) (d : Nat), Ready s →
    (0 ≤ v → v < 2 ^ 64 → IsDigitCount v d →
      (room (8 + 4 * d) s →
        WritesCounted (exec (.acnEncBcdVar v) s) s d 4 d (fun i => v.toNat / 10 ^ (d - 1 - i) % 10)) ∧
      (¬ room (8 + 4 * d) s → FailsWith (exec (.acnEncBcdVar v) s) s .insufficientData)) ∧
    (v < 0 → FailsWith (exec (.acnEncBcdVar v) s) s .invalidValue) ∧
    (2 ^ 64 ≤ v → RaisesContractFault (exec (.acnEncBcdVar v) s) s) ∧
    (¬ room 8 s → FailsWith (exec .acnDecBcdVar s) s .insufficientData) ∧
    (room 8 s → memRead s.buf s.pos 8 = d →
      (20 < d → FailsAfter (exec .acnDecBcdVar s) s 8 .invalidValue) ∧
      (d ≤ 20 → ¬ room (8 + 4 * d) s → FailsAfter (exec .acnDecBcdVar s) s 8 .insufficientData) ∧
      (d ≤ 20 → room (8 + 4 * d) s → (∀ i < d, nibbleAt s.buf (s.pos + 8) i ≤ 9) →
        (decimalAt s.buf (s.pos + 8) d < 2 ^ 64 →
          DecodesTo (exec .acnDecBcdVar s) s (8 + 4 * d) (decimalAt s.buf (s.pos + 8) d)) ∧
        (2 ^ 64 ≤ decimalAt s.buf (s.pos + 8) d →
          FailsAfter (exec .acnDecBcdVar s) s (8 + 4 * d) .invalidValue)) ∧
      (d ≤ 20 → room (8 + 4 * d) s → ∀ j < d, (∀ i < j, nibbleAt s.buf (s.pos + 8) i ≤ 9) →
        9 < nibbleAt s.buf (s.pos + 8) j →
        FailsAfter (exec .acnDecBcdVar s) s (8 + 4 * (j + 1)) .invalidValue))

/-- ACN_ENC_BCD_NT (R245) and ACN_DEC_BCD_NT (R246). -/
def Obligations.BcdTerminated : Prop :=
  ∀ (s : State) (v : Int) (d : Nat), Ready s →
    (0 ≤ v → v < 2 ^ 64 → IsDigitCount v d →
      (room (4 * d + 4) s →
        EncodesRun (exec (.acnEncBcdNt v) s) s 4 (d + 1)
          (fun i => if i = d then 15 else v.toNat / 10 ^ (d - 1 - i) % 10)) ∧
      (¬ room (4 * d + 4) s → FailsWith (exec (.acnEncBcdNt v) s) s .insufficientData)) ∧
    (v < 0 → FailsWith (exec (.acnEncBcdNt v) s) s .invalidValue) ∧
    (2 ^ 64 ≤ v → RaisesContractFault (exec (.acnEncBcdNt v) s) s) ∧
    (d ≤ 20 → (∀ i < d, nibbleAt s.buf s.pos i ≤ 9) →
      (room (4 * d + 4) s → nibbleAt s.buf s.pos d = 15 → decimalAt s.buf s.pos d < 2 ^ 64 →
        DecodesTo (exec .acnDecBcdNt s) s (4 * d + 4) (decimalAt s.buf s.pos d)) ∧
      (room (4 * d + 4) s → nibbleAt s.buf s.pos d = 15 → 2 ^ 64 ≤ decimalAt s.buf s.pos d →
        FailsAfter (exec .acnDecBcdNt s) s (4 * d + 4) .invalidValue) ∧
      (room (4 * d + 4) s → 9 < nibbleAt s.buf s.pos d → nibbleAt s.buf s.pos d ≠ 15 →
        FailsAfter (exec .acnDecBcdNt s) s (4 * d + 4) .invalidValue) ∧
      (d = 0 ∨ room (4 * d) s → ¬ room (4 * d + 4) s →
        FailsAfter (exec .acnDecBcdNt s) s (4 * d) .insufficientData)) ∧
    (room 84 s → (∀ i < 21, nibbleAt s.buf s.pos i ≤ 9) → FailsAfter (exec .acnDecBcdNt s) s 84 .invalidValue)

/-! ### Reals and stubs -/

/-- ACN_ENC_REAL32_BE, ACN_DEC_REAL32_BE, ACN_ENC_REAL64_BE, ACN_DEC_REAL64_BE (R262, R263, R266, R267). -/
def Obligations.RealsBigEndian : Prop :=
  ∀ (s : State) (v : Int), Ready s →
    (fitsU v 32 → room 32 s → EncodesField (exec (.acnEncReal32Be v) s) s 32 v.toNat) ∧
    (fitsU v 32 → ¬ room 32 s → FailsWith (exec (.acnEncReal32Be v) s) s .insufficientData) ∧
    (¬ fitsU v 32 → RaisesContractFault (exec (.acnEncReal32Be v) s) s) ∧
    (room 32 s → DecodesTo (exec .acnDecReal32Be s) s 32 (memRead s.buf s.pos 32)) ∧
    (¬ room 32 s → FailsWith (exec .acnDecReal32Be s) s .insufficientData) ∧
    (fitsU v 64 → room 64 s → EncodesField (exec (.acnEncReal64Be v) s) s 64 v.toNat) ∧
    (fitsU v 64 → ¬ room 64 s → FailsWith (exec (.acnEncReal64Be v) s) s .insufficientData) ∧
    (¬ fitsU v 64 → RaisesContractFault (exec (.acnEncReal64Be v) s) s) ∧
    (room 64 s → DecodesTo (exec .acnDecReal64Be s) s 64 (memRead s.buf s.pos 64)) ∧
    (¬ room 64 s → FailsWith (exec .acnDecReal64Be s) s .insufficientData)

/-- ACN_ENC_REAL32_LE, ACN_DEC_REAL32_LE, ACN_ENC_REAL64_LE, ACN_DEC_REAL64_LE (R264, R265, R268, R269). -/
def Obligations.RealsLittleEndian : Prop :=
  ∀ (s : State) (v : Int), Ready s →
    (fitsU v 32 → room 32 s → EncodesRun (exec (.acnEncReal32Le v) s) s 8 4 (fun i => v.toNat / 256 ^ i % 256)) ∧
    (fitsU v 32 → ¬ room 32 s → FailsWith (exec (.acnEncReal32Le v) s) s .insufficientData) ∧
    (¬ fitsU v 32 → RaisesContractFault (exec (.acnEncReal32Le v) s) s) ∧
    (room 32 s → DecodesTo (exec .acnDecReal32Le s) s 32 (littleEndianAt s.buf s.pos 4)) ∧
    (¬ room 32 s → FailsWith (exec .acnDecReal32Le s) s .insufficientData) ∧
    (fitsU v 64 → room 64 s → EncodesRun (exec (.acnEncReal64Le v) s) s 8 8 (fun i => v.toNat / 256 ^ i % 256)) ∧
    (fitsU v 64 → ¬ room 64 s → FailsWith (exec (.acnEncReal64Le v) s) s .insufficientData) ∧
    (¬ fitsU v 64 → RaisesContractFault (exec (.acnEncReal64Le v) s) s) ∧
    (room 64 s → DecodesTo (exec .acnDecReal64Le s) s 64 (littleEndianAt s.buf s.pos 8)) ∧
    (¬ room 64 s → FailsWith (exec .acnDecReal64Le s) s .insufficientData)

/-- ACN_STUB (R280): the sixteen opcodes answer UNSUPPORTED_OPERATION and change no state; a faulted block raises
ContractFault. -/
def Obligations.StubsAnswerUnsupported : Prop :=
  ∀ (s : State) (which : Nat), (s.fault = false → FailsWith (exec (.acnStub which) s) s .unsupportedOperation) ∧
    (s.fault = true → RaisesContractFault (exec (.acnStub which) s) s)

/-! ### DOUT -/

/-- After a success of a command that returns no bytes DOUT is the empty sequence. For the commands of
40_bitbuffer.md that is its R124(c); for the codec commands, on which the spec is silent, it is the model's choice (log
entry 21). -/
def Obligations.DoutIsEmptyUnlessBytesReturned : Prop :=
  ∀ (i : Instr) (s t : State), exec i s = .next t → t.success = true → returnsBytes i = false → t.dout = []
end

