-- ==== Sys2Proof/Laws/Decode.lean ====
section
/-!
SUPPORT. The fields of a header the encoder writes, and the ports it fills: what the decoder reads back from each
(30_encoding.md R80, R82).
-/

namespace Sys2Proof

theorem header_toNat {op n fl : Nat} (hop : op < 256) (hn : n < 256) (hfl : fl < 8) :
    (header op n fl).toNat = op + 256 * n + 65536 * fl := by
  rw [header, BitVec.toNat_ofNat, Nat.mod_eq_of_lt (by omega)]

theorem reservedField_header {op n fl : Nat} (hop : op < 256) (hn : n < 256) (hfl : fl < 8) :
    reservedField (header op n fl) = 0 := by
  rw [reservedField, header_toNat hop hn hfl]; omega

theorem opField_header {op n fl : Nat} (hop : op < 256) (hn : n < 256) (hfl : fl < 8) :
    opField (header op n fl) = op := by
  rw [opField, header_toNat hop hn hfl]; omega

theorem nField_header {op n fl : Nat} (hop : op < 256) (hn : n < 256) (hfl : fl < 8) :
    nField (header op n fl) = n := by
  rw [nField, header_toNat hop hn hfl]; omega

theorem flags_lt (lo hi n : Bool) : flags lo hi n < 8 := by
  cases lo <;> cases hi <;> cases n <;> decide

theorem header_bit {op n fl : Nat} (hop : op < 256) (hn : n < 256) (hfl : fl < 8) (i : Nat) :
    (header op n fl).getLsbD (16 + i) = fl.testBit i := by
  rw [← BitVec.testBit_toNat, header_toNat hop hn hfl, Nat.testBit_eq_decide_div_mod_eq, Nat.testBit_eq_decide_div_mod_eq,
    Nat.pow_add, ← Nat.div_div_eq_div_mul, show (op + 256 * n + 65536 * fl) / 2 ^ 16 = fl by omega]

theorem hasLo_header {op n : Nat} (hop : op < 256) (hn : n < 256) (a b c : Bool) :
    hasLo (header op n (flags a b c)) = a := by
  rw [hasLo, header_bit hop hn (flags_lt a b c) 0]; cases a <;> cases b <;> cases c <;> decide

theorem hasHi_header {op n : Nat} (hop : op < 256) (hn : n < 256) (a b c : Bool) :
    hasHi (header op n (flags a b c)) = b := by
  rw [hasHi, header_bit hop hn (flags_lt a b c) 1]; cases a <;> cases b <;> cases c <;> decide

theorem hasN_header {op n : Nat} (hop : op < 256) (hn : n < 256) (a b c : Bool) :
    hasN (header op n (flags a b c)) = c := by
  rw [hasN, header_bit hop hn (flags_lt a b c) 2]; cases a <;> cases b <;> cases c <;> decide

/-- A value port carries every well-formed value. -/
theorem toInt_valuePort {v : Int} (h : valueWf v = true) : (BitVec.ofInt 65 v).toInt = v := by
  simp only [valueWf, decide_eq_true_eq] at h
  rw [BitVec.toInt_ofInt, Int.bmod_def]
  norm_num
  omega

/-- The count port carries every well-formed count. -/
theorem toNat_countPort {p : Nat} (h : portPWf p = true) : (BitVec.ofNat 32 p).toNat = p := by
  simp only [portPWf, decide_eq_true_eq] at h
  rw [BitVec.toNat_ofNat, Nat.mod_eq_of_lt (by omega)]

end Sys2Proof
end

