-- ==== Sys2Proof/Laws/Memory.lean ====
section
/-!
SUPPORT. The laws of the buffer: read after write on bytes, bits and fields, and the canonical form, which every
memory operation keeps.
-/

namespace Sys2Proof.Machine

/-! ### Bytes -/

theorem Memory.wfFrom_mono {lo lo' : Nat} {m : Memory} (h : lo' ≤ lo) (hm : Memory.wfFrom lo m = true) :
    Memory.wfFrom lo' m = true := by
  cases m with
  | nil => rfl
  | cons c m =>
    obtain ⟨a, b⟩ := c
    simp only [Memory.wfFrom, Bool.and_eq_true, decide_eq_true_eq] at hm ⊢
    exact ⟨⟨by omega, hm.1.2⟩, hm.2⟩

theorem readByte_below {lo a : Nat} {m : Memory} (hm : Memory.wfFrom lo m = true) (h : a < lo) :
    readByte m a = 0 := by
  induction m generalizing lo with
  | nil => rfl
  | cons c m ih =>
    obtain ⟨a', b⟩ := c
    simp only [Memory.wfFrom, Bool.and_eq_true, decide_eq_true_eq] at hm
    rw [readByte, if_neg (by omega)]
    exact ih hm.2 (by omega)

theorem readByte_writeByte {lo : Nat} {m : Memory} (hm : Memory.wfFrom lo m = true) (a x : Nat) (b : Byte) :
    readByte (writeByte m a b) x = if x = a then b else readByte m x := by
  induction m generalizing lo with
  | nil =>
    rw [writeByte]
    split_ifs with hb hx hx <;> simp [readByte, *]
  | cons c m ih =>
    obtain ⟨a', b'⟩ := c
    simp only [Memory.wfFrom, Bool.and_eq_true, decide_eq_true_eq] at hm
    obtain ⟨⟨-, -⟩, hrest⟩ := hm
    rw [writeByte]
    rcases Nat.lt_trichotomy a a' with h | h | h
    · rw [if_pos h]
      by_cases hb : b = 0
      · rw [if_pos hb]
        by_cases hx : x = a
        · rw [if_pos hx, readByte, if_neg (by omega), readByte_below hrest (by omega), hb]
        · rw [if_neg hx]
      · rw [if_neg hb, readByte]
    · subst h
      rw [if_neg (Nat.lt_irrefl a), if_pos rfl]
      by_cases hb : b = 0
      · rw [if_pos hb, readByte]
        by_cases hx : x = a
        · rw [if_pos hx, hx, readByte_below hrest (by omega), hb]
        · rw [if_neg hx, if_neg hx]
      · rw [if_neg hb, readByte, readByte]
        by_cases hx : x = a
        · rw [if_pos hx, if_pos hx]
        · rw [if_neg hx, if_neg hx, if_neg hx]
    · rw [if_neg (by omega), if_neg (by omega), readByte, readByte, ih hrest]
      by_cases hx : x = a'
      · rw [if_pos hx, if_neg (by omega), if_pos hx]
      · rw [if_neg hx, if_neg hx]

theorem Memory.wfFrom_writeByte {lo : Nat} {m : Memory} (hm : Memory.wfFrom lo m = true) {a : Nat} (h : lo ≤ a)
    (b : Byte) : Memory.wfFrom lo (writeByte m a b) = true := by
  induction m generalizing lo with
  | nil =>
    rw [writeByte]
    split_ifs with hb
    · rfl
    · simp only [Memory.wfFrom, Bool.and_eq_true, decide_eq_true_eq]
      exact ⟨⟨h, hb⟩, trivial⟩
  | cons c m ih =>
    obtain ⟨a', b'⟩ := c
    have hm' := hm
    simp only [Memory.wfFrom, Bool.and_eq_true, decide_eq_true_eq] at hm'
    obtain ⟨⟨hlo, hb'⟩, hrest⟩ := hm'
    rw [writeByte]
    split_ifs with h1 h2 h3 h4
    · exact hm
    · simp only [Memory.wfFrom, Bool.and_eq_true, decide_eq_true_eq]
      exact ⟨⟨h, h2⟩, ⟨by omega, hb'⟩, hrest⟩
    · exact Memory.wfFrom_mono (by omega) hrest
    · subst h3
      simp only [Memory.wfFrom, Bool.and_eq_true, decide_eq_true_eq]
      exact ⟨⟨h, h4⟩, hrest⟩
    · simp only [Memory.wfFrom, Bool.and_eq_true, decide_eq_true_eq]
      exact ⟨⟨hlo, hb'⟩, ih hrest (by omega)⟩

theorem Memory.wf_writeByte {m : Memory} (hm : m.wf = true) (a : Nat) (b : Byte) : (writeByte m a b).wf = true :=
  Memory.wfFrom_writeByte hm (Nat.zero_le a) b

theorem readByte_writeByte_same {m : Memory} (hm : m.wf = true) (a : Nat) (b : Byte) :
    readByte (writeByte m a b) a = b := by rw [readByte_writeByte hm, if_pos rfl]

theorem readByte_writeByte_other {m : Memory} (hm : m.wf = true) {a x : Nat} (h : x ≠ a) (b : Byte) :
    readByte (writeByte m a b) x = readByte m x := by rw [readByte_writeByte hm, if_neg h]

/-- Canonical buffers that read alike are the same data. -/
theorem Memory.ext_of_wfFrom {lo : Nat} {m m' : Memory} (hm : Memory.wfFrom lo m = true)
    (hm' : Memory.wfFrom lo m' = true) (h : ∀ a, readByte m a = readByte m' a) : m = m' := by
  induction m generalizing lo m' with
  | nil =>
    cases m' with
    | nil => rfl
    | cons c m' =>
      obtain ⟨a, b⟩ := c
      simp only [Memory.wfFrom, Bool.and_eq_true, decide_eq_true_eq] at hm'
      have := h a
      simp only [readByte, if_true] at this
      exact absurd this.symm hm'.1.2
  | cons c m ih =>
    obtain ⟨a, b⟩ := c
    have hmc := hm
    simp only [Memory.wfFrom, Bool.and_eq_true, decide_eq_true_eq] at hm
    cases m' with
    | nil =>
      have := h a
      simp only [readByte, if_true] at this
      exact absurd this hm.1.2
    | cons c' m' =>
      obtain ⟨a', b'⟩ := c'
      have hmc' := hm'
      simp only [Memory.wfFrom, Bool.and_eq_true, decide_eq_true_eq] at hm'
      have haa : a = a' := by
        rcases Nat.lt_trichotomy a a' with hlt | heq | hgt
        · have hx := h a
          rw [readByte, if_pos rfl, readByte, if_neg (by omega), readByte_below hm'.2 (by omega)] at hx
          exact absurd hx hm.1.2
        · exact heq
        · have hx := h a'
          rw [readByte, if_neg (by omega), readByte_below hm.2 (by omega), readByte, if_pos rfl] at hx
          exact absurd hx.symm hm'.1.2
      subst haa
      have hbb : b = b' := by simpa [readByte] using h a
      subst hbb
      congr 1
      refine ih hm.2 hm'.2 fun x => ?_
      by_cases hx : x = a
      · subst hx
        rw [readByte_below hm.2 (by omega), readByte_below hm'.2 (by omega)]
      · simpa [readByte, hx] using h x

/-- Canonical buffers that read alike are the same data. -/
theorem Memory.ext_of_wf {m m' : Memory} (hm : m.wf = true) (hm' : m'.wf = true)
    (h : ∀ a, readByte m a = readByte m' a) : m = m' := Memory.ext_of_wfFrom hm hm' h

/-! ### Bits -/

theorem getLsbD_putBit {x : Byte} {i j : Nat} (hj : j < 8) (b : Bool) :
    (putBit x i b).getLsbD j = if j = i then b else x.getLsbD j := by
  cases b with
  | true =>
    simp only [putBit, if_true, BitVec.getLsbD_or, BitVec.getLsbD_twoPow]
    by_cases h : j = i
    · subst h; simp [hj]
    · simp [h, Ne.symm h]
  | false =>
    simp only [putBit, Bool.false_eq_true, if_false, BitVec.getLsbD_and, BitVec.getLsbD_not, BitVec.getLsbD_twoPow]
    by_cases h : j = i
    · subst h; simp [hj]
    · simp [h, Ne.symm h, hj]

theorem bitAt_setBitAt {m : Memory} (hm : m.wf = true) (p q : Nat) (b : Bool) :
    bitAt (setBitAt m p b) q = if q = p then b else bitAt m q := by
  unfold bitAt setBitAt
  rw [readByte_writeByte hm]
  by_cases h8 : q / 8 = p / 8
  · rw [if_pos h8, getLsbD_putBit (by omega), h8]
    by_cases hq : q = p
    · subst hq; simp
    · rw [if_neg hq, if_neg (by omega)]
  · rw [if_neg h8, if_neg (by rintro rfl; exact h8 rfl)]

theorem Memory.wf_setBitAt {m : Memory} (hm : m.wf = true) (p : Nat) (b : Bool) : (setBitAt m p b).wf = true :=
  Memory.wf_writeByte hm _ _

/-- Two bytes with the same bits of BUF are the same byte. -/
theorem readByte_eq_of_bits {m m' : Memory} {a : Nat} (h : ∀ i, i < 8 → bitAt m (8 * a + i) = bitAt m' (8 * a + i)) :
    readByte m a = readByte m' a := by
  apply BitVec.eq_of_getLsbD_eq
  intro i hi
  have := h (7 - i) (by omega)
  unfold bitAt at this
  rw [show (8 * a + (7 - i)) / 8 = a by omega, show 7 - (8 * a + (7 - i)) % 8 = i by omega] at this
  exact this

/-! ### Fields -/

theorem Memory.wf_memWrite {m : Memory} (hm : m.wf = true) (p n v : Nat) : (memWrite m p n v).wf = true := by
  induction n generalizing v with
  | zero => exact hm
  | succ n ih => exact Memory.wf_setBitAt (ih _) _ _

/-- MemWrite sets exactly the addressed bits (20_memory.md R53). -/
theorem bitAt_memWrite {m : Memory} (hm : m.wf = true) (p n v q : Nat) :
    bitAt (memWrite m p n v) q = if p ≤ q ∧ q < p + n then v.testBit (p + n - 1 - q) else bitAt m q := by
  induction n generalizing v with
  | zero =>
    rw [memWrite, if_neg (by omega)]
  | succ n ih =>
    rw [memWrite, bitAt_setBitAt (Memory.wf_memWrite hm _ _ _), ih]
    by_cases hq : q = p + n
    · subst hq
      rw [if_pos rfl, if_pos (by omega), show p + (n + 1) - 1 - (p + n) = 0 by omega, Nat.testBit_zero]
    · rw [if_neg hq]
      by_cases hin : p ≤ q ∧ q < p + n
      · rw [if_pos hin, if_pos (by omega), show p + (n + 1) - 1 - q = (p + n - 1 - q) + 1 by omega,
          Nat.testBit_succ]
      · rw [if_neg hin, if_neg (by omega)]

theorem bitAt_memWrite_outside {m : Memory} (hm : m.wf = true) {p n q : Nat} (h : q < p ∨ p + n ≤ q) (v : Nat) :
    bitAt (memWrite m p n v) q = bitAt m q := by
  rw [bitAt_memWrite hm, if_neg (by omega)]

theorem readByte_memWrite_outside {m : Memory} (hm : m.wf = true) {p n a : Nat} (h : 8 * a + 8 ≤ p ∨ p + n ≤ 8 * a)
    (v : Nat) : readByte (memWrite m p n v) a = readByte m a :=
  readByte_eq_of_bits fun i hi => bitAt_memWrite_outside hm (by omega) v

theorem memRead_lt (m : Memory) (p n : Nat) : memRead m p n < 2 ^ n := by
  induction n with
  | zero => simp [memRead]
  | succ n ih =>
    rw [memRead, Nat.pow_succ]
    have := Bool.toNat_le (bitAt m (p + n))
    omega

/-- MemRead depends on the addressed bits alone. -/
theorem memRead_congr {m m' : Memory} {p n : Nat} (h : ∀ q, p ≤ q → q < p + n → bitAt m q = bitAt m' q) :
    memRead m p n = memRead m' p n := by
  induction n with
  | zero => rfl
  | succ n ih =>
    rw [memRead, memRead, ih fun q h1 h2 => h q h1 (by omega), h (p + n) (by omega) (by omega)]

theorem memRead_memWrite_outside {m : Memory} (hm : m.wf = true) {p n q k : Nat} (h : q + k ≤ p ∨ p + n ≤ q)
    (v : Nat) : memRead (memWrite m p n v) q k = memRead m q k :=
  memRead_congr fun _ h1 h2 => bitAt_memWrite_outside hm (by omega) v

/-- Read after write: the field just written (20_memory.md R53). -/
theorem memRead_memWrite {m : Memory} (hm : m.wf = true) (p n : Nat) {v : Nat} (hv : v < 2 ^ n) :
    memRead (memWrite m p n v) p n = v := by
  induction n generalizing v with
  | zero =>
    rw [Nat.pow_zero] at hv
    rw [memRead]
    omega
  | succ n ih =>
    rw [Nat.pow_succ] at hv
    have hlow : bitAt (memWrite m p (n + 1) v) (p + n) = decide (v % 2 = 1) := by
      rw [memWrite, bitAt_setBitAt (Memory.wf_memWrite hm _ _ _), if_pos rfl]
    have hhigh : memRead (memWrite m p (n + 1) v) p n = v / 2 := by
      rw [← ih (v := v / 2) (by omega)]
      refine memRead_congr fun q h1 h2 => ?_
      rw [memWrite, bitAt_setBitAt (Memory.wf_memWrite hm _ _ _), if_neg (by omega)]
    rw [memRead, hlow, hhigh]
    rcases Nat.mod_two_eq_zero_or_one v with h | h <;> simp [h] <;> omega

end Sys2Proof.Machine
end

