-- ==== Sys2Proof/Laws/Operands.lean ====
section
/-!
SUPPORT. What the helper functions of 00_scope.md R9 and R10 compute: each lemma is the function's defining property.
-/

namespace Sys2Proof.Machine

/-! ### Widths and counts -/

theorem lt_two_pow_bitLength (x : Nat) : x < 2 ^ bitLength x := by
  unfold bitLength
  split_ifs with h
  · simp [h]
  · exact (Nat.log2_lt h).mp (Nat.lt_succ_self _)

/-- `bit_length(x)` is the least `k` with `x < 2^k`. -/
theorem bitLength_le {x k : Nat} (h : x < 2 ^ k) : bitLength x ≤ k := by
  unfold bitLength
  split_ifs with h0
  · exact Nat.zero_le k
  · exact (Nat.log2_lt h0).mpr h

theorem bitLength_le_iff {x k : Nat} : bitLength x ≤ k ↔ x < 2 ^ k :=
  ⟨fun h => lt_of_lt_of_le (lt_two_pow_bitLength x) (Nat.pow_le_pow_right (by omega) h), bitLength_le⟩

theorem one_le_ubytes (v : Nat) : 1 ≤ ubytes v := Nat.le_max_left _ _

theorem lt_two_pow_ubytes (v : Nat) : v < 2 ^ (8 * ubytes v) :=
  bitLength_le_iff.mp (by unfold ubytes; omega)

theorem ubytes_le_eight {v : Nat} (h : v < 2 ^ 64) : ubytes v ≤ 8 := by
  have := bitLength_le h
  unfold ubytes
  omega

theorem one_le_sbytes (v : Int) : 1 ≤ sbytes v := by
  unfold sbytes
  split_ifs <;> exact Nat.le_max_left _ _

theorem two_pow_cast (n : Nat) : ((2 ^ n : Nat) : Int) = 2 ^ n := by push_cast; rfl

theorem fitsS_sbytes (v : Int) : fitsS v (8 * sbytes v) := by
  unfold sbytes
  split_ifs with h
  · obtain ⟨n, rfl⟩ := Int.eq_ofNat_of_zero_le h
    have hlt : n < 2 ^ (8 * max 1 ((bitLength n + 1 + 7) / 8) - 1) := bitLength_le_iff.mp (by omega)
    have hc : (n : Int) < 2 ^ (8 * max 1 ((bitLength n + 1 + 7) / 8) - 1) := by exact_mod_cast hlt
    simp only [Int.toNat_natCast]
    exact ⟨by omega, by omega⟩
  · obtain ⟨n, hn⟩ := Int.eq_ofNat_of_zero_le (a := -v - 1) (by omega)
    have hlt : n < 2 ^ (8 * max 1 ((bitLength n + 1 + 7) / 8) - 1) := bitLength_le_iff.mp (by omega)
    have hc : (n : Int) < 2 ^ (8 * max 1 ((bitLength n + 1 + 7) / 8) - 1) := by exact_mod_cast hlt
    simp only [hn, Int.toNat_natCast]
    exact ⟨by omega, by omega⟩

theorem sbytes_le_eight {v : Int} (h : fitsS v 64) : sbytes v ≤ 8 := by
  obtain ⟨h1, h2⟩ := h
  norm_num at h1 h2
  unfold sbytes
  split_ifs with h0
  · have : bitLength v.toNat ≤ 63 := bitLength_le (by omega)
    omega
  · have : bitLength (-v - 1).toNat ≤ 63 := bitLength_le (by omega)
    omega

/-! ### Two's complement -/

theorem toU_lt {v : Int} {n : Nat} (hn : 1 ≤ n) (h : fitsS v n) : toU v n < 2 ^ n := by
  obtain ⟨n, rfl⟩ := Nat.exists_eq_add_of_le' hn
  obtain ⟨h1, h2⟩ := h
  simp only [Nat.add_sub_cancel] at h1 h2
  have hp : (2 : Int) ^ (n + 1) = 2 * 2 ^ n := by ring
  have hc := two_pow_cast (n + 1)
  have hpos : (0 : Int) < 2 ^ n := by positivity
  unfold toU
  split_ifs with h0 <;> omega

/-- The field of a value reads back, sign-extended, as the value. -/
theorem sext_toU {v : Int} {n : Nat} (hn : 1 ≤ n) (h : fitsS v n) : sext n (toU v n) = v := by
  obtain ⟨n, rfl⟩ := Nat.exists_eq_add_of_le' hn
  obtain ⟨h1, h2⟩ := h
  simp only [Nat.add_sub_cancel] at h1 h2
  have hp : (2 : Int) ^ (n + 1) = 2 * 2 ^ n := by ring
  have hc := two_pow_cast n
  have hpos : (0 : Int) < 2 ^ n := by positivity
  unfold sext toU
  simp only [Nat.add_sub_cancel]
  split_ifs with h0 h3 h4 <;> omega

/-- A sign-extended field lies in the field's two's-complement range. -/
theorem fitsS_sext {n u : Nat} (hn : 1 ≤ n) (hu : u < 2 ^ n) : fitsS (sext n u) n := by
  obtain ⟨n, rfl⟩ := Nat.exists_eq_add_of_le' hn
  have hp : (2 : Int) ^ (n + 1) = 2 * 2 ^ n := by ring
  have hc := two_pow_cast n
  have hc' := two_pow_cast (n + 1)
  have hpos : (0 : Int) < 2 ^ n := by positivity
  unfold sext
  simp only [Nat.add_sub_cancel, fitsS]
  split_ifs with h <;> constructor <;> omega

/-! ### Bytes and digits -/

@[simp] theorem leBytes_length (k u : Nat) : (leBytes k u).length = k := by simp [leBytes]

theorem leBytes_succ (k u : Nat) : leBytes (k + 1) u = BitVec.ofNat 8 (u % 256) :: leBytes k (u / 256) := by
  unfold leBytes
  rw [List.range_succ_eq_map, List.map_cons, List.map_map]
  refine congrArg₂ _ (by simp [byteI]) (List.map_congr_left fun i _ => ?_)
  simp only [Function.comp, byteI, Nat.pow_succ, Nat.succ_eq_add_one]
  rw [Nat.mul_comm, ← Nat.div_div_eq_div_mul]

/-- The bytes of an integer, put together again. -/
theorem leValue_leBytes {k u : Nat} (h : u < 256 ^ k) : leValue (leBytes k u) = u := by
  induction k generalizing u with
  | zero => rw [Nat.pow_zero] at h; simp [leBytes, leValue]; omega
  | succ k ih =>
    rw [Nat.pow_succ] at h
    rw [leBytes_succ, leValue, ih (by omega), BitVec.toNat_ofNat]
    omega

theorem leValue_lt (bs : List Byte) : leValue bs < 256 ^ bs.length := by
  induction bs with
  | nil => simp [leValue]
  | cons b bs ih =>
    rw [leValue, List.length_cons, Nat.pow_succ]
    have := b.isLt
    omega

theorem ndigitsUpTo_spec {fuel v : Nat} (h : v < 10 ^ (fuel + 1)) :
    v < 10 ^ ndigitsUpTo fuel v ∧ 1 ≤ ndigitsUpTo fuel v ∧
      (ndigitsUpTo fuel v = 1 ∨ 10 ^ (ndigitsUpTo fuel v - 1) ≤ v) := by
  induction fuel generalizing v with
  | zero => simpa [ndigitsUpTo] using h
  | succ fuel ih =>
    rw [ndigitsUpTo]
    split_ifs with hv
    · exact ⟨by simpa using hv, le_refl 1, Or.inl rfl⟩
    · have hd : v / 10 < 10 ^ (fuel + 1) := by
        have := Nat.pow_succ (n := 10) (m := fuel + 1)
        omega
      obtain ⟨h1, h2, h3⟩ := ih hd
      refine ⟨?_, by omega, Or.inr ?_⟩
      · rw [Nat.pow_succ]; omega
      · rw [Nat.add_sub_cancel]
        rcases h3 with h3 | h3
        · rw [h3]; omega
        · obtain ⟨e, he⟩ := Nat.exists_eq_add_of_le' h2
          rw [he] at h3 ⊢
          rw [Nat.add_sub_cancel] at h3
          rw [Nat.pow_succ]; omega

/-- `ndigits(v)` is the least `d ≥ 1` with `v < 10^d`. -/
theorem ndigits_spec (v : Nat) :
    v < 10 ^ ndigits v ∧ 1 ≤ ndigits v ∧ (ndigits v = 1 ∨ 10 ^ (ndigits v - 1) ≤ v) :=
  ndigitsUpTo_spec <| lt_of_lt_of_le (lt_two_pow_bitLength v) <|
    le_trans (Nat.pow_le_pow_left (by omega) _) (Nat.pow_le_pow_right (by omega) (Nat.le_succ _))

theorem ndigits_le {v d : Nat} (hd : 1 ≤ d) (h : v < 10 ^ d) : ndigits v ≤ d := by
  obtain ⟨-, -, h3 | h3⟩ := ndigits_spec v
  · omega
  · by_contra hlt
    have := Nat.pow_le_pow_right (n := 10) (by omega) (show d ≤ ndigits v - 1 by omega)
    omega

theorem digitI_lt (v i : Nat) : digitI v i < 10 := Nat.mod_lt _ (by omega)

/-! ### Padding -/

theorem pad_lt {a : Nat} (ha : 0 < a) (p : Nat) : pad a p < a := Nat.mod_lt _ ha

/-- `pad(a, p)` leads from `p` to a multiple of `a`. -/
theorem dvd_add_pad {a : Nat} (ha : 0 < a) (p : Nat) : a ∣ p + pad a p := by
  have hp := Nat.mod_lt p ha
  have hd := Nat.div_add_mod p a
  unfold pad
  rcases Nat.eq_zero_or_pos (p % a) with h | h
  · rw [h, Nat.sub_zero, Nat.mod_self, Nat.add_zero]
    exact Nat.dvd_of_mod_eq_zero h
  · rw [Nat.mod_eq_of_lt (by omega)]
    exact ⟨p / a + 1, by rw [Nat.mul_add, Nat.mul_one]; omega⟩

theorem pad_eq_zero {a p : Nat} (h : p % a = 0) : pad a p = 0 := by
  unfold pad; rw [h, Nat.sub_zero, Nat.mod_self]

end Sys2Proof.Machine
end

