-- ==== Sys2Proof/Laws/State.lean ====
section
/-!
SUPPORT. One lemma per field for every update of State that the operations make.
-/

namespace Sys2Proof.Machine

section
variable (s : State)

/-! ### `setOk` -/

@[simp] theorem setOk_cap (v : Int) (b : Nat) (d : List Byte) : (setOk v b d s).cap = s.cap := rfl
@[simp] theorem setOk_buf (v : Int) (b : Nat) (d : List Byte) : (setOk v b d s).buf = s.buf := rfl
@[simp] theorem setOk_pos (v : Int) (b : Nat) (d : List Byte) : (setOk v b d s).pos = s.pos := rfl
@[simp] theorem setOk_used (v : Int) (b : Nat) (d : List Byte) : (setOk v b d s).used = s.used := rfl
@[simp] theorem setOk_fault (v : Int) (b : Nat) (d : List Byte) : (setOk v b d s).fault = s.fault := rfl
@[simp] theorem setOk_success (v : Int) (b : Nat) (d : List Byte) : (setOk v b d s).success = true := rfl
@[simp] theorem setOk_err (v : Int) (b : Nat) (d : List Byte) : (setOk v b d s).err = .success := rfl
@[simp] theorem setOk_val (v : Int) (b : Nat) (d : List Byte) : (setOk v b d s).val = v := rfl
@[simp] theorem setOk_bits (v : Int) (b : Nat) (d : List Byte) : (setOk v b d s).bits = b := rfl
@[simp] theorem setOk_dout (v : Int) (b : Nat) (d : List Byte) : (setOk v b d s).dout = d := rfl
@[simp] theorem setOk_pending (v : Int) (b : Nat) (d : List Byte) : (setOk v b d s).pending = s.pending := rfl
@[simp] theorem setOk_freeIx (v : Int) (b : Nat) (d : List Byte) : (setOk v b d s).freeIx = s.freeIx := rfl

/-! ### `forgetPayload` -/

@[simp] theorem forgetPayload_cap : (forgetPayload s).cap = s.cap := rfl
@[simp] theorem forgetPayload_buf : (forgetPayload s).buf = s.buf := rfl
@[simp] theorem forgetPayload_pos : (forgetPayload s).pos = s.pos := rfl
@[simp] theorem forgetPayload_used : (forgetPayload s).used = s.used := rfl
@[simp] theorem forgetPayload_fault : (forgetPayload s).fault = s.fault := rfl
@[simp] theorem forgetPayload_success : (forgetPayload s).success = s.success := rfl
@[simp] theorem forgetPayload_err : (forgetPayload s).err = s.err := rfl
@[simp] theorem forgetPayload_val : (forgetPayload s).val = (Config.freeVal s.freeIx).toInt := rfl
@[simp] theorem forgetPayload_bits : (forgetPayload s).bits = (Config.freeBits s.freeIx).toNat := rfl
@[simp] theorem forgetPayload_dout : (forgetPayload s).dout = Config.freeDout s.freeIx := rfl
@[simp] theorem forgetPayload_pending : (forgetPayload s).pending = s.pending := rfl
@[simp] theorem forgetPayload_freeIx : (forgetPayload s).freeIx = s.freeIx + 1 := rfl

/-! ### `forgetResult` -/

@[simp] theorem forgetResult_cap : (forgetResult s).cap = s.cap := rfl
@[simp] theorem forgetResult_buf : (forgetResult s).buf = s.buf := rfl
@[simp] theorem forgetResult_pos : (forgetResult s).pos = s.pos := rfl
@[simp] theorem forgetResult_used : (forgetResult s).used = s.used := rfl
@[simp] theorem forgetResult_fault : (forgetResult s).fault = s.fault := rfl
@[simp] theorem forgetResult_success : (forgetResult s).success = Config.freeSuccess s.freeIx := rfl
@[simp] theorem forgetResult_err : (forgetResult s).err = Config.freeErr s.freeIx := rfl
@[simp] theorem forgetResult_val : (forgetResult s).val = (Config.freeVal s.freeIx).toInt := rfl
@[simp] theorem forgetResult_bits : (forgetResult s).bits = (Config.freeBits s.freeIx).toNat := rfl
@[simp] theorem forgetResult_dout : (forgetResult s).dout = Config.freeDout s.freeIx := rfl
@[simp] theorem forgetResult_pending : (forgetResult s).pending = s.pending := rfl
@[simp] theorem forgetResult_freeIx : (forgetResult s).freeIx = s.freeIx + 1 := rfl

/-! ### `setErr` -/

@[simp] theorem setErr_cap (c : ErrCode) : (setErr c s).cap = s.cap := rfl
@[simp] theorem setErr_buf (c : ErrCode) : (setErr c s).buf = s.buf := rfl
@[simp] theorem setErr_pos (c : ErrCode) : (setErr c s).pos = s.pos := rfl
@[simp] theorem setErr_used (c : ErrCode) : (setErr c s).used = s.used := rfl
@[simp] theorem setErr_fault (c : ErrCode) : (setErr c s).fault = s.fault := rfl
@[simp] theorem setErr_success (c : ErrCode) : (setErr c s).success = false := rfl
@[simp] theorem setErr_err (c : ErrCode) : (setErr c s).err = c := rfl
@[simp] theorem setErr_val (c : ErrCode) : (setErr c s).val = (Config.freeVal s.freeIx).toInt := rfl
@[simp] theorem setErr_bits (c : ErrCode) : (setErr c s).bits = (Config.freeBits s.freeIx).toNat := rfl
@[simp] theorem setErr_dout (c : ErrCode) : (setErr c s).dout = Config.freeDout s.freeIx := rfl
@[simp] theorem setErr_pending (c : ErrCode) : (setErr c s).pending = s.pending := rfl
@[simp] theorem setErr_freeIx (c : ErrCode) : (setErr c s).freeIx = s.freeIx + 1 := rfl

/-! ### `setFault` -/

@[simp] theorem setFault_cap : (setFault s).cap = s.cap := rfl
@[simp] theorem setFault_buf : (setFault s).buf = s.buf := rfl
@[simp] theorem setFault_pos : (setFault s).pos = s.pos := rfl
@[simp] theorem setFault_used : (setFault s).used = s.used := rfl
@[simp] theorem setFault_fault : (setFault s).fault = true := rfl
@[simp] theorem setFault_success : (setFault s).success = Config.freeSuccess s.freeIx := rfl
@[simp] theorem setFault_err : (setFault s).err = Config.freeErr s.freeIx := rfl
@[simp] theorem setFault_val : (setFault s).val = (Config.freeVal s.freeIx).toInt := rfl
@[simp] theorem setFault_bits : (setFault s).bits = (Config.freeBits s.freeIx).toNat := rfl
@[simp] theorem setFault_dout : (setFault s).dout = Config.freeDout s.freeIx := rfl
@[simp] theorem setFault_pending : (setFault s).pending = s.pending := rfl
@[simp] theorem setFault_freeIx : (setFault s).freeIx = s.freeIx + 1 := rfl

/-! ### `writeField` -/

@[simp] theorem writeField_cap (n v : Nat) : (writeField n v s).cap = s.cap := rfl
@[simp] theorem writeField_buf (n v : Nat) : (writeField n v s).buf = memWrite s.buf s.pos n v := rfl
@[simp] theorem writeField_pos (n v : Nat) : (writeField n v s).pos = s.pos + n := rfl
@[simp] theorem writeField_used (n v : Nat) : (writeField n v s).used = if 0 < n then max s.used (s.pos + n) else s.used := rfl
@[simp] theorem writeField_fault (n v : Nat) : (writeField n v s).fault = s.fault := rfl
@[simp] theorem writeField_success (n v : Nat) : (writeField n v s).success = s.success := rfl
@[simp] theorem writeField_err (n v : Nat) : (writeField n v s).err = s.err := rfl
@[simp] theorem writeField_val (n v : Nat) : (writeField n v s).val = s.val := rfl
@[simp] theorem writeField_bits (n v : Nat) : (writeField n v s).bits = s.bits := rfl
@[simp] theorem writeField_dout (n v : Nat) : (writeField n v s).dout = s.dout := rfl
@[simp] theorem writeField_pending (n v : Nat) : (writeField n v s).pending = s.pending := rfl
@[simp] theorem writeField_freeIx (n v : Nat) : (writeField n v s).freeIx = s.freeIx := rfl

/-! ### `skipBits` -/

@[simp] theorem skipBits_cap (n : Nat) : (skipBits n s).cap = s.cap := rfl
@[simp] theorem skipBits_buf (n : Nat) : (skipBits n s).buf = s.buf := rfl
@[simp] theorem skipBits_pos (n : Nat) : (skipBits n s).pos = s.pos + n := rfl
@[simp] theorem skipBits_used (n : Nat) : (skipBits n s).used = s.used := rfl
@[simp] theorem skipBits_fault (n : Nat) : (skipBits n s).fault = s.fault := rfl
@[simp] theorem skipBits_success (n : Nat) : (skipBits n s).success = s.success := rfl
@[simp] theorem skipBits_err (n : Nat) : (skipBits n s).err = s.err := rfl
@[simp] theorem skipBits_val (n : Nat) : (skipBits n s).val = s.val := rfl
@[simp] theorem skipBits_bits (n : Nat) : (skipBits n s).bits = s.bits := rfl
@[simp] theorem skipBits_dout (n : Nat) : (skipBits n s).dout = s.dout := rfl
@[simp] theorem skipBits_pending (n : Nat) : (skipBits n s).pending = s.pending := rfl
@[simp] theorem skipBits_freeIx (n : Nat) : (skipBits n s).freeIx = s.freeIx := rfl

/-! ### `moveTo` -/

@[simp] theorem moveTo_cap (p : Nat) : (moveTo p s).cap = s.cap := rfl
@[simp] theorem moveTo_buf (p : Nat) : (moveTo p s).buf = s.buf := rfl
@[simp] theorem moveTo_pos (p : Nat) : (moveTo p s).pos = p := rfl
@[simp] theorem moveTo_used (p : Nat) : (moveTo p s).used = s.used := rfl
@[simp] theorem moveTo_fault (p : Nat) : (moveTo p s).fault = s.fault := rfl
@[simp] theorem moveTo_success (p : Nat) : (moveTo p s).success = s.success := rfl
@[simp] theorem moveTo_err (p : Nat) : (moveTo p s).err = s.err := rfl
@[simp] theorem moveTo_val (p : Nat) : (moveTo p s).val = s.val := rfl
@[simp] theorem moveTo_bits (p : Nat) : (moveTo p s).bits = s.bits := rfl
@[simp] theorem moveTo_dout (p : Nat) : (moveTo p s).dout = s.dout := rfl
@[simp] theorem moveTo_pending (p : Nat) : (moveTo p s).pending = s.pending := rfl
@[simp] theorem moveTo_freeIx (p : Nat) : (moveTo p s).freeIx = s.freeIx := rfl

@[simp] theorem readField_fst (n : Nat) : (readField n s).1 = memRead s.buf s.pos n := rfl
@[simp] theorem readField_snd (n : Nat) : (readField n s).2 = skipBits n s := rfl
@[simp] theorem skipBits_zero : skipBits 0 s = s := rfl
@[simp] theorem skipBits_skipBits (m n : Nat) : skipBits n (skipBits m s) = skipBits (m + n) s := by
  simp [skipBits, Nat.add_assoc]

end

end Sys2Proof.Machine
end

