-- ==== Sys2Proof/Laws/Ops.lean ====
section
/-!
SUPPORT. One lemma per shared operation that says once everything it can do. A command's proof cites these instead of
unfolding the operation.
-/

namespace Sys2Proof.Machine

/-! ### Ends of a command -/

@[simp] theorem unlessFaulted_ready {s : State} (h : s.fault = false) (body : StepResult) :
    unlessFaulted s body = body := by simp [unlessFaulted, h]

@[simp] theorem unlessFaulted_faulted {s : State} (h : s.fault = true) (body : StepResult) :
    unlessFaulted s body = contractFault s := by simp [unlessFaulted, h]

theorem unlessFaulted_next {s t : State} {body : StepResult} (h : unlessFaulted s body = .next t) :
    s.fault = false ∧ body = .next t := by
  cases hf : s.fault with
  | false => exact ⟨rfl, by simpa [unlessFaulted, hf] using h⟩
  | true => simp [unlessFaulted, hf, contractFault] at h

@[simp] theorem contractFault_ne_next {s t : State} : contractFault s ≠ .next t := nofun
@[simp] theorem contractFault_ne_refused {s : State} {r : Refusal} : contractFault s ≠ .refused r := nofun
theorem ok_next {v : Int} {b : Nat} {d : List Byte} {s t : State} (h : ok v b d s = .next t) :
    t = setOk v b d s := by cases h; rfl
theorem fail_next {c : ErrCode} {s t : State} (h : fail c s = .next t) : t = setErr c s := by cases h; rfl

/-! ### Writes of one field -/

theorem wf_writeField {s : State} (h : s.buf.wf = true) (n v : Nat) : (writeField n v s).buf.wf = true :=
  Memory.wf_memWrite h _ _ _

/-! ### Runs of bytes -/

section
variable (bs : List Byte) (s : State)

@[simp] theorem writeBytes_cap : (writeBytes bs s).cap = s.cap := by
  induction bs generalizing s with
  | nil => rfl
  | cons b bs ih => simp [writeBytes, ih]

@[simp] theorem writeBytes_fault : (writeBytes bs s).fault = s.fault := by
  induction bs generalizing s with
  | nil => rfl
  | cons b bs ih => simp [writeBytes, ih]

@[simp] theorem writeBytes_pending : (writeBytes bs s).pending = s.pending := by
  induction bs generalizing s with
  | nil => rfl
  | cons b bs ih => simp [writeBytes, ih]

@[simp] theorem writeBytes_freeIx : (writeBytes bs s).freeIx = s.freeIx := by
  induction bs generalizing s with
  | nil => rfl
  | cons b bs ih => simp [writeBytes, ih]

@[simp] theorem writeBytes_pos : (writeBytes bs s).pos = s.pos + 8 * bs.length := by
  induction bs generalizing s with
  | nil => rfl
  | cons b bs ih => simp [writeBytes, ih]; omega

theorem writeBytes_used :
    (writeBytes bs s).used = if 0 < bs.length then max s.used (s.pos + 8 * bs.length) else s.used := by
  induction bs generalizing s with
  | nil => rfl
  | cons b bs ih =>
    rw [writeBytes, ih]
    simp only [writeField_used, writeField_pos, List.length_cons]
    split_ifs <;> omega

theorem wf_writeBytes {s : State} (h : s.buf.wf = true) : (writeBytes bs s).buf.wf = true := by
  induction bs generalizing s with
  | nil => exact h
  | cons b bs ih => exact ih (wf_writeField h _ _)

theorem bitAt_writeBytes_outside {s : State} (h : s.buf.wf = true) {q : Nat}
    (hq : q < s.pos ∨ s.pos + 8 * bs.length ≤ q) : bitAt (writeBytes bs s).buf q = bitAt s.buf q := by
  induction bs generalizing s with
  | nil => rfl
  | cons b bs ih =>
    rw [List.length_cons] at hq
    rw [writeBytes, ih (wf_writeField h _ _) (by simp only [writeField_pos]; omega)]
    exact bitAt_memWrite_outside h (by omega) _

/-- The bytes written, read back one by one. -/
theorem memRead_writeBytes {s : State} (h : s.buf.wf = true) {i : Nat} (hi : i < bs.length) :
    memRead (writeBytes bs s).buf (s.pos + 8 * i) 8 = bs[i].toNat := by
  induction bs generalizing s i with
  | nil => simp at hi
  | cons b bs ih =>
    cases i with
    | zero =>
      have hb := b.isLt
      rw [writeBytes, memRead_congr (m' := (writeField 8 b.toNat s).buf)]
      · simpa using memRead_memWrite h s.pos 8 (by omega)
      · intro q h1 h2
        exact bitAt_writeBytes_outside _ (wf_writeField h _ _) (Or.inl (by simp only [writeField_pos]; omega))
    | succ i =>
      have := ih (wf_writeField h 8 b.toNat) (i := i) (by simpa using hi)
      rw [writeField_pos] at this
      rw [writeBytes, show s.pos + 8 * (i + 1) = s.pos + 8 + 8 * i by omega, this, List.getElem_cons_succ]

end

@[simp] theorem readBytes_snd (k : Nat) (s : State) : (readBytes k s).2 = skipBits (8 * k) s := by
  induction k generalizing s with
  | zero => rfl
  | succ k ih =>
    simp only [readBytes, readField_snd, ih, skipBits_skipBits]
    congr 1; omega

/-- The bytes read: the 8-bit fields from the cursor on. -/
theorem readBytes_fst (k : Nat) (s : State) :
    (readBytes k s).1 = (List.range k).map fun i => BitVec.ofNat 8 (memRead s.buf (s.pos + 8 * i) 8) := by
  induction k generalizing s with
  | zero => rfl
  | succ k ih =>
    rw [List.range_succ_eq_map, List.map_cons, List.map_map]
    simp only [readBytes, readField_fst, readField_snd, ih]
    refine congrArg₂ _ rfl (List.map_congr_left fun i _ => ?_)
    simp only [Function.comp, skipBits_buf, skipBits_pos]
    rw [show s.pos + 8 + 8 * i = s.pos + 8 * i.succ by omega]

@[simp] theorem readBytes_length (k : Nat) (s : State) : (readBytes k s).1.length = k := by simp [readBytes_fst]

/-! ### Runs of digits -/

section
variable (v d : Nat) (s : State)

@[simp] theorem writeDigits_cap : (writeDigits v d s).cap = s.cap := by
  induction d generalizing s with
  | zero => rfl
  | succ d ih => simp [writeDigits, ih]

@[simp] theorem writeDigits_fault : (writeDigits v d s).fault = s.fault := by
  induction d generalizing s with
  | zero => rfl
  | succ d ih => simp [writeDigits, ih]

@[simp] theorem writeDigits_pending : (writeDigits v d s).pending = s.pending := by
  induction d generalizing s with
  | zero => rfl
  | succ d ih => simp [writeDigits, ih]

@[simp] theorem writeDigits_freeIx : (writeDigits v d s).freeIx = s.freeIx := by
  induction d generalizing s with
  | zero => rfl
  | succ d ih => simp [writeDigits, ih]

@[simp] theorem writeDigits_pos : (writeDigits v d s).pos = s.pos + 4 * d := by
  induction d generalizing s with
  | zero => rfl
  | succ d ih => simp [writeDigits, ih]; omega

theorem writeDigits_used :
    (writeDigits v d s).used = if 0 < d then max s.used (s.pos + 4 * d) else s.used := by
  induction d generalizing s with
  | zero => rfl
  | succ d ih =>
    rw [writeDigits, ih]
    simp only [writeField_used, writeField_pos]
    split_ifs <;> omega

theorem wf_writeDigits {s : State} (h : s.buf.wf = true) : (writeDigits v d s).buf.wf = true := by
  induction d generalizing s with
  | zero => exact h
  | succ d ih => exact ih (wf_writeField h _ _)

theorem bitAt_writeDigits_outside {s : State} (h : s.buf.wf = true) {q : Nat}
    (hq : q < s.pos ∨ s.pos + 4 * d ≤ q) : bitAt (writeDigits v d s).buf q = bitAt s.buf q := by
  induction d generalizing s with
  | zero => rfl
  | succ d ih =>
    rw [writeDigits, ih (wf_writeField h _ _) (by simp only [writeField_pos]; omega)]
    exact bitAt_memWrite_outside h (by omega) _

/-- The digits written, read back one by one: nibble `i` holds the digit of weight `10^(d−1−i)`. -/
theorem memRead_writeDigits {s : State} (h : s.buf.wf = true) {i : Nat} (hi : i < d) :
    memRead (writeDigits v d s).buf (s.pos + 4 * i) 4 = digitI v (d - 1 - i) := by
  induction d generalizing s i with
  | zero => omega
  | succ d ih =>
    cases i with
    | zero =>
      have hd := digitI_lt v d
      rw [writeDigits, memRead_congr (m' := (writeField 4 (digitI v d) s).buf)]
      · simpa using memRead_memWrite h s.pos 4 (by omega)
      · intro q h1 h2
        exact bitAt_writeDigits_outside _ _ (wf_writeField h _ _) (Or.inl (by simp only [writeField_pos]; omega))
    | succ i =>
      have := ih (wf_writeField h 4 (digitI v d)) (i := i) (by omega)
      rw [writeField_pos] at this
      rw [writeDigits, show s.pos + 4 * (i + 1) = s.pos + 4 + 4 * i by omega, this]
      congr 1; omega

end

theorem littleEndianAt_succ (m : Memory) (p k : Nat) :
    littleEndianAt m p (k + 1) = byteAt m p 0 + 256 * littleEndianAt m (p + 8) k := by
  unfold littleEndianAt byteAt
  rw [Finset.sum_range_succ', Nat.pow_zero, Nat.mul_one, Nat.add_comm, Finset.mul_sum]
  refine congrArg₂ _ rfl (Finset.sum_congr rfl fun i _ => ?_)
  rw [show p + 8 * (i + 1) = p + 8 + 8 * i by omega, Nat.pow_succ]
  ring

/-- `DecLE` assembles the bytes at the cursor, least significant first (43_acn_fixed_int.md R180). -/
theorem leValue_readBytes (k : Nat) (s : State) : leValue (readBytes k s).1 = littleEndianAt s.buf s.pos k := by
  induction k generalizing s with
  | zero => rfl
  | succ k ih =>
    have hb := memRead_lt s.buf s.pos 8
    rw [littleEndianAt_succ]
    simp only [readBytes, leValue, readField_fst, readField_snd, ih, skipBits_buf, skipBits_pos, BitVec.toNat_ofNat,
      byteAt, Nat.mul_zero, Nat.add_zero]
    rw [Nat.mod_eq_of_lt (by omega)]

theorem decimalAt_succ (m : Memory) (p c : Nat) :
    decimalAt m p (c + 1) = nibbleAt m p 0 * 10 ^ c + decimalAt m (p + 4) c := by
  unfold decimalAt nibbleAt
  rw [Finset.sum_range_succ', Nat.add_comm]
  refine congrArg₂ _ (by simp) (Finset.sum_congr rfl fun i _ => ?_)
  rw [show p + 4 * (i + 1) = p + 4 + 4 * i by omega, show c + 1 - 1 - (i + 1) = c - 1 - i by omega]

theorem nibbleAt_skip (m : Memory) (p i : Nat) : nibbleAt m (p + 4) i = nibbleAt m p (i + 1) := by
  unfold nibbleAt
  rw [show p + 4 + 4 * i = p + 4 * (i + 1) by omega]

theorem readDigits_succ (c acc : Nat) (s : State) :
    readDigits (c + 1) acc s =
      if 9 < nibbleAt s.buf s.pos 0 then (.error .invalidValue, skipBits 4 s)
      else readDigits c (acc * 10 + nibbleAt s.buf s.pos 0) (skipBits 4 s) := rfl

/-- Digits all below 10: the number they spell, and the cursor behind them (45_acn_bcd.md R240). -/
theorem readDigits_ok (c acc : Nat) (s : State) (h : ∀ i < c, nibbleAt s.buf s.pos i ≤ 9) :
    readDigits c acc s = (.ok (acc * 10 ^ c + decimalAt s.buf s.pos c), skipBits (4 * c) s) := by
  induction c generalizing acc s with
  | zero => simp [readDigits, decimalAt]
  | succ c ih =>
    have h0 := h 0 (by omega)
    rw [readDigits_succ, if_neg (by omega), ih, decimalAt_succ]
    · simp only [skipBits_buf, skipBits_pos, skipBits_skipBits]
      rw [show 4 + 4 * c = 4 * (c + 1) by omega, Nat.pow_succ, Nat.add_mul,
        show acc * (10 ^ c * 10) = acc * 10 * 10 ^ c by ring, Nat.add_assoc]
    · intro i hi
      simpa [nibbleAt_skip] using h (i + 1) (by omega)

/-- The first nibble above 9 ends the number, and the cursor is just behind it (45_acn_bcd.md R240, R247). -/
theorem readDigits_error (c acc : Nat) (s : State) {j : Nat} (hj : j < c)
    (h : ∀ i < j, nibbleAt s.buf s.pos i ≤ 9) (h9 : 9 < nibbleAt s.buf s.pos j) :
    readDigits c acc s = (.error .invalidValue, skipBits (4 * (j + 1)) s) := by
  induction c generalizing acc s j with
  | zero => omega
  | succ c ih =>
    rw [readDigits_succ]
    cases j with
    | zero => rw [if_pos h9]
    | succ j =>
      have h0 := h 0 (by omega)
      rw [if_neg (by omega), ih (j := j)]
      · rw [skipBits_skipBits, show 4 + 4 * (j + 1) = 4 * (j + 1 + 1) by omega]
      · omega
      · intro i hi
        simpa [nibbleAt_skip] using h (i + 1) (by omega)
      · simpa [nibbleAt_skip] using h9

/-- Either every nibble is a digit, or there is a first one that is not: with `readDigits_ok` and `readDigits_error`,
everything `ReadDigits` can do. -/
theorem digits_or_first_bad (m : Memory) (p c : Nat) :
    (∀ i < c, nibbleAt m p i ≤ 9) ∨ ∃ j < c, (∀ i < j, nibbleAt m p i ≤ 9) ∧ 9 < nibbleAt m p j := by
  induction c with
  | zero => exact Or.inl (by omega)
  | succ c ih =>
    rcases ih with h | ⟨j, hj, h, h9⟩
    · by_cases hc : nibbleAt m p c ≤ 9
      · exact Or.inl fun i hi => (Nat.lt_succ_iff_lt_or_eq.mp hi).elim (h i) fun e => e ▸ hc
      · exact Or.inr ⟨c, by omega, h, by omega⟩
    · exact Or.inr ⟨j, by omega, h, h9⟩

theorem readDigitsNt_eq (left acc b : Nat) (s : State) :
    readDigitsNt left acc b s =
      if ¬ room 4 s then (.error .insufficientData, s) else
      if nibbleAt s.buf s.pos 0 = 15 then (.ok (acc, b + 4), skipBits 4 s) else
      if 9 < nibbleAt s.buf s.pos 0 then (.error .invalidValue, skipBits 4 s) else
      if left = 0 then (.error .invalidValue, skipBits 4 s) else
      readDigitsNt (left - 1) (acc * 10 + nibbleAt s.buf s.pos 0) (b + 4) (skipBits 4 s) := by
  cases left <;> rw [readDigitsNt] <;> rfl

/-- The terminated form only moves the cursor, nibble by nibble and never past CAP; on success it has read the
sentinel and counts what it read (45_acn_bcd.md R246). -/
theorem readDigitsNt_cases (left acc b : Nat) (s : State) (hs : s.pos ≤ s.cap) :
    ∃ j, s.pos + 4 * j ≤ s.cap ∧
      ((∃ x, readDigitsNt left acc b s = (.ok (x, b + 4 * j), skipBits (4 * j) s)) ∨
        (∃ c, readDigitsNt left acc b s = (.error c, skipBits (4 * j) s) ∧
          (c = .insufficientData ∨ c = .invalidValue))) := by
  induction left generalizing acc b s with
  | zero =>
    by_cases h1 : room 4 s
    · refine ⟨1, h1, ?_⟩
      rw [readDigitsNt_eq, if_neg (not_not_intro h1)]
      by_cases h2 : nibbleAt s.buf s.pos 0 = 15
      · rw [if_pos h2]; exact Or.inl ⟨acc, rfl⟩
      · rw [if_neg h2, if_pos rfl, ite_self]; exact Or.inr ⟨_, rfl, Or.inr rfl⟩
    · exact ⟨0, hs, Or.inr ⟨_, by rw [readDigitsNt_eq, if_pos h1]; rfl, Or.inl rfl⟩⟩
  | succ left ih =>
    by_cases h1 : room 4 s
    · rw [readDigitsNt_eq, if_neg (not_not_intro h1)]
      by_cases h2 : nibbleAt s.buf s.pos 0 = 15
      · rw [if_pos h2]; exact ⟨1, h1, Or.inl ⟨acc, rfl⟩⟩
      · rw [if_neg h2]
        by_cases h3 : 9 < nibbleAt s.buf s.pos 0
        · rw [if_pos h3]; exact ⟨1, h1, Or.inr ⟨_, rfl, Or.inr rfl⟩⟩
        · rw [if_neg h3, if_neg (Nat.succ_ne_zero left), Nat.add_sub_cancel]
          obtain ⟨j, hj, hcase⟩ := ih (acc * 10 + nibbleAt s.buf s.pos 0) (b + 4) (skipBits 4 s) h1
          simp only [skipBits_pos, skipBits_cap] at hj
          refine ⟨j + 1, by omega, ?_⟩
          rw [show 4 * (j + 1) = 4 + 4 * j by omega, ← skipBits_skipBits, ← Nat.add_assoc]
          exact hcase
    · exact ⟨0, hs, Or.inr ⟨_, by rw [readDigitsNt_eq, if_pos h1]; rfl, Or.inl rfl⟩⟩

/-- Digits and then the sentinel, with room for them and at most `left` digits: the number, and the cursor behind the
sentinel (45_acn_bcd.md R246). -/
theorem readDigitsNt_ok (left acc b : Nat) (s : State) {c : Nat} (hc : c ≤ left) (hroom : room (4 * c + 4) s)
    (h : ∀ i < c, nibbleAt s.buf s.pos i ≤ 9) (h15 : nibbleAt s.buf s.pos c = 15) :
    readDigitsNt left acc b s =
      (.ok (acc * 10 ^ c + decimalAt s.buf s.pos c, b + 4 * c + 4), skipBits (4 * c + 4) s) := by
  induction c generalizing left acc b s with
  | zero =>
    rw [readDigitsNt_eq, if_neg (not_not_intro (by simpa using hroom)), if_pos h15]
    simp [decimalAt]
  | succ c ih =>
    have h0 := h 0 (by omega)
    rw [readDigitsNt_eq, if_neg (not_not_intro (by omega)), if_neg (by omega), if_neg (by omega), if_neg (by omega),
      ih (left - 1) _ _ _ (by omega)]
    · rw [decimalAt_succ, skipBits_skipBits, skipBits_buf, skipBits_pos]
      rw [show acc * 10 ^ (c + 1) + (nibbleAt s.buf s.pos 0 * 10 ^ c + decimalAt s.buf (s.pos + 4) c) =
        (acc * 10 + nibbleAt s.buf s.pos 0) * 10 ^ c + decimalAt s.buf (s.pos + 4) c by ring,
        show b + 4 * (c + 1) + 4 = b + 4 + 4 * c + 4 by omega, show 4 * (c + 1) + 4 = 4 + (4 * c + 4) by omega]
    · simp only [room, skipBits_pos, skipBits_cap] at hroom ⊢
      omega
    · intro i hi
      simpa [nibbleAt_skip] using h (i + 1) (by omega)
    · simpa [nibbleAt_skip] using h15

/-! ### Count-prefixed fields -/

/-- The four ends of a count-prefixed read (44_acn_varsize_int.md R221): no room for the count, a count above 8, no
room for the payload, the payload read. -/
theorem readCounted_cases (s : State) :
    (¬ room 8 s ∧ readCounted s = (.error .insufficientData, s)) ∨
    (room 8 s ∧ 8 < memRead s.buf s.pos 8 ∧ readCounted s = (.error .invalidValue, skipBits 8 s)) ∨
    (room 8 s ∧ memRead s.buf s.pos 8 ≤ 8 ∧ ¬ room (8 + 8 * memRead s.buf s.pos 8) s ∧
      readCounted s = (.error .insufficientData, skipBits 8 s)) ∨
    (memRead s.buf s.pos 8 ≤ 8 ∧ room (8 + 8 * memRead s.buf s.pos 8) s ∧
      readCounted s = (.ok (memRead s.buf s.pos 8, memRead s.buf (s.pos + 8) (8 * memRead s.buf s.pos 8)),
        skipBits (8 + 8 * memRead s.buf s.pos 8) s)) := by
  unfold readCounted
  simp only [readField_fst, readField_snd, skipBits_buf, skipBits_pos, skipBits_skipBits, Config.maxVb, room,
    skipBits_cap]
  split_ifs with h1 h2 h3
  · exact Or.inr (Or.inl ⟨h1, h2, rfl⟩)
  · exact Or.inr (Or.inr (Or.inr ⟨by omega, by omega, rfl⟩))
  · exact Or.inr (Or.inr (Or.inl ⟨h1, by omega, by omega, rfl⟩))
  · exact Or.inl ⟨h1, rfl⟩

/-! ### Bodies that several commands share: everything each can answer -/

theorem bufWrite_cases (n : Nat) (v : Int) (s : State) :
    (n ≤ 64 ∧ fitsU v n ∧ room n s ∧ bufWrite n v s = .next (setOk 0 n [] (writeField n v.toNat s))) ∨
    (¬ (n ≤ 64 ∧ fitsU v n ∧ room n s) ∧ bufWrite n v s = .next (setErr .bitstreamError s)) := by
  unfold bufWrite bitStreamError fail ok Config.maxField
  split_ifs with h1 h2 h3
  · exact Or.inr ⟨fun h => by omega, rfl⟩
  · exact Or.inl ⟨by omega, h2, h3, rfl⟩
  · exact Or.inr ⟨fun h => h3 h.2.2, rfl⟩
  · exact Or.inr ⟨fun h => h2 h.2.1, rfl⟩

theorem bufRead_cases (n : Nat) (s : State) :
    (n ≤ 64 ∧ room n s ∧ bufRead n s = .next (setOk (memRead s.buf s.pos n) n [] (skipBits n s))) ∨
    (¬ (n ≤ 64 ∧ room n s) ∧ bufRead n s = .next (setErr .bitstreamError s)) := by
  unfold bufRead bitStreamError fail ok Config.maxField
  simp only [readField_fst, readField_snd]
  split_ifs with h1 h2
  · exact Or.inr ⟨fun h => by omega, rfl⟩
  · exact Or.inl ⟨by omega, h2, rfl⟩
  · exact Or.inr ⟨fun h => h2 h.2, rfl⟩

theorem encPos_cases (n : Nat) (v : Int) (s : State) :
    (fitsU v n ∧ room n s ∧ encPos n v s = .next (setOk 0 n [] (writeField n v.toNat s))) ∨
    (¬ fitsU v n ∧ encPos n v s = .next (setErr .invalidValue s)) ∨
    (fitsU v n ∧ ¬ room n s ∧ encPos n v s = .next (setErr .insufficientData s)) := by
  unfold encPos fail ok
  split_ifs with h1 h2 h3
  · exact Or.inr (Or.inl ⟨fun h => by omega, rfl⟩)
  · exact Or.inr (Or.inl ⟨fun h => by omega, rfl⟩)
  · exact Or.inl ⟨⟨by omega, by omega⟩, h3, rfl⟩
  · exact Or.inr (Or.inr ⟨⟨by omega, by omega⟩, h3, rfl⟩)

theorem decPos_cases (n : Nat) (s : State) :
    (room n s ∧ decPos n s = .next (setOk (memRead s.buf s.pos n) n [] (skipBits n s))) ∨
    (¬ room n s ∧ decPos n s = .next (setErr .insufficientData s)) := by
  unfold decPos fail ok
  simp only [readField_fst, readField_snd]
  split_ifs with h1
  · exact Or.inl ⟨h1, rfl⟩
  · exact Or.inr ⟨h1, rfl⟩

theorem encTc_cases (n : Nat) (v : Int) (s : State) :
    (fitsS v n ∧ room n s ∧ encTc n v s = .next (setOk 0 n [] (writeField n (toU v n) s))) ∨
    (¬ fitsS v n ∧ encTc n v s = .next (setErr .invalidValue s)) ∨
    (fitsS v n ∧ ¬ room n s ∧ encTc n v s = .next (setErr .insufficientData s)) := by
  unfold encTc fail ok
  split_ifs with h1 h2
  · exact Or.inl ⟨h1, h2, rfl⟩
  · exact Or.inr (Or.inr ⟨h1, h2, rfl⟩)
  · exact Or.inr (Or.inl ⟨h1, rfl⟩)

theorem decTc_cases (n : Nat) (s : State) :
    (room n s ∧ decTc n s = .next (setOk (sext n (memRead s.buf s.pos n)) n [] (skipBits n s))) ∨
    (¬ room n s ∧ decTc n s = .next (setErr .insufficientData s)) := by
  unfold decTc fail ok
  simp only [readField_fst, readField_snd]
  split_ifs with h1
  · exact Or.inl ⟨h1, rfl⟩
  · exact Or.inr ⟨h1, rfl⟩

theorem encLe_cases (k u : Nat) (s : State) :
    (room (8 * k) s ∧ encLe k u s = .next (setOk 0 (8 * k) [] (writeBytes (leBytes k u) s))) ∨
    (¬ room (8 * k) s ∧ encLe k u s = .next (setErr .insufficientData s)) := by
  unfold encLe fail ok
  split_ifs with h1
  · exact Or.inl ⟨h1, rfl⟩
  · exact Or.inr ⟨h1, rfl⟩

theorem decLe_cases (k : Nat) (value : Nat → Int) (s : State) :
    (room (8 * k) s ∧
      decLe k value s = .next (setOk (value (leValue (readBytes k s).1)) (8 * k) [] (skipBits (8 * k) s))) ∨
    (¬ room (8 * k) s ∧ decLe k value s = .next (setErr .insufficientData s)) := by
  unfold decLe fail ok
  simp only [readBytes_snd]
  split_ifs with h1
  · exact Or.inl ⟨h1, rfl⟩
  · exact Or.inr ⟨h1, rfl⟩

theorem encAlign_cases (a : Nat) (s : State) :
    (room (pad a s.pos) s ∧
      encAlign a s = .next (setOk 0 (pad a s.pos) [] (writeField (pad a s.pos) 0 s))) ∨
    (¬ room (pad a s.pos) s ∧ encAlign a s = .next (setErr .insufficientData s)) := by
  unfold encAlign fail ok
  split_ifs with h1
  · exact Or.inl ⟨h1, rfl⟩
  · exact Or.inr ⟨h1, rfl⟩

theorem decAlign_cases (a : Nat) (s : State) :
    (room (pad a s.pos) s ∧ decAlign a s = .next (setOk 0 (pad a s.pos) [] (skipBits (pad a s.pos) s))) ∨
    (¬ room (pad a s.pos) s ∧ decAlign a s = .next (setErr .insufficientData s)) := by
  unfold decAlign fail ok
  split_ifs with h1
  · exact Or.inl ⟨h1, rfl⟩
  · exact Or.inr ⟨h1, rfl⟩

theorem encBytes_cases (din : List Byte) (s : State) :
    (room (8 * din.length) s ∧
      encBytes din s = .next (setOk 0 (8 * din.length) [] (writeBytes din s))) ∨
    (¬ room (8 * din.length) s ∧ encBytes din s = .next (setErr .insufficientData s)) := by
  unfold encBytes fail ok
  split_ifs with h1
  · exact Or.inl ⟨h1, rfl⟩
  · exact Or.inr ⟨h1, rfl⟩

theorem encCounted_cases (k u : Nat) (s : State) :
    (room (8 + 8 * k) s ∧
      encCounted k u s = .next (setOk 0 (8 + 8 * k) [] (writeField (8 * k) u (writeField 8 k s)))) ∨
    (¬ room (8 + 8 * k) s ∧ encCounted k u s = .next (setErr .insufficientData s)) := by
  unfold encCounted fail ok
  split_ifs with h1
  · exact Or.inl ⟨h1, rfl⟩
  · exact Or.inr ⟨h1, rfl⟩

theorem encWidth_cases (n : Nat) (v : Int) (s : State) :
    (64 < n ∧ encWidth n v s = contractFault s) ∨ (n ≤ 64 ∧ encWidth n v s = encPos n v s) := by
  unfold encWidth Config.maxField
  split_ifs with h
  · exact Or.inl ⟨h, rfl⟩
  · exact Or.inr ⟨by omega, rfl⟩

theorem decWidth_cases (n : Nat) (s : State) :
    (64 < n ∧ decWidth n s = contractFault s) ∨ (n ≤ 64 ∧ decWidth n s = decPos n s) := by
  unfold decWidth Config.maxField
  split_ifs with h
  · exact Or.inl ⟨h, rfl⟩
  · exact Or.inr ⟨by omega, rfl⟩

theorem constSize_cases (n : Nat) (s : State) (body : StepResult) :
    ((n < 1 ∨ 64 < n) ∧ constSize n s body = contractFault s) ∨
    (1 ≤ n ∧ n ≤ 64 ∧ constSize n s body = body) := by
  unfold constSize Config.maxField
  split_ifs with h
  · exact Or.inl ⟨h, rfl⟩
  · exact Or.inr ⟨by omega, by omega, rfl⟩

theorem bcdResult_cases (acc bits : Nat) (s : State) :
    (acc < 2 ^ 64 ∧ bcdResult acc bits s = .next (setOk acc bits [] s)) ∨
    (2 ^ 64 ≤ acc ∧ bcdResult acc bits s = .next (setErr .invalidValue s)) := by
  unfold bcdResult fail ok
  split_ifs with h
  · exact Or.inr ⟨h, rfl⟩
  · exact Or.inl ⟨by omega, rfl⟩

theorem encRealBe_cases (k : Nat) (v : Int) (s : State) :
    (¬ fitsU v (8 * k) ∧ encRealBe k v s = contractFault s) ∨
    (fitsU v (8 * k) ∧ encRealBe k v s = encPos (8 * k) v s) := by
  unfold encRealBe encPos
  split_ifs with h1 h2 h3 h4 <;> first
    | exact Or.inl ⟨fun h => by omega, rfl⟩
    | exact Or.inr ⟨⟨by omega, by omega⟩, rfl⟩
    | omega

theorem encRealLe_cases (k : Nat) (v : Int) (s : State) :
    (¬ fitsU v (8 * k) ∧ encRealLe k v s = contractFault s) ∨
    (fitsU v (8 * k) ∧ encRealLe k v s = encLe k v.toNat s) := by
  unfold encRealLe
  split_ifs with h1
  · exact Or.inl ⟨fun h => by omega, rfl⟩
  · exact Or.inr ⟨⟨by omega, by omega⟩, rfl⟩

end Sys2Proof.Machine
end

