-- ==== Sys2Proof/Laws/Outcome.lean ====
section
/-!
SUPPORT. What a step can do (`step_idle`, `step_command`, `step_init`) and, said once for all commands, what a command
can end in (`exec_ends`): a ContractFault, a write at the cursor, a move of the cursor over bits read, a placement of
the cursor, or a failure.
-/

namespace Sys2Proof.Machine

/-! ### The step -/

theorem step_idle {s : State} (h : s.pending = []) : step s = .next s := by simp [step, takeAction, h]

theorem step_command {s : State} {b : Ports} {rest : List HostAction} (h : s.pending = .command b :: rest) :
    step s = present b { s with pending := rest } := by simp [step, takeAction, h]

theorem step_init {s : State} {maxBits : Nat} {bytes : List Byte} {rest : List HostAction}
    (h : s.pending = .init maxBits bytes :: rest) :
    step s = .next (reinit maxBits bytes { s with pending := rest }) := by simp [step, takeAction, h]

/-! ### Writes -/

/-- A write is known by its fields and the bits it keeps: the bytes it keeps follow. -/
theorem WritesAt.of_bits {s t : State} {n : Nat} (cap : t.cap = s.cap) (fault : t.fault = s.fault)
    (pending : t.pending = s.pending) (pos : t.pos = s.pos + n)
    (used : t.used = if 0 < n then max s.used (s.pos + n) else s.used)
    (bits : ∀ q, q < s.pos ∨ s.pos + n ≤ q → bitAt t.buf q = bitAt s.buf q) : WritesAt s t n :=
  ⟨cap, fault, pending, pos, used, bits, fun _ ha => readByte_eq_of_bits fun _ hi => bits _ (by omega)⟩

theorem WritesAt.setOk {s t : State} {n : Nat} (h : WritesAt s t n) (v : Int) (b : Nat) (d : List Byte) :
    WritesAt s (setOk v b d t) n :=
  ⟨h.cap, h.fault, h.pending, h.pos, h.used, h.bits_outside, h.bytes_outside⟩

theorem WritesAt.trans {s t u : State} {n m : Nat} (h : WritesAt s t n) (h' : WritesAt t u m) :
    WritesAt s u (n + m) := by
  refine .of_bits (h'.cap.trans h.cap) (h'.fault.trans h.fault) (h'.pending.trans h.pending) ?_ ?_ ?_
  · rw [h'.pos, h.pos, Nat.add_assoc]
  · rw [h'.used, h.used, h.pos]; split_ifs <;> omega
  · intro q hq
    rw [h'.bits_outside q (by rw [h.pos]; omega), h.bits_outside q (by omega)]

theorem writesAt_writeField {s : State} (h : s.buf.wf = true) (n v : Nat) : WritesAt s (writeField n v s) n :=
  .of_bits rfl rfl rfl rfl rfl fun _ hq => bitAt_memWrite_outside h hq v

theorem writesAt_writeBytes {s : State} (h : s.buf.wf = true) (bs : List Byte) :
    WritesAt s (writeBytes bs s) (8 * bs.length) :=
  .of_bits (by simp) (by simp) (by simp) (by simp) (by rw [writeBytes_used]; simp)
    fun _ hq => bitAt_writeBytes_outside _ h hq

theorem writesAt_writeDigits {s : State} (h : s.buf.wf = true) (v d : Nat) :
    WritesAt s (writeDigits v d s) (4 * d) :=
  .of_bits (by simp) (by simp) (by simp) (by simp) (by rw [writeDigits_used]; simp)
    fun _ hq => bitAt_writeDigits_outside _ _ h hq

/-! ### The ends of a command, in the terms of the claims -/

theorem readsTo_setOk (s : State) (n : Nat) (v : Int) (d : List Byte) :
    ReadsTo (.next (setOk v n d (skipBits n s))) s n v d :=
  ⟨_, rfl, ⟨rfl, rfl, rfl, rfl, rfl, rfl⟩, rfl, rfl, rfl, rfl, rfl⟩

theorem failsAfter_setErr (s : State) (n : Nat) (c : ErrCode) :
    FailsAfter (.next (setErr c (skipBits n s))) s n c :=
  ⟨_, rfl, ⟨rfl, rfl, rfl, rfl, rfl, rfl⟩, rfl, rfl⟩

theorem failsWith_setErr (s : State) (c : ErrCode) : FailsWith (.next (setErr c s)) s c := failsAfter_setErr s 0 c

theorem raises_contractFault (s : State) : RaisesContractFault (contractFault s) s :=
  ⟨_, rfl, rfl, rfl, rfl, rfl, rfl, rfl⟩

theorem writesField_setOk {s : State} (h : s.buf.wf = true) {n v : Nat} (hv : v < 2 ^ n) :
    WritesField (.next (setOk 0 n [] (writeField n v s))) s n v :=
  ⟨_, rfl, (writesAt_writeField h n v).setOk _ _ _, memRead_memWrite h _ _ hv, rfl, rfl, rfl, rfl, rfl⟩

/-- What a codec command's statement says is what its write does, but for DOUT (log entry 21). -/
theorem WritesField.encodes {r : StepResult} {s : State} {n u : Nat} (h : WritesField r s n u) : EncodesField r s n u :=
  let ⟨t, e, w, m, a, b, c, d, _⟩ := h
  ⟨t, e, w, m, a, b, c, d⟩

theorem WritesRun.encodes {r : StepResult} {s : State} {w k : Nat} {f : Nat → Nat} (h : WritesRun r s w k f) :
    EncodesRun r s w k f :=
  let ⟨t, e, w, m, a, b, c, d, _⟩ := h
  ⟨t, e, w, m, a, b, c, d⟩

theorem ReadsTo.decodes {r : StepResult} {s : State} {n : Nat} {v : Int} {bs : List Byte} (h : ReadsTo r s n v bs) :
    DecodesTo r s n v :=
  let ⟨t, e, w, a, b, c, d, _⟩ := h
  ⟨t, e, w, a, b, c, d⟩

theorem writesRun_bytes {s : State} (h : s.buf.wf = true) (bs : List Byte) (f : Nat → Nat)
    (hf : ∀ i (hi : i < bs.length), bs[i].toNat = f i) :
    WritesRun (.next (setOk 0 (8 * bs.length) [] (writeBytes bs s))) s 8 bs.length f :=
  ⟨_, rfl, (writesAt_writeBytes h bs).setOk _ _ _, fun i hi => (memRead_writeBytes bs h hi).trans (hf i hi),
    rfl, rfl, rfl, rfl, rfl⟩

theorem writesRun_digits {s : State} (h : s.buf.wf = true) (v d : Nat) :
    WritesRun (.next (setOk 0 (4 * d) [] (writeDigits v d s))) s 4 d (fun i => v / 10 ^ (d - 1 - i) % 10) :=
  ⟨_, rfl, (writesAt_writeDigits h v d).setOk _ _ _, fun _ hi => memRead_writeDigits v d h hi,
    rfl, rfl, rfl, rfl, rfl⟩

theorem runOk_cons {i : Instr} {is : List Instr} {s t : State} (h : exec i s = .next t) (hs : t.success = true) :
    runOk (i :: is) s = runOk is t := by
  rw [runOk, h]; exact if_pos hs

/-! ### The counts of 00_scope.md R10 are the ones their definitions name -/

theorem isBitLength_bitLength (x : Nat) : IsBitLength x (bitLength x) := by
  refine ⟨by rw [← two_pow_cast]; exact_mod_cast lt_two_pow_bitLength x, fun k h => bitLength_le ?_⟩
  rw [← two_pow_cast] at h; exact_mod_cast h

theorem bitLength_unique {x b : Nat} (h : IsBitLength x b) : bitLength x = b :=
  Nat.le_antisymm ((isBitLength_bitLength x).2 b h.1) (h.2 _ (isBitLength_bitLength x).1)

theorem isByteCount_ubytes (v : Nat) : IsByteCount v (ubytes v) := by
  refine ⟨one_le_ubytes v, by rw [← two_pow_cast]; exact_mod_cast lt_two_pow_ubytes v, fun j hj h => ?_⟩
  have : bitLength v ≤ 8 * j := bitLength_le (by rw [← two_pow_cast] at h; exact_mod_cast h)
  unfold ubytes; omega

theorem ubytes_unique {v k : Nat} (h : IsByteCount v k) : ubytes v = k :=
  Nat.le_antisymm ((isByteCount_ubytes v).2.2 k h.1 h.2.1) (h.2.2 _ (one_le_ubytes v) (isByteCount_ubytes v).2.1)

theorem isSignedByteCount_sbytes (v : Int) : IsSignedByteCount v (sbytes v) := by
  refine ⟨one_le_sbytes v, fitsS_sbytes v, fun j hj h => ?_⟩
  obtain ⟨h1, h2⟩ := h
  have hc := two_pow_cast (8 * j - 1)
  unfold sbytes
  split_ifs with h0
  · have : bitLength v.toNat ≤ 8 * j - 1 := bitLength_le (by omega)
    omega
  · have : bitLength (-v - 1).toNat ≤ 8 * j - 1 := bitLength_le (by omega)
    omega

theorem sbytes_unique {v : Int} {k : Nat} (h : IsSignedByteCount v k) : sbytes v = k :=
  Nat.le_antisymm ((isSignedByteCount_sbytes v).2.2 k h.1 h.2.1) (h.2.2 _ (one_le_sbytes v) (fitsS_sbytes v))

theorem isDigitCount_ndigits (v : Nat) : IsDigitCount v (ndigits v) := by
  obtain ⟨h1, h2, -⟩ := ndigits_spec v
  exact ⟨h2, by exact_mod_cast h1, fun e he h => ndigits_le he (by exact_mod_cast h)⟩

theorem ndigits_unique {v d : Nat} (h : IsDigitCount v d) : ndigits v = d :=
  Nat.le_antisymm ((isDigitCount_ndigits v).2.2 d h.1 h.2.1)
    (h.2.2 _ (isDigitCount_ndigits v).1 (isDigitCount_ndigits v).2.1)

theorem isPadding_pad {a : Nat} (ha : 0 < a) (p : Nat) : IsPadding a p (pad a p) := ⟨pad_lt ha p, dvd_add_pad ha p⟩

theorem pad_unique {a p g : Nat} (h : IsPadding a p g) : pad a p = g := by
  obtain ⟨h1, h2⟩ := h
  have h3 := isPadding_pad (show 0 < a by omega) p
  have h4 : pad a p ≡ g [MOD a] := Nat.ModEq.add_left_cancel' p <| by
    rw [Nat.ModEq, Nat.mod_eq_zero_of_dvd h3.2, Nat.mod_eq_zero_of_dvd h2]
  rwa [Nat.ModEq, Nat.mod_eq_of_lt h3.1, Nat.mod_eq_of_lt h1] at h4

/-! ### Everything a command can end in -/

/-- `u` is `s` after command `i` wrote `n` bits at the cursor. -/
structure Wrote (i : Instr) (s u : State) (n : Nat) : Prop where
  writer : mayWrite i = true ∧ placesCursor i = false
  fits : room n s
  cap : u.cap = s.cap
  fault : u.fault = s.fault
  pending : u.pending = s.pending
  pos : u.pos = s.pos + n
  used : u.used = if 0 < n then max s.used (s.pos + n) else s.used
  writesAt : s.buf.wf = true → WritesAt s u n ∧ u.buf.wf = true

/-- The codes a command can fail with: BITSTREAM_ERROR the BitBuffer commands, UNSUPPORTED_OPERATION the stubs, the
codec's three the codec commands (60_exceptions.md R293 to R299). -/
def FailsBy (i : Instr) (n : Nat) (k : ErrCode) : Prop :=
  (k = .bitstreamError ∧ isBitBuffer i = true ∧ isStub i = false ∧ n = 0) ∨
  (k = .unsupportedOperation ∧ isStub i = true ∧ n = 0) ∨
  ((k = .insufficientData ∨ k = .invalidValue ∨ k = .constraintViolation) ∧ isBitBuffer i = false ∧ isStub i = false)

/-- A value that the register VAL holds. -/
def ValFits (v : Int) : Prop := -(2 ^ 64) ≤ v ∧ v < 2 ^ 64

/-- How command `i` can end on state `s`. -/
inductive EndsIn (i : Instr) (s : State) : StepResult → Prop
  | fault (h : s.fault = true ∨ ContractCause i) : EndsIn i s (contractFault s)
  | write (u : State) (n : Nat) (hf : s.fault = false) (hc : ¬ ContractCause i) (h : Wrote i s u n) :
      EndsIn i s (.next (setOk 0 n [] u))
  | read (v : Int) (n : Nat) (d : List Byte) (hf : s.fault = false) (hc : ¬ ContractCause i)
      (reader : mayWrite i = false ∧ placesCursor i = false ∧ isStub i = false) (hr : n = 0 ∨ room n s)
      (hd : d = [] ∨ returnsBytes i = true) (hv : i.wf = true → BlockInv s → ValFits v) : EndsIn i s (.next (setOk v n d (skipBits n s)))
  | place (p : Nat) (hf : s.fault = false) (hc : ¬ ContractCause i) (hp : placesCursor i = true) (h : p ≤ s.cap) :
      EndsIn i s (.next (setOk 0 0 [] (moveTo p s)))
  | fails (k : ErrCode) (n : Nat) (hf : s.fault = false) (hc : ¬ ContractCause i)
      (hr : n = 0 ∨ (mayFailLate i = true ∧ room n s)) (hk : FailsBy i n k) :
      EndsIn i s (.next (setErr k (skipBits n s)))

theorem EndsIn.unlessFaulted {i : Instr} {s : State} {body : StepResult} (h : s.fault = false → EndsIn i s body) :
    EndsIn i s (unlessFaulted s body) := by
  cases hf : s.fault with
  | false => rw [unlessFaulted_ready hf]; exact h hf
  | true => rw [unlessFaulted_faulted hf]; exact .fault (.inl hf)

/-- What a codec encoder is; each field is `rfl` for a given command. -/
structure IsEncoder (i : Instr) : Prop where
  notBuffer : isBitBuffer i = false
  notStub : isStub i = false
  writes : mayWrite i = true
  keepsCursor : placesCursor i = false

/-- What a codec decoder is; each field is `rfl` for a given command. -/
structure IsDecoder (i : Instr) : Prop where
  notBuffer : isBitBuffer i = false
  notStub : isStub i = false
  reads : mayWrite i = false
  keepsCursor : placesCursor i = false

section
variable {i : Instr} {s : State}

theorem FailsBy.buffer (h : isBitBuffer i = true) (h' : isStub i = false) : FailsBy i 0 .bitstreamError :=
  .inl ⟨rfl, h, h', rfl⟩

theorem FailsBy.insufficient {n : Nat} (h : isBitBuffer i = false) (h' : isStub i = false) :
    FailsBy i n .insufficientData := .inr (.inr ⟨.inl rfl, h, h'⟩)

theorem FailsBy.invalid {n : Nat} (h : isBitBuffer i = false) (h' : isStub i = false) : FailsBy i n .invalidValue :=
  .inr (.inr ⟨.inr (.inl rfl), h, h'⟩)

theorem FailsBy.constraint {n : Nat} (h : isBitBuffer i = false) (h' : isStub i = false) :
    FailsBy i n .constraintViolation := .inr (.inr ⟨.inr (.inr rfl), h, h'⟩)

theorem EndsIn.failsEarly {k : ErrCode} (f : s.fault = false) (c : ¬ ContractCause i) (hk : FailsBy i 0 k) :
    EndsIn i s (.next (setErr k s)) := .fails k 0 f c (.inl rfl) hk

theorem EndsIn.failsLate {k : ErrCode} {n : Nat} (f : s.fault = false) (c : ¬ ContractCause i)
    (h : mayFailLate i = true) (hr : room n s) (hk : FailsBy i n k) : EndsIn i s (.next (setErr k (skipBits n s))) :=
  .fails k n f c (.inr ⟨h, hr⟩) hk

theorem Wrote.field (w : mayWrite i = true ∧ placesCursor i = false) {n v : Nat} (r : room n s) :
    Wrote i s (writeField n v s) n :=
  ⟨w, r, rfl, rfl, rfl, rfl, rfl, fun h => ⟨writesAt_writeField h _ _, wf_writeField h _ _⟩⟩

theorem Wrote.bytes (w : mayWrite i = true ∧ placesCursor i = false) {bs : List Byte} (r : room (8 * bs.length) s) :
    Wrote i s (writeBytes bs s) (8 * bs.length) :=
  ⟨w, r, by simp, by simp, by simp, by simp, by rw [writeBytes_used]; simp,
    fun h => ⟨writesAt_writeBytes h _, wf_writeBytes _ h⟩⟩

theorem Wrote.digits (w : mayWrite i = true ∧ placesCursor i = false) {v d : Nat} (r : room (4 * d) s) :
    Wrote i s (writeDigits v d s) (4 * d) :=
  ⟨w, r, by simp, by simp, by simp, by simp, by rw [writeDigits_used]; simp,
    fun h => ⟨writesAt_writeDigits h _ _, wf_writeDigits _ _ h⟩⟩

theorem Wrote.trans {u t : State} {n k : Nat} (h : Wrote i s u n) (h' : Wrote i u t k) : Wrote i s t (n + k) := by
  refine ⟨h.writer, ?_, h'.cap.trans h.cap, h'.fault.trans h.fault, h'.pending.trans h.pending, ?_, ?_,
    fun x => ⟨(h.writesAt x).1.trans (h'.writesAt (h.writesAt x).2).1, (h'.writesAt (h.writesAt x).2).2⟩⟩
  · have h1 := h'.fits
    simp only [room, h.pos, h.cap] at h1 ⊢
    omega
  · rw [h'.pos, h.pos, Nat.add_assoc]
  · rw [h'.used, h.used, h.pos]; split_ifs <;> omega

/-! ### Values that fit VAL -/

theorem valFits_nat {n u : Nat} (hn : n ≤ 64) (h : u < 2 ^ n) : ValFits u := by
  have h1 : 2 ^ n ≤ 2 ^ 64 := Nat.pow_le_pow_right (by omega) hn
  constructor <;> omega

theorem valFits_memRead (m : Memory) (p : Nat) {n : Nat} (hn : n ≤ 64) : ValFits (memRead m p n) :=
  valFits_nat hn (memRead_lt m p n)

theorem valFits_sext {n u : Nat} (h1 : 1 ≤ n) (hn : n ≤ 64) (hu : u < 2 ^ n) : ValFits (sext n u) := by
  obtain ⟨h2, h3⟩ := fitsS_sext h1 hu
  have h4 : 2 ^ (n - 1) ≤ 2 ^ 63 := Nat.pow_le_pow_right (by omega) (by omega)
  have := two_pow_cast (n - 1)
  constructor <;> omega

theorem valFits_zero : ValFits 0 := by constructor <;> norm_num

theorem leValue_readBytes_lt (k : Nat) (s : State) : leValue (readBytes k s).1 < 2 ^ (8 * k) := by
  have := leValue_lt (readBytes k s).1
  rw [readBytes_length] at this
  rw [Nat.pow_mul]; exact this

/-! ### How the shared bodies end -/

theorem bufWrite_ends {n : Nat} {v : Int} (f : s.fault = false) (c : ¬ ContractCause i)
    (b : isBitBuffer i = true ∧ isStub i = false) (w : mayWrite i = true ∧ placesCursor i = false) :
    EndsIn i s (bufWrite n v s) := by
  rcases bufWrite_cases n v s with ⟨-, -, r, e⟩ | ⟨-, e⟩ <;> rw [e]
  · exact .write _ _ f c (.field w r)
  · exact .failsEarly f c (.buffer b.1 b.2)

theorem bufRead_ends {n : Nat} (f : s.fault = false) (c : ¬ ContractCause i)
    (b : isBitBuffer i = true) (rd : mayWrite i = false ∧ placesCursor i = false ∧ isStub i = false) :
    EndsIn i s (bufRead n s) := by
  rcases bufRead_cases n s with ⟨h, r, e⟩ | ⟨-, e⟩ <;> rw [e]
  · exact .read _ _ _ f c rd (.inr r) (.inl rfl) fun _ _ => valFits_memRead _ _ h
  · exact .failsEarly f c (.buffer b rd.2.2)

theorem encPos_ends {n : Nat} {v : Int} (f : s.fault = false) (c : ¬ ContractCause i) (k : IsEncoder i) :
    EndsIn i s (encPos n v s) := by
  rcases encPos_cases n v s with ⟨-, r, e⟩ | ⟨-, e⟩ | ⟨-, -, e⟩ <;> rw [e]
  · exact .write _ _ f c (.field ⟨k.3, k.4⟩ r)
  · exact .failsEarly f c (.invalid k.1 k.2)
  · exact .failsEarly f c (.insufficient k.1 k.2)

theorem encTc_ends {n : Nat} {v : Int} (f : s.fault = false) (c : ¬ ContractCause i) (k : IsEncoder i) :
    EndsIn i s (encTc n v s) := by
  rcases encTc_cases n v s with ⟨-, r, e⟩ | ⟨-, e⟩ | ⟨-, -, e⟩ <;> rw [e]
  · exact .write _ _ f c (.field ⟨k.3, k.4⟩ r)
  · exact .failsEarly f c (.invalid k.1 k.2)
  · exact .failsEarly f c (.insufficient k.1 k.2)

theorem decPos_ends {n : Nat} (hn : n ≤ 64) (f : s.fault = false) (c : ¬ ContractCause i) (k : IsDecoder i) :
    EndsIn i s (decPos n s) := by
  rcases decPos_cases n s with ⟨r, e⟩ | ⟨-, e⟩ <;> rw [e]
  · exact .read _ _ _ f c ⟨k.3, k.4, k.2⟩ (.inr r) (.inl rfl) fun _ _ => valFits_memRead _ _ hn
  · exact .failsEarly f c (.insufficient k.1 k.2)

theorem decTc_ends {n : Nat} (h1 : 1 ≤ n) (hn : n ≤ 64) (f : s.fault = false) (c : ¬ ContractCause i)
    (k : IsDecoder i) : EndsIn i s (decTc n s) := by
  rcases decTc_cases n s with ⟨r, e⟩ | ⟨-, e⟩ <;> rw [e]
  · exact .read _ _ _ f c ⟨k.3, k.4, k.2⟩ (.inr r) (.inl rfl) fun _ _ => valFits_sext h1 hn (memRead_lt _ _ _)
  · exact .failsEarly f c (.insufficient k.1 k.2)

theorem encLe_ends {n u : Nat} (f : s.fault = false) (c : ¬ ContractCause i) (k : IsEncoder i) :
    EndsIn i s (encLe n u s) := by
  rcases encLe_cases n u s with ⟨r, e⟩ | ⟨-, e⟩ <;> rw [e]
  · have := Wrote.bytes (i := i) ⟨k.3, k.4⟩ (bs := leBytes n u) (s := s) (by simpa using r)
    exact .write _ _ f c (by simpa using this)
  · exact .failsEarly f c (.insufficient k.1 k.2)

theorem decLe_ends {n : Nat} {value : Nat → Int} (hv : ∀ u, u < 2 ^ (8 * n) → ValFits (value u))
    (f : s.fault = false) (c : ¬ ContractCause i) (k : IsDecoder i) : EndsIn i s (decLe n value s) := by
  rcases decLe_cases n value s with ⟨r, e⟩ | ⟨-, e⟩ <;> rw [e]
  · exact .read _ _ _ f c ⟨k.3, k.4, k.2⟩ (.inr r) (.inl rfl) fun _ _ => hv _ (leValue_readBytes_lt _ _)
  · exact .failsEarly f c (.insufficient k.1 k.2)

theorem encPosLe_ends {n : Nat} {v : Int} (f : s.fault = false) (c : ¬ ContractCause i) (k : IsEncoder i) :
    EndsIn i s (encPosLe n v s) := by
  unfold encPosLe fail
  split_ifs
  · exact .failsEarly f c (.invalid k.1 k.2)
  · exact .failsEarly f c (.invalid k.1 k.2)
  · exact encLe_ends f c k

theorem encTcLe_ends {n : Nat} {v : Int} (f : s.fault = false) (c : ¬ ContractCause i) (k : IsEncoder i) :
    EndsIn i s (encTcLe n v s) := by
  unfold encTcLe fail
  split_ifs
  · exact encLe_ends f c k
  · exact .failsEarly f c (.invalid k.1 k.2)

theorem encAlign_ends {a : Nat} (f : s.fault = false) (c : ¬ ContractCause i) (k : IsEncoder i) :
    EndsIn i s (encAlign a s) := by
  rcases encAlign_cases a s with ⟨r, e⟩ | ⟨-, e⟩ <;> rw [e]
  · exact .write _ _ f c (.field ⟨k.3, k.4⟩ r)
  · exact .failsEarly f c (.insufficient k.1 k.2)

theorem decAlign_ends {a : Nat} (f : s.fault = false) (c : ¬ ContractCause i) (k : IsDecoder i) :
    EndsIn i s (decAlign a s) := by
  rcases decAlign_cases a s with ⟨r, e⟩ | ⟨-, e⟩ <;> rw [e]
  · exact .read _ _ _ f c ⟨k.3, k.4, k.2⟩ (.inr r) (.inl rfl) fun _ _ => valFits_zero
  · exact .failsEarly f c (.insufficient k.1 k.2)

theorem encBytes_ends {din : List Byte} (f : s.fault = false) (c : ¬ ContractCause i) (k : IsEncoder i) :
    EndsIn i s (encBytes din s) := by
  rcases encBytes_cases din s with ⟨r, e⟩ | ⟨-, e⟩ <;> rw [e]
  · exact .write _ _ f c (.bytes ⟨k.3, k.4⟩ r)
  · exact .failsEarly f c (.insufficient k.1 k.2)

theorem encCounted_ends {n u : Nat} (f : s.fault = false) (c : ¬ ContractCause i) (k : IsEncoder i) :
    EndsIn i s (encCounted n u s) := by
  rcases encCounted_cases n u s with ⟨r, e⟩ | ⟨-, e⟩ <;> rw [e]
  · have h : Wrote i s (writeField 8 n s) 8 := .field ⟨k.3, k.4⟩ (by simp only [room] at r ⊢; omega)
    refine .write _ _ f c (h.trans (.field ⟨k.3, k.4⟩ ?_))
    simp only [room, writeField_pos, writeField_cap] at r ⊢; omega
  · exact .failsEarly f c (.insufficient k.1 k.2)

theorem encWidth_ends {n : Nat} {v : Int} (hc : ContractCause i ↔ 64 < n) (f : s.fault = false) (k : IsEncoder i) :
    EndsIn i s (encWidth n v s) := by
  rcases encWidth_cases n v s with ⟨h, e⟩ | ⟨h, e⟩ <;> rw [e]
  · exact .fault (.inr (hc.2 h))
  · exact encPos_ends f (fun x => absurd (hc.1 x) (by omega)) k

theorem decWidth_ends {n : Nat} (hc : ContractCause i ↔ 64 < n) (f : s.fault = false) (k : IsDecoder i) :
    EndsIn i s (decWidth n s) := by
  rcases decWidth_cases n s with ⟨h, e⟩ | ⟨h, e⟩ <;> rw [e]
  · exact .fault (.inr (hc.2 h))
  · exact decPos_ends h f (fun x => absurd (hc.1 x) (by omega)) k

theorem constSize_ends {n : Nat} {body : StepResult} (hc : ContractCause i ↔ n < 1 ∨ 64 < n)
    (h : 1 ≤ n → n ≤ 64 → ¬ ContractCause i → EndsIn i s body) : EndsIn i s (constSize n s body) := by
  rcases constSize_cases n s body with ⟨h', e⟩ | ⟨h1, h2, e⟩ <;> rw [e]
  · exact .fault (.inr (hc.2 h'))
  · exact h h1 h2 fun x => absurd (hc.1 x) (by omega)

theorem readCounted_ends {value : Nat → Nat → Int} (hv : ∀ l u, l ≤ 8 → u < 2 ^ (8 * l) → ValFits (value l u))
    (f : s.fault = false) (c : ¬ ContractCause i) (k : IsDecoder i) (h : mayFailLate i = true) :
    EndsIn i s (match readCounted s with
      | (.error code, t) => fail code t
      | (.ok (l, u), t) => ok (value l u) (8 + 8 * l) [] t) := by
  rcases readCounted_cases s with ⟨-, e⟩ | ⟨r, -, e⟩ | ⟨r, -, -, e⟩ | ⟨l, r, e⟩ <;> rw [e]
  · exact .failsEarly f c (.insufficient k.1 k.2)
  · exact .failsLate f c h r (.invalid k.1 k.2)
  · exact .failsLate f c h r (.insufficient k.1 k.2)
  · exact .read _ _ _ f c ⟨k.3, k.4, k.2⟩ (.inr r) (.inl rfl) fun _ _ => hv _ _ l (memRead_lt _ _ _)

theorem bcdResult_ends {acc n : Nat} (r : room n s) (f : s.fault = false) (c : ¬ ContractCause i) (k : IsDecoder i)
    (h : mayFailLate i = true) : EndsIn i s (bcdResult acc n (skipBits n s)) := by
  rcases bcdResult_cases acc n (skipBits n s) with ⟨ha, e⟩ | ⟨-, e⟩ <;> rw [e]
  · exact .read _ _ _ f c ⟨k.3, k.4, k.2⟩ (.inr r) (.inl rfl) fun _ _ => valFits_nat (Nat.le_refl 64) ha
  · exact .failsLate f c h r (.invalid k.1 k.2)

theorem encRealBe_ends {n : Nat} {v : Int} (hc : ContractCause i ↔ v < 0 ∨ 2 ^ (8 * n) ≤ v) (f : s.fault = false)
    (k : IsEncoder i) : EndsIn i s (encRealBe n v s) := by
  rcases encRealBe_cases n v s with ⟨h, e⟩ | ⟨h, e⟩ <;> rw [e]
  · exact .fault (.inr (hc.2 (by by_contra x; exact h ⟨by omega, by omega⟩)))
  · exact encPos_ends f (fun x => absurd (hc.1 x) (by have := h.1; have := h.2; omega)) k

theorem encRealLe_ends {n : Nat} {v : Int} (hc : ContractCause i ↔ v < 0 ∨ 2 ^ (8 * n) ≤ v) (f : s.fault = false)
    (k : IsEncoder i) : EndsIn i s (encRealLe n v s) := by
  rcases encRealLe_cases n v s with ⟨h, e⟩ | ⟨h, e⟩ <;> rw [e]
  · exact .fault (.inr (hc.2 (by by_contra x; exact h ⟨by omega, by omega⟩)))
  · exact encLe_ends f (fun x => absurd (hc.1 x) (by have := h.1; have := h.2; omega)) k

end

/-! ### How the commands with a body of their own end -/

theorem readDigits_cases (c : Nat) (s : State) :
    (∃ acc, readDigits c 0 s = (.ok acc, skipBits (4 * c) s)) ∨
    ∃ j < c, readDigits c 0 s = (.error .invalidValue, skipBits (4 * (j + 1)) s) := by
  rcases digits_or_first_bad s.buf s.pos c with h | ⟨j, hj, h, h9⟩
  · exact .inl ⟨_, readDigits_ok c 0 s h⟩
  · exact .inr ⟨j, hj, readDigits_error c 0 s hj h h9⟩

theorem execEncInt_ends (v lo hi : Int) (size : Option Nat) (s : State) :
    EndsIn (.encInt v lo hi size) s (execEncInt v lo hi size s) := by
  have hc : ContractCause (.encInt v lo hi size) ↔ hi < lo ∨ 2 ^ 64 ≤ hi - lo := Iff.rfl
  refine .unlessFaulted fun f => ?_
  split_ifs with h1 h2 h3
  · exact .fault (.inr (.inl h1))
  · exact .fault (.inr (.inr h2))
  · exact .failsEarly f (fun x => absurd (hc.1 x) (by omega)) (.constraint rfl rfl)
  · dsimp only
    split_ifs with h4
    · exact .write _ _ f (fun x => absurd (hc.1 x) (by omega)) (.field ⟨rfl, rfl⟩ h4)
    · exact .failsEarly f (fun x => absurd (hc.1 x) (by omega)) (.insufficient rfl rfl)

theorem decIntRange_ends (lo hi : Int) (size : Option Nat) {s : State} (f : s.fault = false) :
    EndsIn (.decInt (some lo) (some hi) size) s (decIntRange lo hi s) := by
  have hc : ContractCause (.decInt (some lo) (some hi) size) ↔ hi < lo ∨ 2 ^ 64 ≤ hi - lo := Iff.rfl
  unfold decIntRange
  split_ifs with h1 h2
  · exact .fault (.inr (hc.2 (.inl h1)))
  · exact .fault (.inr (hc.2 (.inr h2)))
  · have hn : ¬ ContractCause (.decInt (some lo) (some hi) size) := fun x => absurd (hc.1 x) (by omega)
    dsimp only
    split_ifs with h3 h4
    · exact .failsLate f hn rfl h3 (.constraint rfl rfl)
    · refine .read _ _ _ f hn ⟨rfl, rfl, rfl⟩ (.inr h3) (.inl rfl) fun hw _ => ?_
      simp only [Instr.wf, Option.all_some, valueWf, Bool.and_eq_true, decide_eq_true_eq] at hw
      constructor <;> omega
    · exact .failsEarly f hn (.insufficient rfl rfl)

theorem decIntSized_ends {lo hi : Option Int} {n : Nat} {s : State} (f : s.fault = false)
    (hc : ContractCause (.decInt lo hi (some n)) ↔ 64 < n) :
    EndsIn (.decInt lo hi (some n)) s (decIntSized lo hi n s) := by
  unfold decIntSized
  split_ifs with h1 h2
  · exact .fault (.inr (hc.2 h1))
  · have hn : ¬ ContractCause (.decInt lo hi (some n)) := fun x => h1 (hc.1 x)
    dsimp only
    split_ifs with h3 h4
    · exact .failsLate f hn rfl h2 (.constraint rfl rfl)
    · exact .failsLate f hn rfl h2 (.constraint rfl rfl)
    · exact .read _ _ _ f hn ⟨rfl, rfl, rfl⟩ (.inr h2) (.inl rfl) fun _ _ => valFits_memRead _ _ (Nat.not_lt.mp h1)
  · exact .failsEarly f (fun x => h1 (hc.1 x)) (.insufficient rfl rfl)

theorem execDecInt_ends (lo hi : Option Int) (size : Option Nat) (s : State) :
    EndsIn (.decInt lo hi size) s (execDecInt lo hi size s) := by
  refine .unlessFaulted fun f => ?_
  rcases lo with _ | lo <;> rcases hi with _ | hi <;> rcases size with _ | n <;> first
    | exact decIntRange_ends _ _ _ f
    | exact decIntSized_ends f Iff.rfl
    | exact .failsEarly f id (.invalid rfl rfl)

theorem execDecEnum_ends (k : Nat) (s : State) : EndsIn (.decEnum k) s (execDecEnum k s) := by
  refine .unlessFaulted fun f => ?_
  split_ifs with h1
  · exact .fault (.inr h1)
  · dsimp only
    split_ifs with h2 h3
    · exact .failsLate f h1 rfl h2 (.constraint rfl rfl)
    · refine .read _ _ _ f h1 ⟨rfl, rfl, rfl⟩ (.inr h2) (.inl rfl) fun hw _ => ?_
      simp only [Instr.wf, portPWf, decide_eq_true_eq] at hw
      exact valFits_nat (n := 32) (by decide) (Nat.lt_trans (Nat.not_le.mp h3) hw)
    · exact .failsEarly f h1 (.insufficient rfl rfl)

theorem execAcnEncBcdConst_ends (n : Nat) (v : Int) (s : State) :
    EndsIn (.acnEncBcdConst n v) s (execAcnEncBcdConst n v s) := by
  refine .unlessFaulted fun f => ?_
  split_ifs with h1 h2 h3 h4 h5
  · exact .fault (.inr (.inl h1))
  · exact .fault (.inr (.inr h2))
  · exact .failsEarly f (fun x => x.elim h1 h2) (.invalid rfl rfl)
  · exact .failsEarly f (fun x => x.elim h1 h2) (.invalid rfl rfl)
  · exact .write _ _ f (fun x => x.elim h1 h2) (.digits ⟨rfl, rfl⟩ h5)
  · exact .failsEarly f (fun x => x.elim h1 h2) (.insufficient rfl rfl)

theorem execAcnDecBcdConst_ends (n : Nat) (s : State) :
    EndsIn (.acnDecBcdConst n) s (execAcnDecBcdConst n s) := by
  refine .unlessFaulted fun f => ?_
  split_ifs with h1 h2
  · exact .fault (.inr h1)
  · rcases readDigits_cases n s with ⟨acc, e⟩ | ⟨j, hj, e⟩ <;> rw [e]
    · exact bcdResult_ends h2 f h1 ⟨rfl, rfl, rfl, rfl⟩ rfl
    · exact .failsLate f h1 rfl (by simp only [room] at h2 ⊢; omega) (.invalid rfl rfl)
  · exact .failsEarly f h1 (.insufficient rfl rfl)

theorem execAcnEncBcdVar_ends (v : Int) (s : State) : EndsIn (.acnEncBcdVar v) s (execAcnEncBcdVar v s) := by
  refine .unlessFaulted fun f => ?_
  split_ifs with h1 h2
  · exact .fault (.inr h1)
  · exact .failsEarly f h1 (.invalid rfl rfl)
  · dsimp only
    split_ifs with h3
    · have h : Wrote (.acnEncBcdVar v) s (writeField 8 (ndigits v.toNat) s) 8 :=
        .field ⟨rfl, rfl⟩ (by simp only [room] at h3 ⊢; omega)
      refine .write _ _ f h1 (h.trans (.digits ⟨rfl, rfl⟩ ?_))
      simp only [room, writeField_pos, writeField_cap] at h3 ⊢; omega
    · exact .failsEarly f h1 (.insufficient rfl rfl)

theorem execAcnDecBcdVar_ends (s : State) : EndsIn .acnDecBcdVar s (execAcnDecBcdVar s) := by
  refine .unlessFaulted fun f => ?_
  dsimp only
  split_ifs with h1 h2 h3
  · exact .failsLate f id rfl h1 (.invalid rfl rfl)
  · have hr : room (8 + 4 * memRead s.buf s.pos 8) s := by
      simp only [room, readField, skipBits_pos, skipBits_cap] at h3 ⊢; omega
    simp only [readField_fst, readField_snd]
    rcases readDigits_cases (memRead s.buf s.pos 8) (skipBits 8 s) with ⟨acc, e⟩ | ⟨j, hj, e⟩ <;>
      rw [e, skipBits_skipBits]
    · exact bcdResult_ends hr f id ⟨rfl, rfl, rfl, rfl⟩ rfl
    · exact .failsLate f id rfl (by simp only [room] at hr ⊢; omega) (.invalid rfl rfl)
  · exact .failsLate f id rfl h1 (.insufficient rfl rfl)
  · exact .failsEarly f id (.insufficient rfl rfl)

theorem execAcnEncBcdNt_ends (v : Int) (s : State) : EndsIn (.acnEncBcdNt v) s (execAcnEncBcdNt v s) := by
  refine .unlessFaulted fun f => ?_
  split_ifs with h1 h2
  · exact .fault (.inr h1)
  · exact .failsEarly f h1 (.invalid rfl rfl)
  · dsimp only
    split_ifs with h3
    · have h : Wrote (.acnEncBcdNt v) s (writeDigits v.toNat (ndigits v.toNat) s) (4 * ndigits v.toNat) :=
        .digits ⟨rfl, rfl⟩ (by simp only [room] at h3 ⊢; omega)
      refine .write _ _ f h1 (h.trans (.field ⟨rfl, rfl⟩ ?_))
      simp only [room, writeDigits_pos, writeDigits_cap] at h3 ⊢; omega
    · exact .failsEarly f h1 (.insufficient rfl rfl)

theorem execAcnDecBcdNt_ends (s : State) : EndsIn .acnDecBcdNt s (execAcnDecBcdNt s) := by
  refine .unlessFaulted fun f => ?_
  by_cases hp : s.pos ≤ s.cap
  · obtain ⟨j, hj, ⟨x, e⟩ | ⟨c, e, rfl | rfl⟩⟩ := readDigitsNt_cases Config.maxDig 0 0 s hp <;> rw [e]
    · simp only [Nat.zero_add]
      exact bcdResult_ends hj f id ⟨rfl, rfl, rfl, rfl⟩ rfl
    · exact .failsLate f id rfl hj (.insufficient rfl rfl)
    · exact .failsLate f id rfl hj (.invalid rfl rfl)
  · rw [readDigitsNt_eq, if_pos (by simp only [room]; omega)]
    exact .failsEarly f id (.insufficient rfl rfl)

/-- Everything a command can end in. -/
theorem exec_ends (i : Instr) (s : State) : EndsIn i s (exec i s) := by
  cases i with
  | bbWriteBits n v => exact .unlessFaulted fun f => bufWrite_ends f id ⟨rfl, rfl⟩ ⟨rfl, rfl⟩
  | bbReadBits n => exact .unlessFaulted fun f => bufRead_ends f id rfl ⟨rfl, rfl, rfl⟩
  | bbWriteBit v => exact .unlessFaulted fun f => bufWrite_ends f id ⟨rfl, rfl⟩ ⟨rfl, rfl⟩
  | bbReadBit => exact .unlessFaulted fun f => bufRead_ends f id rfl ⟨rfl, rfl, rfl⟩
  | bbWriteByte v => exact .unlessFaulted fun f => bufWrite_ends f id ⟨rfl, rfl⟩ ⟨rfl, rfl⟩
  | bbReadByte => exact .unlessFaulted fun f => bufRead_ends f id rfl ⟨rfl, rfl, rfl⟩
  | bbWriteBytes din =>
    refine .unlessFaulted fun f => ?_
    split_ifs with r
    · exact .write _ _ f id (.bytes ⟨rfl, rfl⟩ r)
    · exact .failsEarly f id (.buffer rfl rfl)
  | bbReadBytes k =>
    refine .unlessFaulted fun f => ?_
    split_ifs with r
    · dsimp only
      rw [readBytes_snd]
      exact .read _ _ _ f id ⟨rfl, rfl, rfl⟩ (.inr r) (.inr rfl) fun _ _ => valFits_zero
    · exact .failsEarly f id (.buffer rfl rfl)
  | bbBitsRemaining =>
    refine .unlessFaulted fun f => .read _ 0 _ f id ⟨rfl, rfl, rfl⟩ (.inl rfl) (.inl rfl) fun _ h => ?_
    have h1 := h.cap_le
    have h2 := h.pos_le
    simp only [Config.capMax] at h1
    constructor <;> omega
  | bbIsAtEnd =>
    refine .unlessFaulted fun f => .read _ 0 _ f id ⟨rfl, rfl, rfl⟩ (.inl rfl) (.inl rfl) fun _ _ => ?_
    split_ifs <;> constructor <;> norm_num
  | bbSetPos p =>
    refine .unlessFaulted fun f => ?_
    split_ifs with r
    · exact .failsEarly f id (.buffer rfl rfl)
    · exact .place _ f id rfl (Nat.not_lt.mp r)
  | bbAlignWr =>
    refine .unlessFaulted fun f => ?_
    split_ifs with r
    · exact .write _ _ f id (.field ⟨rfl, rfl⟩ r)
    · exact .failsEarly f id (.buffer rfl rfl)
  | bbAlignRd =>
    refine .unlessFaulted fun f => ?_
    split_ifs with r
    · exact .read _ _ _ f id ⟨rfl, rfl, rfl⟩ (.inr r) (.inl rfl) fun _ _ => valFits_zero
    · exact .failsEarly f id (.buffer rfl rfl)
  | bbGetData => exact .unlessFaulted fun f => .read _ 0 _ f id ⟨rfl, rfl, rfl⟩ (.inl rfl) (.inr rfl) fun _ _ => valFits_zero
  | bbResetPos => exact .unlessFaulted fun f => .place _ f id rfl (Nat.zero_le _)
  | encInt v lo hi size => exact execEncInt_ends v lo hi size s
  | decInt lo hi size => exact execDecInt_ends lo hi size s
  | encUint n v => exact .unlessFaulted fun f => encWidth_ends Iff.rfl f ⟨rfl, rfl, rfl, rfl⟩
  | decUint n => exact .unlessFaulted fun f => decWidth_ends Iff.rfl f ⟨rfl, rfl, rfl, rfl⟩
  | decEnum k => exact execDecEnum_ends k s
  | encNull => exact .unlessFaulted fun f => .read _ 0 _ f id ⟨rfl, rfl, rfl⟩ (.inl rfl) (.inl rfl) fun _ _ => valFits_zero
  | decNull => exact .unlessFaulted fun f => .read _ 0 _ f id ⟨rfl, rfl, rfl⟩ (.inl rfl) (.inl rfl) fun _ _ => valFits_zero
  | encAlignByte => exact .unlessFaulted fun f => encAlign_ends f id ⟨rfl, rfl, rfl, rfl⟩
  | encAlignWord => exact .unlessFaulted fun f => encAlign_ends f id ⟨rfl, rfl, rfl, rfl⟩
  | encAlignDword => exact .unlessFaulted fun f => encAlign_ends f id ⟨rfl, rfl, rfl, rfl⟩
  | decAlignByte => exact .unlessFaulted fun f => decAlign_ends f id ⟨rfl, rfl, rfl, rfl⟩
  | decAlignWord => exact .unlessFaulted fun f => decAlign_ends f id ⟨rfl, rfl, rfl, rfl⟩
  | decAlignDword => exact .unlessFaulted fun f => decAlign_ends f id ⟨rfl, rfl, rfl, rfl⟩
  | encAppendBytes din => exact .unlessFaulted fun f => encBytes_ends f id ⟨rfl, rfl, rfl, rfl⟩
  | encOctetsNolen din => exact .unlessFaulted fun f => encBytes_ends f id ⟨rfl, rfl, rfl, rfl⟩
  | decOctetsNolen k =>
    refine .unlessFaulted fun f => ?_
    split_ifs with r
    · dsimp only
      rw [readBytes_snd]
      exact .read _ _ _ f id ⟨rfl, rfl, rfl⟩ (.inr r) (.inr rfl) fun _ _ => valFits_zero
    · exact .failsEarly f id (.insufficient rfl rfl)
  | acnEncPosConst n v =>
    exact .unlessFaulted fun f => constSize_ends Iff.rfl fun _ _ c => encPos_ends f c ⟨rfl, rfl, rfl, rfl⟩
  | acnDecPosConst n =>
    exact .unlessFaulted fun f => constSize_ends Iff.rfl fun _ h c => decPos_ends h f c ⟨rfl, rfl, rfl, rfl⟩
  | acnEncTcConst n v =>
    exact .unlessFaulted fun f => constSize_ends Iff.rfl fun _ _ c => encTc_ends f c ⟨rfl, rfl, rfl, rfl⟩
  | acnDecTcConst n =>
    exact .unlessFaulted fun f => constSize_ends Iff.rfl fun h' h c => decTc_ends h' h f c ⟨rfl, rfl, rfl, rfl⟩
  | acnEncPosVar v =>
    refine .unlessFaulted fun f => ?_
    split_ifs with h1 h2
    · exact .fault (.inr h1)
    · exact .failsEarly f h1 (.invalid rfl rfl)
    · exact encCounted_ends f h1 ⟨rfl, rfl, rfl, rfl⟩
  | acnDecPosVar =>
    exact .unlessFaulted fun f => readCounted_ends (value := fun _ u => u) (fun _ _ h => valFits_nat (by omega)) f id
      ⟨rfl, rfl, rfl, rfl⟩ rfl
  | acnEncTcVar v =>
    refine .unlessFaulted fun f => ?_
    split_ifs with h1
    · exact encCounted_ends f (not_not_intro h1) ⟨rfl, rfl, rfl, rfl⟩
    · exact .fault (.inr h1)
  | acnDecTcVar =>
    refine .unlessFaulted fun f => readCounted_ends (value := fun l u => if l = 0 then 0 else sext (8 * l) u)
      (fun l u h hu => ?_) f id ⟨rfl, rfl, rfl, rfl⟩ rfl
    split_ifs with h0
    · exact valFits_zero
    · exact valFits_sext (by omega) (by omega) hu
  | acnEncLength n v => exact .unlessFaulted fun f => encWidth_ends Iff.rfl f ⟨rfl, rfl, rfl, rfl⟩
  | acnDecLength n => exact .unlessFaulted fun f => decWidth_ends Iff.rfl f ⟨rfl, rfl, rfl, rfl⟩
  | acnEncPosBe16 v => exact .unlessFaulted fun f => encPos_ends f id ⟨rfl, rfl, rfl, rfl⟩
  | acnDecPosBe16 => exact .unlessFaulted fun f => decPos_ends (by decide) f id ⟨rfl, rfl, rfl, rfl⟩
  | acnEncPosBe32 v => exact .unlessFaulted fun f => encPos_ends f id ⟨rfl, rfl, rfl, rfl⟩
  | acnDecPosBe32 => exact .unlessFaulted fun f => decPos_ends (by decide) f id ⟨rfl, rfl, rfl, rfl⟩
  | acnEncPosBe64 v => exact .unlessFaulted fun f => encPos_ends f id ⟨rfl, rfl, rfl, rfl⟩
  | acnDecPosBe64 => exact .unlessFaulted fun f => decPos_ends (by decide) f id ⟨rfl, rfl, rfl, rfl⟩
  | acnEncPosLe16 v => exact .unlessFaulted fun f => encPosLe_ends f id ⟨rfl, rfl, rfl, rfl⟩
  | acnDecPosLe16 =>
    exact .unlessFaulted fun f => decLe_ends (fun _ => valFits_nat (by decide)) f id ⟨rfl, rfl, rfl, rfl⟩
  | acnEncPosLe32 v => exact .unlessFaulted fun f => encPosLe_ends f id ⟨rfl, rfl, rfl, rfl⟩
  | acnDecPosLe32 =>
    exact .unlessFaulted fun f => decLe_ends (fun _ => valFits_nat (by decide)) f id ⟨rfl, rfl, rfl, rfl⟩
  | acnEncPosLe64 v => exact .unlessFaulted fun f => encPosLe_ends f id ⟨rfl, rfl, rfl, rfl⟩
  | acnDecPosLe64 =>
    exact .unlessFaulted fun f => decLe_ends (fun _ => valFits_nat (by decide)) f id ⟨rfl, rfl, rfl, rfl⟩
  | acnEncTcBe16 v => exact .unlessFaulted fun f => encTc_ends f id ⟨rfl, rfl, rfl, rfl⟩
  | acnDecTcBe16 => exact .unlessFaulted fun f => decTc_ends (by decide) (by decide) f id ⟨rfl, rfl, rfl, rfl⟩
  | acnEncTcBe32 v => exact .unlessFaulted fun f => encTc_ends f id ⟨rfl, rfl, rfl, rfl⟩
  | acnDecTcBe32 => exact .unlessFaulted fun f => decTc_ends (by decide) (by decide) f id ⟨rfl, rfl, rfl, rfl⟩
  | acnEncTcBe64 v => exact .unlessFaulted fun f => encTc_ends f id ⟨rfl, rfl, rfl, rfl⟩
  | acnDecTcBe64 => exact .unlessFaulted fun f => decTc_ends (by decide) (by decide) f id ⟨rfl, rfl, rfl, rfl⟩
  | acnEncTcLe16 v => exact .unlessFaulted fun f => encTcLe_ends f id ⟨rfl, rfl, rfl, rfl⟩
  | acnDecTcLe16 =>
    exact .unlessFaulted fun f => decLe_ends (fun _ => valFits_sext (by decide) (by decide)) f id ⟨rfl, rfl, rfl, rfl⟩
  | acnEncTcLe32 v => exact .unlessFaulted fun f => encTcLe_ends f id ⟨rfl, rfl, rfl, rfl⟩
  | acnDecTcLe32 =>
    exact .unlessFaulted fun f => decLe_ends (fun _ => valFits_sext (by decide) (by decide)) f id ⟨rfl, rfl, rfl, rfl⟩
  | acnEncTcLe64 v => exact .unlessFaulted fun f => encTcLe_ends f id ⟨rfl, rfl, rfl, rfl⟩
  | acnDecTcLe64 =>
    exact .unlessFaulted fun f => decLe_ends (fun _ => valFits_sext (by decide) (by decide)) f id ⟨rfl, rfl, rfl, rfl⟩
  | acnEncBcdConst n v => exact execAcnEncBcdConst_ends n v s
  | acnDecBcdConst n => exact execAcnDecBcdConst_ends n s
  | acnEncBcdVar v => exact execAcnEncBcdVar_ends v s
  | acnDecBcdVar => exact execAcnDecBcdVar_ends s
  | acnEncBcdNt v => exact execAcnEncBcdNt_ends v s
  | acnDecBcdNt => exact execAcnDecBcdNt_ends s
  | acnEncReal32Be v => exact .unlessFaulted fun f => encRealBe_ends Iff.rfl f ⟨rfl, rfl, rfl, rfl⟩
  | acnDecReal32Be => exact .unlessFaulted fun f => decPos_ends (by decide) f id ⟨rfl, rfl, rfl, rfl⟩
  | acnEncReal32Le v => exact .unlessFaulted fun f => encRealLe_ends Iff.rfl f ⟨rfl, rfl, rfl, rfl⟩
  | acnDecReal32Le =>
    exact .unlessFaulted fun f => decLe_ends (fun _ => valFits_nat (by decide)) f id ⟨rfl, rfl, rfl, rfl⟩
  | acnEncReal64Be v => exact .unlessFaulted fun f => encRealBe_ends Iff.rfl f ⟨rfl, rfl, rfl, rfl⟩
  | acnDecReal64Be => exact .unlessFaulted fun f => decPos_ends (by decide) f id ⟨rfl, rfl, rfl, rfl⟩
  | acnEncReal64Le v => exact .unlessFaulted fun f => encRealLe_ends Iff.rfl f ⟨rfl, rfl, rfl, rfl⟩
  | acnDecReal64Le =>
    exact .unlessFaulted fun f => decLe_ends (fun _ => valFits_nat (by decide)) f id ⟨rfl, rfl, rfl, rfl⟩
  | acnStub which => exact .unlessFaulted fun f => .failsEarly f id (.inr (.inl ⟨rfl, rfl, rfl⟩))

end Sys2Proof.Machine
end

