-- ==== Sys2Proof/Laws/PerInstr.lean ====
section
/-!
SUPPORT. Laws proved once for each constructor of Instr. Family HeaderWord: the header the encoder writes has its
reserved bits 0 (30_encoding.md R80), so no command is encoded as an illegal header on their account.
-/

namespace Sys2Proof.Laws

/-- The reserved bits of the encoded header are 0 (30_encoding.md R80). -/
def HeaderWord.Statement (i : Instr) : Prop := i.wf = true → reservedField (encode i).hdr = 0

theorem HeaderWord.of_fields {i : Instr} {op n fl : Nat} (h : (encode i).hdr = header op n fl) (hop : op < 256)
    (hn : n < 256) (hfl : fl < 8) : reservedField (encode i).hdr = 0 := by
  rw [h, reservedField_header hop hn hfl]

theorem HeaderWord.count_lt {n : Nat} (h : countWf n = true) : n < 256 := by simpa [countWf] using h

theorem HeaderWord.size_lt {size : Option Nat} (h : size.all countWf = true) : size.getD 0 < 256 := by
  cases size with
  | none => decide
  | some n => exact HeaderWord.count_lt (by simpa using h)

theorem HeaderWord.bbWriteBits (n : Nat) (v : Int) : Statement (.bbWriteBits n v) := fun h =>
  of_fields rfl (by decide) (count_lt ((Bool.and_eq_true_iff.mp h).1)) (by decide)
theorem HeaderWord.bbReadBits (n : Nat) : Statement (.bbReadBits n) := fun h =>
  of_fields rfl (by decide) (count_lt h) (by decide)
theorem HeaderWord.bbWriteBit (v : Int) : Statement (.bbWriteBit v) := fun _ =>
  of_fields rfl (by decide) (by decide) (by decide)
theorem HeaderWord.bbReadBit : Statement (.bbReadBit) := fun _ =>
  of_fields rfl (by decide) (by decide) (by decide)
theorem HeaderWord.bbWriteByte (v : Int) : Statement (.bbWriteByte v) := fun _ =>
  of_fields rfl (by decide) (by decide) (by decide)
theorem HeaderWord.bbReadByte : Statement (.bbReadByte) := fun _ =>
  of_fields rfl (by decide) (by decide) (by decide)
theorem HeaderWord.bbWriteBytes (din : List Byte) : Statement (.bbWriteBytes din) := fun _ =>
  of_fields rfl (by decide) (by decide) (by decide)
theorem HeaderWord.bbReadBytes (k : Nat) : Statement (.bbReadBytes k) := fun _ =>
  of_fields rfl (by decide) (by decide) (by decide)
theorem HeaderWord.bbBitsRemaining : Statement (.bbBitsRemaining) := fun _ =>
  of_fields rfl (by decide) (by decide) (by decide)
theorem HeaderWord.bbIsAtEnd : Statement (.bbIsAtEnd) := fun _ =>
  of_fields rfl (by decide) (by decide) (by decide)
theorem HeaderWord.bbSetPos (p : Nat) : Statement (.bbSetPos p) := fun _ =>
  of_fields rfl (by decide) (by decide) (by decide)
theorem HeaderWord.bbAlignWr : Statement (.bbAlignWr) := fun _ =>
  of_fields rfl (by decide) (by decide) (by decide)
theorem HeaderWord.bbAlignRd : Statement (.bbAlignRd) := fun _ =>
  of_fields rfl (by decide) (by decide) (by decide)
theorem HeaderWord.bbGetData : Statement (.bbGetData) := fun _ =>
  of_fields rfl (by decide) (by decide) (by decide)
theorem HeaderWord.bbResetPos : Statement (.bbResetPos) := fun _ =>
  of_fields rfl (by decide) (by decide) (by decide)
theorem HeaderWord.encInt (v lo hi : Int) (size : Option Nat) : Statement (.encInt v lo hi size) := fun h =>
  of_fields rfl (by decide) (size_lt ((Bool.and_eq_true_iff.mp h).2)) (flags_lt _ _ _)
theorem HeaderWord.decInt (lo hi : Option Int) (size : Option Nat) : Statement (.decInt lo hi size) := fun h =>
  of_fields rfl (by decide) (size_lt ((Bool.and_eq_true_iff.mp h).2)) (flags_lt _ _ _)
theorem HeaderWord.encUint (n : Nat) (v : Int) : Statement (.encUint n v) := fun h =>
  of_fields rfl (by decide) (count_lt ((Bool.and_eq_true_iff.mp h).1)) (by decide)
theorem HeaderWord.decUint (n : Nat) : Statement (.decUint n) := fun h =>
  of_fields rfl (by decide) (count_lt h) (by decide)
theorem HeaderWord.decEnum (k : Nat) : Statement (.decEnum k) := fun _ =>
  of_fields rfl (by decide) (by decide) (by decide)
theorem HeaderWord.encNull : Statement (.encNull) := fun _ =>
  of_fields rfl (by decide) (by decide) (by decide)
theorem HeaderWord.decNull : Statement (.decNull) := fun _ =>
  of_fields rfl (by decide) (by decide) (by decide)
theorem HeaderWord.encAlignByte : Statement (.encAlignByte) := fun _ =>
  of_fields rfl (by decide) (by decide) (by decide)
theorem HeaderWord.encAlignWord : Statement (.encAlignWord) := fun _ =>
  of_fields rfl (by decide) (by decide) (by decide)
theorem HeaderWord.encAlignDword : Statement (.encAlignDword) := fun _ =>
  of_fields rfl (by decide) (by decide) (by decide)
theorem HeaderWord.decAlignByte : Statement (.decAlignByte) := fun _ =>
  of_fields rfl (by decide) (by decide) (by decide)
theorem HeaderWord.decAlignWord : Statement (.decAlignWord) := fun _ =>
  of_fields rfl (by decide) (by decide) (by decide)
theorem HeaderWord.decAlignDword : Statement (.decAlignDword) := fun _ =>
  of_fields rfl (by decide) (by decide) (by decide)
theorem HeaderWord.encAppendBytes (din : List Byte) : Statement (.encAppendBytes din) := fun _ =>
  of_fields rfl (by decide) (by decide) (by decide)
theorem HeaderWord.encOctetsNolen (din : List Byte) : Statement (.encOctetsNolen din) := fun _ =>
  of_fields rfl (by decide) (by decide) (by decide)
theorem HeaderWord.decOctetsNolen (k : Nat) : Statement (.decOctetsNolen k) := fun _ =>
  of_fields rfl (by decide) (by decide) (by decide)
theorem HeaderWord.acnEncPosConst (n : Nat) (v : Int) : Statement (.acnEncPosConst n v) := fun h =>
  of_fields rfl (by decide) (count_lt ((Bool.and_eq_true_iff.mp h).1)) (by decide)
theorem HeaderWord.acnDecPosConst (n : Nat) : Statement (.acnDecPosConst n) := fun h =>
  of_fields rfl (by decide) (count_lt h) (by decide)
theorem HeaderWord.acnEncTcConst (n : Nat) (v : Int) : Statement (.acnEncTcConst n v) := fun h =>
  of_fields rfl (by decide) (count_lt ((Bool.and_eq_true_iff.mp h).1)) (by decide)
theorem HeaderWord.acnDecTcConst (n : Nat) : Statement (.acnDecTcConst n) := fun h =>
  of_fields rfl (by decide) (count_lt h) (by decide)
theorem HeaderWord.acnEncPosVar (v : Int) : Statement (.acnEncPosVar v) := fun _ =>
  of_fields rfl (by decide) (by decide) (by decide)
theorem HeaderWord.acnDecPosVar : Statement (.acnDecPosVar) := fun _ =>
  of_fields rfl (by decide) (by decide) (by decide)
theorem HeaderWord.acnEncTcVar (v : Int) : Statement (.acnEncTcVar v) := fun _ =>
  of_fields rfl (by decide) (by decide) (by decide)
theorem HeaderWord.acnDecTcVar : Statement (.acnDecTcVar) := fun _ =>
  of_fields rfl (by decide) (by decide) (by decide)
theorem HeaderWord.acnEncLength (n : Nat) (v : Int) : Statement (.acnEncLength n v) := fun h =>
  of_fields rfl (by decide) (count_lt ((Bool.and_eq_true_iff.mp h).1)) (by decide)
theorem HeaderWord.acnDecLength (n : Nat) : Statement (.acnDecLength n) := fun h =>
  of_fields rfl (by decide) (count_lt h) (by decide)
theorem HeaderWord.acnEncPosBe16 (v : Int) : Statement (.acnEncPosBe16 v) := fun _ =>
  of_fields rfl (by decide) (by decide) (by decide)
theorem HeaderWord.acnDecPosBe16 : Statement (.acnDecPosBe16) := fun _ =>
  of_fields rfl (by decide) (by decide) (by decide)
theorem HeaderWord.acnEncPosBe32 (v : Int) : Statement (.acnEncPosBe32 v) := fun _ =>
  of_fields rfl (by decide) (by decide) (by decide)
theorem HeaderWord.acnDecPosBe32 : Statement (.acnDecPosBe32) := fun _ =>
  of_fields rfl (by decide) (by decide) (by decide)
theorem HeaderWord.acnEncPosBe64 (v : Int) : Statement (.acnEncPosBe64 v) := fun _ =>
  of_fields rfl (by decide) (by decide) (by decide)
theorem HeaderWord.acnDecPosBe64 : Statement (.acnDecPosBe64) := fun _ =>
  of_fields rfl (by decide) (by decide) (by decide)
theorem HeaderWord.acnEncPosLe16 (v : Int) : Statement (.acnEncPosLe16 v) := fun _ =>
  of_fields rfl (by decide) (by decide) (by decide)
theorem HeaderWord.acnDecPosLe16 : Statement (.acnDecPosLe16) := fun _ =>
  of_fields rfl (by decide) (by decide) (by decide)
theorem HeaderWord.acnEncPosLe32 (v : Int) : Statement (.acnEncPosLe32 v) := fun _ =>
  of_fields rfl (by decide) (by decide) (by decide)
theorem HeaderWord.acnDecPosLe32 : Statement (.acnDecPosLe32) := fun _ =>
  of_fields rfl (by decide) (by decide) (by decide)
theorem HeaderWord.acnEncPosLe64 (v : Int) : Statement (.acnEncPosLe64 v) := fun _ =>
  of_fields rfl (by decide) (by decide) (by decide)
theorem HeaderWord.acnDecPosLe64 : Statement (.acnDecPosLe64) := fun _ =>
  of_fields rfl (by decide) (by decide) (by decide)
theorem HeaderWord.acnEncTcBe16 (v : Int) : Statement (.acnEncTcBe16 v) := fun _ =>
  of_fields rfl (by decide) (by decide) (by decide)
theorem HeaderWord.acnDecTcBe16 : Statement (.acnDecTcBe16) := fun _ =>
  of_fields rfl (by decide) (by decide) (by decide)
theorem HeaderWord.acnEncTcBe32 (v : Int) : Statement (.acnEncTcBe32 v) := fun _ =>
  of_fields rfl (by decide) (by decide) (by decide)
theorem HeaderWord.acnDecTcBe32 : Statement (.acnDecTcBe32) := fun _ =>
  of_fields rfl (by decide) (by decide) (by decide)
theorem HeaderWord.acnEncTcBe64 (v : Int) : Statement (.acnEncTcBe64 v) := fun _ =>
  of_fields rfl (by decide) (by decide) (by decide)
theorem HeaderWord.acnDecTcBe64 : Statement (.acnDecTcBe64) := fun _ =>
  of_fields rfl (by decide) (by decide) (by decide)
theorem HeaderWord.acnEncTcLe16 (v : Int) : Statement (.acnEncTcLe16 v) := fun _ =>
  of_fields rfl (by decide) (by decide) (by decide)
theorem HeaderWord.acnDecTcLe16 : Statement (.acnDecTcLe16) := fun _ =>
  of_fields rfl (by decide) (by decide) (by decide)
theorem HeaderWord.acnEncTcLe32 (v : Int) : Statement (.acnEncTcLe32 v) := fun _ =>
  of_fields rfl (by decide) (by decide) (by decide)
theorem HeaderWord.acnDecTcLe32 : Statement (.acnDecTcLe32) := fun _ =>
  of_fields rfl (by decide) (by decide) (by decide)
theorem HeaderWord.acnEncTcLe64 (v : Int) : Statement (.acnEncTcLe64 v) := fun _ =>
  of_fields rfl (by decide) (by decide) (by decide)
theorem HeaderWord.acnDecTcLe64 : Statement (.acnDecTcLe64) := fun _ =>
  of_fields rfl (by decide) (by decide) (by decide)
theorem HeaderWord.acnEncBcdConst (n : Nat) (v : Int) : Statement (.acnEncBcdConst n v) := fun h =>
  of_fields rfl (by decide) (count_lt ((Bool.and_eq_true_iff.mp h).1)) (by decide)
theorem HeaderWord.acnDecBcdConst (n : Nat) : Statement (.acnDecBcdConst n) := fun h =>
  of_fields rfl (by decide) (count_lt h) (by decide)
theorem HeaderWord.acnEncBcdVar (v : Int) : Statement (.acnEncBcdVar v) := fun _ =>
  of_fields rfl (by decide) (by decide) (by decide)
theorem HeaderWord.acnDecBcdVar : Statement (.acnDecBcdVar) := fun _ =>
  of_fields rfl (by decide) (by decide) (by decide)
theorem HeaderWord.acnEncBcdNt (v : Int) : Statement (.acnEncBcdNt v) := fun _ =>
  of_fields rfl (by decide) (by decide) (by decide)
theorem HeaderWord.acnDecBcdNt : Statement (.acnDecBcdNt) := fun _ =>
  of_fields rfl (by decide) (by decide) (by decide)
theorem HeaderWord.acnEncReal32Be (v : Int) : Statement (.acnEncReal32Be v) := fun _ =>
  of_fields rfl (by decide) (by decide) (by decide)
theorem HeaderWord.acnDecReal32Be : Statement (.acnDecReal32Be) := fun _ =>
  of_fields rfl (by decide) (by decide) (by decide)
theorem HeaderWord.acnEncReal32Le (v : Int) : Statement (.acnEncReal32Le v) := fun _ =>
  of_fields rfl (by decide) (by decide) (by decide)
theorem HeaderWord.acnDecReal32Le : Statement (.acnDecReal32Le) := fun _ =>
  of_fields rfl (by decide) (by decide) (by decide)
theorem HeaderWord.acnEncReal64Be (v : Int) : Statement (.acnEncReal64Be v) := fun _ =>
  of_fields rfl (by decide) (by decide) (by decide)
theorem HeaderWord.acnDecReal64Be : Statement (.acnDecReal64Be) := fun _ =>
  of_fields rfl (by decide) (by decide) (by decide)
theorem HeaderWord.acnEncReal64Le (v : Int) : Statement (.acnEncReal64Le v) := fun _ =>
  of_fields rfl (by decide) (by decide) (by decide)
theorem HeaderWord.acnDecReal64Le : Statement (.acnDecReal64Le) := fun _ =>
  of_fields rfl (by decide) (by decide) (by decide)
theorem HeaderWord.acnStub (which : Nat) : Statement (.acnStub which) := fun h =>
  have hw : which < 16 := of_decide_eq_true h
  of_fields rfl (by omega) (by decide) (by decide)

end Sys2Proof.Laws
end

