-- ==== Sys2Proof/Tests/Slice0.lean ====
section
/-!
SUPPORT. Tests: the refusals of WellFormed, headers written out from 30_encoding.md R80 and R84, one step each on the
vectors of 95_test_vectors.md (named by their ids B1 …, X13, I7), and for every obligation with hypotheses a witness
that meets them, each clause at a boundary.
-/

namespace Sys2Proof.Tests

open Sys2Proof.Machine

/- One theorem after the other: each `decide +kernel` waits for all that stand before it, and dozens waiting at once
take more memory than the check allows. -/
set_option Elab.async false

/-! ### Helpers -/

/-- A buffer from all its bytes. -/
def memory (bs : List Nat) : Memory :=
  (bs.zipIdx.filter fun x => x.1 ≠ 0).map fun x => (x.2, BitVec.ofNat 8 x.1)

/-- A start state of the vectors: CAP, POS, USED, BUF. -/
def st (cap pos used : Nat) (bs : List Nat) : State :=
  { State.reset with cap := cap, pos := pos, used := used, buf := memory bs }

/-- The state with one bundle presented. -/
def presenting (b : Ports) (s : State) : State := { s with pending := [.command b] }

/-- The bundle of a header and the value port. -/
def hv (h : HdrWord) (v : Int) : Ports := { hdr := h, v := BitVec.ofInt 65 v }

/-- The bundle of a header and the ports of ENC_INT and DEC_INT. -/
def hr (h : HdrWord) (v lo hi : Int) : Ports :=
  { hdr := h, v := BitVec.ofInt 65 v, lo := BitVec.ofInt 65 lo, hi := BitVec.ofInt 65 hi }

/-- The bundle of a header and the bytes of a byte-array write. -/
def hd (h : HdrWord) (bs : List Nat) : Ports :=
  { hdr := h, p := BitVec.ofNat 32 bs.length, din := bs.map (BitVec.ofNat 8) }

/-- The step on a bundle ends in `Ok(val, bits, data)` and leaves `after`. -/
def answers (s : State) (b : Ports) (val : Int) (bits : Nat) (after : State) (data : List Nat := []) : Bool :=
  match step (presenting b s) with
  | .next t => decide (t = { after with
      success := true, err := .success, val := val, bits := bits, dout := data.map (BitVec.ofNat 8) })
  | _ => false

/-- The step on a bundle ends in `Err(code)` with POS at `pos` and nothing else changed. -/
def errs (s : State) (b : Ports) (code : ErrCode) (pos : Nat := s.pos) : Bool :=
  match step (presenting b s) with
  | .next t => !t.success && decide (t.err = code) && decide (t.pos = pos) && decide (t.cap = s.cap) &&
      decide (t.buf = s.buf) && decide (t.used = s.used) && !t.fault
  | _ => false

/-- The step on a bundle raises ContractFault: FAULT 1, BUF, POS and USED as before. -/
def faults (s : State) (b : Ports) : Bool :=
  match step (presenting b s) with
  | .fault (.contractFault t) => t.fault && decide (t.cap = s.cap) && decide (t.buf = s.buf) &&
      decide (t.pos = s.pos) && decide (t.used = s.used)
  | _ => false

/-- INIT gives an instance with CAP, USED and BUF as said, POS 0 and FAULT 0. -/
def inits (maxBits : Nat) (bytes : List Nat) (used : Nat) (bs : List Nat) : Bool :=
  match initInstance 0 maxBits (bytes.map (BitVec.ofNat 8)) [] with
  | some t => decide (t.cap = maxBits) && decide (t.used = used) && decide (t.buf = memory bs) &&
      decide (t.pos = 0) && !t.fault
  | none => false

/-! ### WellFormed refuses an ill-formed term for each of its checks -/

theorem test_wf_count : (Instr.bbReadBits 255).wf = true ∧ (Instr.bbReadBits 256).wf = false ∧
    (Instr.acnEncBcdConst 256 0).wf = false ∧ (Instr.encInt 0 0 0 (some 256)).wf = false ∧
    (Instr.decInt none none (some 256)).wf = false := by decide +kernel

theorem test_wf_value : (Instr.bbWriteBit (2 ^ 64 - 1)).wf = true ∧ (Instr.bbWriteBit (2 ^ 64)).wf = false ∧
    (Instr.acnEncTcVar (-2 ^ 64)).wf = true ∧ (Instr.acnEncTcVar (-2 ^ 64 - 1)).wf = false ∧
    (Instr.encInt 0 (2 ^ 64) 0 none).wf = false ∧ (Instr.decInt none (some (2 ^ 64)) none).wf = false := by
  decide +kernel

theorem test_wf_port_p : (Instr.bbSetPos (2 ^ 32 - 1)).wf = true ∧ (Instr.bbSetPos (2 ^ 32)).wf = false ∧
    (Instr.decEnum (2 ^ 32)).wf = false := by decide +kernel

theorem test_wf_din_length (din : List Byte) (h : din.length = 2 ^ 32) : (Instr.bbWriteBytes din).wf = false := by
  simp only [Instr.wf, portPWf, h]; decide +kernel

theorem test_wf_stub : (Instr.acnStub 15).wf = true ∧ (Instr.acnStub 16).wf = false := by decide

/-! ### Headers, written out as `OP | N<<8 | HAS_LO<<16 | HAS_HI<<17 | HAS_N<<18` -/

theorem test_decode_bit_buffer :
    [0x301, 0x4002, 0x3, 0x4, 0x5, 0x6, 0x7, 0x8, 0x9, 0xA, 0xB, 0xC, 0xD, 0xE, 0xF].map (decodeTableWord 32) =
      [.bbWriteBits 3 0, .bbReadBits 64, .bbWriteBit 0, .bbReadBit, .bbWriteByte 0, .bbReadByte, .bbWriteBytes [],
        .bbReadBytes 0, .bbBitsRemaining, .bbIsAtEnd, .bbSetPos 0, .bbAlignWr, .bbAlignRd, .bbGetData,
        .bbResetPos].map some := by decide +kernel

theorem test_decode_generic :
    [0x40910, 0x30011, 0x812, 0x813, 0x14, 0x15, 0x16, 0x17, 0x18, 0x19, 0x1A, 0x1B, 0x1C, 0x1D, 0x1E, 0x1F].map
        (decodeTableWord 32) =
      [.encInt 0 0 0 (some 9), .decInt (some 0) (some 0) none, .encUint 8 0, .decUint 8, .decEnum 0, .encNull, .decNull,
        .encAlignByte, .encAlignWord, .encAlignDword, .decAlignByte, .decAlignWord, .decAlignDword, .encAppendBytes [],
        .encOctetsNolen [], .decOctetsNolen 0].map some := by decide +kernel

theorem test_decode_acn_const :
    [0x820, 0x4021, 0x822, 0x123, 0x24, 0x25, 0x26, 0x27, 0x428, 0x429].map (decodeTableWord 32) =
      [.acnEncPosConst 8 0, .acnDecPosConst 64, .acnEncTcConst 8 0, .acnDecTcConst 1, .acnEncPosVar 0, .acnDecPosVar,
        .acnEncTcVar 0, .acnDecTcVar, .acnEncLength 4 0, .acnDecLength 4].map some := by decide +kernel

theorem test_decode_acn_positive :
    [0x30, 0x31, 0x32, 0x33, 0x34, 0x35, 0x36, 0x37, 0x38, 0x39, 0x3A, 0x3B].map (decodeTableWord 32) =
      [.acnEncPosBe16 0, .acnDecPosBe16, .acnEncPosBe32 0, .acnDecPosBe32, .acnEncPosBe64 0, .acnDecPosBe64,
        .acnEncPosLe16 0, .acnDecPosLe16, .acnEncPosLe32 0, .acnDecPosLe32, .acnEncPosLe64 0,
        .acnDecPosLe64].map some := by decide +kernel

theorem test_decode_acn_twos_complement :
    [0x40, 0x41, 0x42, 0x43, 0x44, 0x45, 0x46, 0x47, 0x48, 0x49, 0x4A, 0x4B].map (decodeTableWord 32) =
      [.acnEncTcBe16 0, .acnDecTcBe16, .acnEncTcBe32 0, .acnDecTcBe32, .acnEncTcBe64 0, .acnDecTcBe64,
        .acnEncTcLe16 0, .acnDecTcLe16, .acnEncTcLe32 0, .acnDecTcLe32, .acnEncTcLe64 0,
        .acnDecTcLe64].map some := by decide +kernel

theorem test_decode_bcd_real_stub :
    [0x450, 0x1451, 0x52, 0x53, 0x54, 0x55, 0x60, 0x61, 0x62, 0x63, 0x64, 0x65, 0x66, 0x67, 0x70, 0x127F].map
        (decodeTableWord 32) =
      [.acnEncBcdConst 4 0, .acnDecBcdConst 20, .acnEncBcdVar 0, .acnDecBcdVar, .acnEncBcdNt 0, .acnDecBcdNt,
        .acnEncReal32Be 0, .acnDecReal32Be, .acnEncReal32Le 0, .acnDecReal32Le, .acnEncReal64Be 0, .acnDecReal64Be,
        .acnEncReal64Le 0, .acnDecReal64Le, .acnStub 0, .acnStub 15].map some := by decide +kernel

/-- H35 to H39: a reserved bit, the opcodes beside each block of the table. -/
theorem test_decode_illegal :
    [0x80002, 0x80000015, 0x0, 0x2A, 0x2F, 0x3C, 0x3F, 0x4C, 0x4F, 0x56, 0x5F, 0x68, 0x6F, 0x80, 0xFF].map
      (decodeTableWord 32) = List.replicate 15 none := by decide +kernel

/-- Operands are read from their ports, signed ones with their sign (R82). -/
theorem test_decode_ports :
    decode (hv 0x822 (-5)) = .ok (.acnEncTcConst 8 (-5)) ∧
    decode (hr 0x50811 0 100 7) = .ok (.decInt (some 100) none (some 8)) ∧
    decode (hr 0x60811 0 100 (-7)) = .ok (.decInt none (some (-7)) (some 8)) ∧
    decode (hr 0x10 3 (-5) 10) = .ok (.encInt 3 (-5) 10 none) ∧
    decode { hdr := 0x1F, p := 0xFFFFFFFF } = .ok (.decOctetsNolen 0xFFFFFFFF) ∧
    decode (hd 0x1D [0xDE, 0xAD]) = .ok (.encAppendBytes [0xDE, 0xAD]) ∧
    decode { hdr := 0x1D, p := 1 } = .error .dinLength := by decide +kernel

/-! ### Reset, INIT, COPY, registers -/

theorem test_reset_memory_wf : State.reset.buf.wf = true := rfl

/-- What the host asks of a header: the kernel evaluates it. -/
theorem test_first_instruction :
    (∃ t, step (State.reset.withFetchWord 32 0x70) = .next t ∧ t.err = .unsupportedOperation) ∧
    step (State.reset.withFetchWord 32 0x4002) = exec (.bbReadBits 64) State.reset :=
  ⟨⟨_, rfl, rfl⟩, rfl⟩

/-- I1 to I4. -/
theorem test_init_accepts :
    inits 16 [] 0 [] = true ∧ inits 24 [0xC8, 1] 16 [0xC8, 1] = true ∧
    inits 12 [0xFF, 0xFF] 12 [0xFF, 0xF0] = true ∧ inits 1 [] 0 [] = true := by decide +kernel

/-- I5 to I7. -/
theorem test_init_refuses : initRefused 0 [] = true ∧ initRefused 8 [1, 2] = true ∧ initRefused (2 ^ 32) [] = true ∧
    initRefused (2 ^ 32 - 1) [] = false := by decide +kernel

/-- 3.8: the block stays faulted, the stub and the zero-bit commands included, until INIT. -/
theorem test_fault_sticky :
    faults { st 16 3 16 [0xC8, 1] with fault := true } { hdr := 0x15 } = true ∧
    faults { st 16 3 16 [0xC8, 1] with fault := true } { hdr := 0x70 } = true ∧
    faults { st 16 3 16 [0xC8, 1] with fault := true } { hdr := 0x80002 } = true ∧
    (reinit 16 [0xC8, 1] { st 16 3 16 [0xC8, 1] with fault := true }).fault = false := by decide +kernel

/-! ### One step each, on the vectors of 95_test_vectors.md -/

/-- B9, B10. -/
theorem test_bb_write_bits :
    answers (st 24 6 0 []) (hv 0xA01 1023) 0 10 (st 24 16 16 [3, 0xFF]) = true ∧
    answers (st 16 4 16 [0xFF, 0xFF]) (hv 0x401 0) 0 4 (st 16 8 16 [0xF0, 0xFF]) = true := by decide +kernel

/-- B12, B14. -/
theorem test_bb_read_bits :
    answers (st 24 6 24 [3, 0xFF]) { hdr := 0xA02 } 1023 10 (st 24 16 24 [3, 0xFF]) = true ∧
    errs (st 128 0 0 []) { hdr := 0x4102 } .bitstreamError = true := by decide +kernel

/-- B18, B19, B21. -/
theorem test_bb_bit :
    answers (st 8 7 0 []) (hv 3 1) 0 1 (st 8 8 8 [1]) = true ∧ errs (st 8 0 0 []) (hv 3 2) .bitstreamError = true ∧
    answers (st 8 0 8 [0x80]) { hdr := 4 } 1 1 (st 8 1 8 [0x80]) = true := by decide +kernel

/-- B23, B24, B26. -/
theorem test_bb_byte :
    answers (st 16 4 0 []) (hv 5 255) 0 8 (st 16 12 12 [0x0F, 0xF0]) = true ∧
    errs (st 16 0 0 []) (hv 5 256) .bitstreamError = true ∧
    answers (st 16 4 16 [0x0F, 0xF0]) { hdr := 6 } 255 8 (st 16 12 16 [0x0F, 0xF0]) = true := by decide +kernel

/-- B29, B31, B32. -/
theorem test_bb_bytes :
    answers (st 16 4 0 []) (hd 7 [0xAB]) 0 8 (st 16 12 12 [0x0A, 0xB0]) = true ∧
    errs (st 16 0 0 []) (hd 7 [1, 2, 3]) .bitstreamError = true ∧
    answers (st 24 8 24 [2, 1, 0x2C]) { hdr := 8, p := 2 } 0 16 (st 24 24 24 [2, 1, 0x2C]) [1, 0x2C] = true := by
  decide +kernel

/-- B35, B39, B48. -/
theorem test_bb_queries :
    answers (st 16 3 0 []) { hdr := 9 } 13 0 (st 16 3 0 []) = true ∧
    answers (st 16 16 16 [0xFF, 0xFF]) { hdr := 0xA } 1 0 (st 16 16 16 [0xFF, 0xFF]) = true ∧
    answers (st 16 3 3 [0xA0]) { hdr := 0xE } 0 0 (st 16 3 3 [0xA0]) [0xA0] = true := by decide +kernel

/-- B41, B42, B51. -/
theorem test_bb_position :
    answers (st 16 0 8 [0xC8]) { hdr := 0xB, p := 16 } 0 0 (st 16 16 8 [0xC8]) = true ∧
    errs (st 16 12 8 [0xC8]) { hdr := 0xB, p := 17 } .bitstreamError = true ∧
    answers (st 16 16 16 [0xC8, 1]) { hdr := 0xF } 0 0 (st 16 0 16 [0xC8, 1]) = true := by decide +kernel

/-- B43, B45, B46. -/
theorem test_bb_align :
    answers (st 16 3 16 [0xBF, 0xFF]) { hdr := 0xC } 0 5 (st 16 8 16 [0xA0, 0xFF]) = true ∧
    errs (st 12 9 0 []) { hdr := 0xC } .bitstreamError = true ∧
    answers (st 16 3 16 [0xBF, 0xFF]) { hdr := 0xD } 0 5 (st 16 8 16 [0xBF, 0xFF]) = true := by decide +kernel

/-- G3, G12, G15. -/
theorem test_enc_int :
    answers (st 8 0 0 []) (hr 0x10 (-3) (-5) 10) 0 4 (st 8 4 4 [0x20]) = true ∧
    errs (st 8 6 0 []) (hr 0x10 8 0 7) .constraintViolation = true ∧
    faults (st 8 0 0 []) (hr 0x10 0 (-1) 0xFFFFFFFFFFFFFFFF) = true := by decide +kernel

/-- G17, G20, G24, G29. -/
theorem test_dec_int :
    errs (st 8 0 8 [0xC0]) (hr 0x30011 0 0 5) .constraintViolation 3 = true ∧
    errs (st 8 0 8 [0xA0]) (hr 0x10011 0 0 0) .invalidValue = true ∧
    errs (st 8 0 8 [0xC8]) (hr 0x60811 0 0 199) .constraintViolation 8 = true ∧
    answers (st 64 0 64 [0x7F, 0xFF, 0xFF, 0xFF, 0xFF, 0xFF, 0xFF, 0xFF])
      (hr 0x30011 0 (-9223372036854775808) 0x7FFFFFFFFFFFFFFF) (-1) 64
      (st 64 64 64 [0x7F, 0xFF, 0xFF, 0xFF, 0xFF, 0xFF, 0xFF, 0xFF]) = true := by decide +kernel

/-- G32, G40, G42, G45. -/
theorem test_uint :
    answers (st 8 0 0 []) (hv 0x812 200) 0 8 (st 8 8 8 [0xC8]) = true ∧
    errs (st 8 4 0 []) (hv 0x812 256) .invalidValue = true ∧
    answers (st 8 0 8 [0xC8]) { hdr := 0x813 } 200 8 (st 8 8 8 [0xC8]) = true ∧
    faults (st 128 0 0 []) { hdr := 0x4113 } = true := by decide +kernel

/-- G46, G47, G53. -/
theorem test_dec_enum :
    answers (st 8 0 8 [0x80]) { hdr := 0x14, p := 3 } 2 2 (st 8 2 8 [0x80]) = true ∧
    errs (st 8 0 8 [0xC0]) { hdr := 0x14, p := 3 } .constraintViolation 2 = true ∧
    faults (st 8 0 0 []) { hdr := 0x14 } = true := by decide +kernel

/-- G54, G55. -/
theorem test_null :
    answers (st 8 8 0 []) { hdr := 0x15 } 0 0 (st 8 8 0 []) = true ∧
    answers (st 8 8 0 []) { hdr := 0x16 } 0 0 (st 8 8 0 []) = true := by decide +kernel

/-- G56, G61, G63. -/
theorem test_enc_align :
    answers (st 16 3 16 [0xFF, 0xFF]) { hdr := 0x17 } 0 5 (st 16 8 16 [0xE0, 0xFF]) = true ∧
    answers (st 32 17 0 []) { hdr := 0x18 } 0 15 (st 32 32 32 []) = true ∧
    answers (st 32 3 32 [0xFF, 0xFF, 0xFF, 0xFF]) { hdr := 0x19 } 0 29 (st 32 32 32 [0xE0]) = true := by
  decide +kernel

/-- G65, G66, G68, G69. -/
theorem test_dec_align :
    answers (st 16 3 16 [0xFF, 0xFF]) { hdr := 0x1A } 0 5 (st 16 8 16 [0xFF, 0xFF]) = true ∧
    answers (st 32 20 0 []) { hdr := 0x1B } 0 12 (st 32 32 0 []) = true ∧
    answers (st 64 33 0 []) { hdr := 0x1C } 0 31 (st 64 64 0 []) = true ∧
    errs (st 40 33 0 []) { hdr := 0x1C } .insufficientData = true := by decide +kernel

/-- G70, G73, G75, G72. -/
theorem test_octets :
    answers (st 16 0 0 []) (hd 0x1D [0xDE, 0xAD]) 0 16 (st 16 16 16 [0xDE, 0xAD]) = true ∧
    answers (st 16 4 0 []) (hd 0x1E [0xFF]) 0 8 (st 16 12 12 [0x0F, 0xF0]) = true ∧
    answers (st 16 4 16 [0x0F, 0xF0]) { hdr := 0x1F, p := 1 } 0 8 (st 16 12 16 [0x0F, 0xF0]) [0xFF] = true ∧
    errs (st 16 0 0 []) (hd 0x1D [1, 2, 3]) .insufficientData = true := by decide +kernel

/-- A9, A11, A14. -/
theorem test_acn_pos_const :
    answers (st 16 4 0 []) (hv 0xC20 2748) 0 12 (st 16 16 16 [0x0A, 0xBC]) = true ∧
    faults (st 8 0 0 []) (hv 0x20 0) = true ∧
    answers (st 16 4 16 [0x0A, 0xBC]) { hdr := 0xC21 } 2748 12 (st 16 16 16 [0x0A, 0xBC]) = true := by
  decide +kernel

/-- A18, A22, A30, A33. -/
theorem test_acn_tc_const :
    answers (st 8 0 0 []) (hv 0x822 (-5)) 0 8 (st 8 8 8 [0xFB]) = true ∧
    errs (st 8 0 0 []) (hv 0x822 (-129)) .invalidValue = true ∧
    answers (st 8 0 8 [0xFB]) { hdr := 0x823 } (-5) 8 (st 8 8 8 [0xFB]) = true ∧
    answers (st 8 0 8 [0x80]) { hdr := 0x123 } (-1) 1 (st 8 1 8 [0x80]) = true := by decide +kernel

/-- L6, L9, L18, L15. -/
theorem test_acn_pos_var :
    answers (st 32 4 0 []) (hv 0x24 300) 0 24 (st 32 28 28 [0, 0x20, 0x12, 0xC0]) = true ∧
    exec (.acnEncPosVar (2 ^ 64)) (st 24 0 0 []) = contractFault (st 24 0 0 []) ∧
    answers (st 32 4 32 [0, 0x20, 0x12, 0xC0]) { hdr := 0x25 } 300 24 (st 32 28 32 [0, 0x20, 0x12, 0xC0]) = true ∧
    errs (st 80 0 80 [9]) { hdr := 0x25 } .invalidValue 8 = true := ⟨by decide +kernel, rfl, by decide +kernel⟩

/-- L19, L26, L29, L31, L38. -/
theorem test_acn_tc_var :
    answers (st 24 0 0 []) (hv 0x26 (-300)) 0 24 (st 24 24 24 [2, 0xFE, 0xD4]) = true ∧
    answers (st 24 0 0 []) (hv 0x26 (-129)) 0 24 (st 24 24 24 [2, 0xFF, 0x7F]) = true ∧
    faults (st 72 0 0 []) (hv 0x26 0x8000000000000000) = true ∧
    answers (st 24 0 24 [2, 0xFE, 0xD4]) { hdr := 0x27 } (-300) 24 (st 24 24 24 [2, 0xFE, 0xD4]) = true ∧
    errs (st 16 0 16 [2, 0xFF]) { hdr := 0x27 } .insufficientData 8 = true := by decide +kernel

/-- A82, A83, A86. -/
theorem test_acn_length :
    answers (st 8 0 0 []) (hv 0x428 9) 0 4 (st 8 4 4 [0x90]) = true ∧
    errs (st 8 0 0 []) (hv 0x428 16) .invalidValue = true ∧
    answers (st 8 0 8 [0x90]) { hdr := 0x429 } 9 4 (st 8 4 8 [0x90]) = true := by decide +kernel

/-- A36, A42, A45. -/
theorem test_acn_enc_pos_be :
    answers (st 16 0 0 []) (hv 0x30 4660) 0 16 (st 16 16 16 [0x12, 0x34]) = true ∧
    answers (st 32 0 0 []) (hv 0x32 0xDEADBEEF) 0 32 (st 32 32 32 [0xDE, 0xAD, 0xBE, 0xEF]) = true ∧
    answers (st 64 0 0 []) (hv 0x34 0x123456789ABCDEF) 0 64
      (st 64 64 64 [0x01, 0x23, 0x45, 0x67, 0x89, 0xAB, 0xCD, 0xEF]) = true := by decide +kernel

/-- A41, A44, A47. -/
theorem test_acn_dec_pos_be :
    answers (st 16 0 16 [0x12, 0x34]) { hdr := 0x31 } 4660 16 (st 16 16 16 [0x12, 0x34]) = true ∧
    answers (st 32 0 32 [0xDE, 0xAD, 0xBE, 0xEF]) { hdr := 0x33 } 0xDEADBEEF 32
      (st 32 32 32 [0xDE, 0xAD, 0xBE, 0xEF]) = true ∧
    answers (st 64 0 64 [0x01, 0x23, 0x45, 0x67, 0x89, 0xAB, 0xCD, 0xEF]) { hdr := 0x35 } 0x123456789ABCDEF 64
      (st 64 64 64 [0x01, 0x23, 0x45, 0x67, 0x89, 0xAB, 0xCD, 0xEF]) = true := by decide +kernel

/-- A50, A56, A58. -/
theorem test_acn_enc_pos_le :
    answers (st 24 4 0 []) (hv 0x36 4660) 0 16 (st 24 20 20 [0x03, 0x41, 0x20]) = true ∧
    answers (st 32 0 0 []) (hv 0x38 0xDEADBEEF) 0 32 (st 32 32 32 [0xEF, 0xBE, 0xAD, 0xDE]) = true ∧
    answers (st 64 0 0 []) (hv 0x3A 0x123456789ABCDEF) 0 64
      (st 64 64 64 [0xEF, 0xCD, 0xAB, 0x89, 0x67, 0x45, 0x23, 0x01]) = true := by decide +kernel

/-- A54, A57, A59. -/
theorem test_acn_dec_pos_le :
    answers (st 24 4 24 [0x03, 0x41, 0x20]) { hdr := 0x37 } 4660 16 (st 24 20 24 [0x03, 0x41, 0x20]) = true ∧
    answers (st 32 0 32 [0xEF, 0xBE, 0xAD, 0xDE]) { hdr := 0x39 } 0xDEADBEEF 32
      (st 32 32 32 [0xEF, 0xBE, 0xAD, 0xDE]) = true ∧
    answers (st 64 0 64 [0xEF, 0xCD, 0xAB, 0x89, 0x67, 0x45, 0x23, 0x01]) { hdr := 0x3B } 0x123456789ABCDEF 64
      (st 64 64 64 [0xEF, 0xCD, 0xAB, 0x89, 0x67, 0x45, 0x23, 0x01]) = true := by decide +kernel

/-- A60, A68, A70. -/
theorem test_acn_enc_tc_be :
    answers (st 16 0 0 []) (hv 0x40 (-2)) 0 16 (st 16 16 16 [0xFF, 0xFE]) = true ∧
    errs (st 32 0 0 []) (hv 0x42 0x80000000) .invalidValue = true ∧
    answers (st 64 0 0 []) (hv 0x44 (-9223372036854775808)) 0 64 (st 64 64 64 [0x80]) = true := by decide +kernel

/-- A65, A69, A72. -/
theorem test_acn_dec_tc_be :
    answers (st 16 0 16 [0xFF, 0xFE]) { hdr := 0x41 } (-2) 16 (st 16 16 16 [0xFF, 0xFE]) = true ∧
    answers (st 32 0 32 [0xFF, 0xFF, 0xFF, 0xFF]) { hdr := 0x43 } (-1) 32
      (st 32 32 32 [0xFF, 0xFF, 0xFF, 0xFF]) = true ∧
    answers (st 64 0 64 [0x80]) { hdr := 0x45 } (-9223372036854775808) 64 (st 64 64 64 [0x80]) = true := by
  decide +kernel

/-- A73, A76, A77, A79. -/
theorem test_acn_enc_tc_le :
    answers (st 16 0 0 []) (hv 0x46 (-2)) 0 16 (st 16 16 16 [0xFE, 0xFF]) = true ∧
    answers (st 32 0 0 []) (hv 0x48 (-2147483648)) 0 32 (st 32 32 32 [0, 0, 0, 0x80]) = true ∧
    errs (st 32 0 0 []) (hv 0x48 (-2147483649)) .invalidValue = true ∧
    answers (st 64 0 0 []) (hv 0x4A (-2)) 0 64
      (st 64 64 64 [0xFE, 0xFF, 0xFF, 0xFF, 0xFF, 0xFF, 0xFF, 0xFF]) = true := by decide +kernel

/-- A75, A78, A80. -/
theorem test_acn_dec_tc_le :
    answers (st 16 0 16 [0, 0x80]) { hdr := 0x47 } (-32768) 16 (st 16 16 16 [0, 0x80]) = true ∧
    answers (st 32 0 32 [0, 0, 0, 0x80]) { hdr := 0x49 } (-2147483648) 32 (st 32 32 32 [0, 0, 0, 0x80]) = true ∧
    answers (st 64 0 64 [0xFE, 0xFF, 0xFF, 0xFF, 0xFF, 0xFF, 0xFF, 0xFF]) { hdr := 0x4B } (-2) 64
      (st 64 64 64 [0xFE, 0xFF, 0xFF, 0xFF, 0xFF, 0xFF, 0xFF, 0xFF]) = true := by decide +kernel

/-- D2, D3, D10, D7. -/
theorem test_acn_enc_bcd_const :
    answers (st 24 0 0 []) (hv 0x650 1234) 0 24 (st 24 24 24 [0, 0x12, 0x34]) = true ∧
    errs (st 16 0 0 []) (hv 0x350 1234) .invalidValue = true ∧ faults (st 16 0 0 []) (hv 0x50 0) = true ∧
    answers (st 80 0 0 []) (hv 0x1450 0xFFFFFFFFFFFFFFFF) 0 80
      (st 80 80 80 [0x18, 0x44, 0x67, 0x44, 0x07, 0x37, 0x09, 0x55, 0x16, 0x15]) = true := by decide +kernel

/-- D13, D15, D18. -/
theorem test_acn_dec_bcd_const :
    answers (st 16 0 16 [0x12, 0x34]) { hdr := 0x451 } 1234 16 (st 16 16 16 [0x12, 0x34]) = true ∧
    errs (st 16 0 16 [0x12, 0xF4]) { hdr := 0x451 } .invalidValue 12 = true ∧
    errs (st 80 0 80 [0x18, 0x44, 0x67, 0x44, 0x07, 0x37, 0x09, 0x55, 0x16, 0x16]) { hdr := 0x1451 }
      .invalidValue 80 = true := by decide +kernel

/-- D22, D24, D28, D30. -/
theorem test_acn_bcd_var :
    answers (st 16 0 0 []) (hv 0x52 0) 0 12 (st 16 12 12 [1]) = true ∧
    errs (st 16 0 0 []) (hv 0x52 1234) .insufficientData = true ∧
    answers (st 24 0 24 [3, 1, 0x20]) { hdr := 0x53 } 12 20 (st 24 20 24 [3, 1, 0x20]) = true ∧
    errs (st 96 0 96 [0x15]) { hdr := 0x53 } .invalidValue 8 = true := by decide +kernel

/-- D32, D36, D38, D39. -/
theorem test_acn_bcd_nt :
    answers (st 24 0 0 []) (hv 0x54 1234) 0 20 (st 24 20 20 [0x12, 0x34, 0xF0]) = true ∧
    answers (st 8 0 8 [0xF0]) { hdr := 0x55 } 0 4 (st 8 4 8 [0xF0]) = true ∧
    errs (st 16 0 16 [0x12, 0x34]) { hdr := 0x55 } .insufficientData 16 = true ∧
    errs (st 88 0 88 [0x11, 0x11, 0x11, 0x11, 0x11, 0x11, 0x11, 0x11, 0x11, 0x11, 0x1F]) { hdr := 0x55 }
      .invalidValue 84 = true := by decide +kernel

/-- F8, F2, F19. -/
theorem test_acn_enc_real32 :
    answers (st 40 1 0 []) (hv 0x60 0x3F800000) 0 32 (st 40 33 33 [0x1F, 0xC0]) = true ∧
    answers (st 32 0 0 []) (hv 0x62 0x4048F5C3) 0 32 (st 32 32 32 [0xC3, 0xF5, 0x48, 0x40]) = true ∧
    faults (st 64 0 0 []) (hv 0x60 0x100000000) = true := by decide +kernel

/-- F3, F4, F20. -/
theorem test_acn_enc_real64 :
    answers (st 64 0 0 []) (hv 0x64 0x40091EB851EB851F) 0 64
      (st 64 64 64 [0x40, 0x09, 0x1E, 0xB8, 0x51, 0xEB, 0x85, 0x1F]) = true ∧
    answers (st 64 0 0 []) (hv 0x66 0x40091EB851EB851F) 0 64
      (st 64 64 64 [0x1F, 0x85, 0xEB, 0x51, 0xB8, 0x1E, 0x09, 0x40]) = true ∧
    faults (st 64 0 0 []) (hv 0x64 (-1)) = true := by decide +kernel

/-- F13, F14, F11, F12. -/
theorem test_acn_dec_real :
    answers (st 32 0 32 [0x7F, 0xC0, 0, 1]) { hdr := 0x61 } 0x7FC00001 32 (st 32 32 32 [0x7F, 0xC0, 0, 1]) = true ∧
    answers (st 32 0 32 [0x40, 0x48, 0xF5, 0xC3]) { hdr := 0x63 } 0xC3F54840 32
      (st 32 32 32 [0x40, 0x48, 0xF5, 0xC3]) = true ∧
    answers (st 64 0 64 [0x40, 0x09, 0x1E, 0xB8, 0x51, 0xEB, 0x85, 0x1F]) { hdr := 0x65 } 0x40091EB851EB851F 64
      (st 64 64 64 [0x40, 0x09, 0x1E, 0xB8, 0x51, 0xEB, 0x85, 0x1F]) = true ∧
    answers (st 64 0 64 [0x1F, 0x85, 0xEB, 0x51, 0xB8, 0x1E, 0x09, 0x40]) { hdr := 0x67 } 0x40091EB851EB851F 64
      (st 64 64 64 [0x1F, 0x85, 0xEB, 0x51, 0xB8, 0x1E, 0x09, 0x40]) = true := by decide +kernel

/-- X3, X4, X12. -/
theorem test_stub_and_illegal :
    errs (st 16 3 16 [0xC8, 1]) { hdr := 0x1270 } .unsupportedOperation = true ∧
    errs (st 16 3 16 [0xC8, 1]) { hdr := 0 } .unsupportedOperation = true ∧
    errs (st 16 3 16 [0xC8, 1]) { hdr := 0x80802 } .unsupportedOperation = true := by decide +kernel

/-! ### Witnesses: what meets the hypotheses of each obligation

Each theorem lists, clause by clause, a state and operands that meet the clause's hypotheses; the boundaries are met
exactly. `e n` is an empty buffer of `n` bits, `full` a small instance that meets the invariant. -/

/-- An empty buffer of `n` bits, the cursor at its start. -/
abbrev e (n : Nat) : State := st n 0 0 []

/-- Sixteen bits in use, the cursor at 3. -/
abbrev full : State := st 16 3 16 [0xC8, 1]

theorem ready {s : State} (h : (!s.fault && s.buf.wf) = true) : Ready s := by
  simp only [Bool.and_eq_true, Bool.not_eq_true'] at h
  exact h

theorem witness_blockInv (pending : List HostAction) : BlockInv { full with pending := pending } where
  cap_pos := show 1 ≤ 16 by decide
  cap_le := show 16 ≤ Config.capMax by decide +kernel
  pos_le := show 3 ≤ 16 by decide
  used_le := show 16 ≤ 16 by decide
  buf_wf := show (memory [0xC8, 1]).wf = true by decide +kernel
  zero_beyond q hq := by
    have h : ∀ a, 2 ≤ a → readByte (memory [0xC8, 1]) a = 0 := fun a ha => by
      show (if a = 0 then _ else if a = 1 then _ else (0 : Byte)) = 0
      rw [if_neg (by omega), if_neg (by omega)]
    show (readByte (memory [0xC8, 1]) (q / 8)).getLsbD _ = false
    change 16 ≤ q at hq
    rw [h _ (by omega)]; simp

theorem isBitLength_of {x : Int} {n b : Nat} (h : x = n ∧ bitLength n = b) : IsBitLength x b := by
  obtain ⟨rfl, rfl⟩ := h; exact isBitLength_bitLength n

theorem isByteCount_of {x : Int} {n b : Nat} (h : x = n ∧ ubytes n = b) : IsByteCount x b := by
  obtain ⟨rfl, rfl⟩ := h; exact isByteCount_ubytes n

theorem isDigitCount_of {x : Int} {n b : Nat} (h : x = n ∧ ndigits n = b) : IsDigitCount x b := by
  obtain ⟨rfl, rfl⟩ := h; exact isDigitCount_ndigits n

theorem isSignedByteCount_of {x : Int} {b : Nat} (hb : sbytes x = b) : IsSignedByteCount x b := by
  subst hb; exact isSignedByteCount_sbytes x

theorem witness_StepKeepsInvariant :
    ∃ s t, BlockInv s ∧ step s = .next t := ⟨_, _, witness_blockInv [.command { hdr := 0x802 }], rfl⟩

theorem witness_FaultLeavesInvariant :
    ∃ s f, BlockInv s ∧ step s = .fault f := ⟨_, _, witness_blockInv [.command { hdr := 0x14 }], rfl⟩

/-- Accepted at both ends of the capacity and with a last byte of data; refused one beyond each. -/
theorem witness_InitReplacesTheInstance :
    { full with pending := [.init 1 []] }.pending = .init 1 [] :: [] ∧ 1 ≤ 1 ∧ 1 ≤ 2 ^ 32 - 1 ∧ 0 ≤ (1 + 7) / 8 ∧
    { full with pending := [.init (2 ^ 32 - 1) [1]] }.pending = .init (2 ^ 32 - 1) [1] :: [] ∧
    [(1 : Byte)].length ≤ (2 ^ 32 - 1 + 7) / 8 ∧ [(1 : Byte), 2].length ≤ (9 + 7) / 8 ∧
    (0 < 1 ∧ 2 ^ 32 - 1 < 2 ^ 32 ∧ (8 + 7) / 8 < [(1 : Byte), 2].length) :=
  ⟨rfl, by decide, by decide, by decide, rfl, by decide, by decide, by decide⟩

theorem witness_StepRunsDecodedCommand :
    (presenting { hdr := 0x4002 } full).pending = .command { hdr := 0x4002 } :: [] ∧
    decode { hdr := 0x4002 } = .ok (.bbReadBits 64) ∧ full.pending = [] := ⟨rfl, by decide +kernel, rfl⟩

/-- A legal header; an illegal one by its lowest reserved bit, one by its opcode just beyond the table. -/
theorem witness_IllegalHeadersAnswerUnsupported :
    ([] : List Byte).length = (0 : CountWord).toNat ∧ ¬ ((0x7F : HdrWord).toNat / 2 ^ 19 ≠ 0 ∨ Unassigned 0x7F) ∧
    full.fault = false ∧ (0x80002 : HdrWord).toNat / 2 ^ 19 ≠ 0 ∧ Unassigned ((0x80 : HdrWord).toNat % 256) := by
  unfold Unassigned; decide +kernel

theorem witness_DecodeInvertsEncode :
    (Instr.encInt (-2 ^ 64) (2 ^ 64 - 1) 0 (some 255)).wf = true ∧ (Instr.bbSetPos (2 ^ 32 - 1)).wf = true ∧
    (Instr.acnStub 15).wf = true := by decide +kernel

/-- ENC_NULL with N and V filled; DEC_INT with an unsupplied bound and count filled. -/
theorem witness_UnlistedPortsAreIgnored :
    (decode { hdr := 0x15 } = .ok .encNull ∧ opField 0x7FF15 = opField 0x15 ∧ reservedField 0x7FF15 = 0 ∧
      PortsAgree (formatOf .encNull) { hdr := 0x15 } { hdr := 0x7FF15, v := 1 }) ∧
    (decode { hdr := 0x10011, lo := 3 } = .ok (.decInt (some 3) none none) ∧
      PortsAgree (formatOf (.decInt (some 3) none none)) { hdr := 0x10011, lo := 3 }
        { hdr := 0x1FF11, lo := 3, hi := 9, p := 1 }) :=
  ⟨⟨by decide +kernel, by decide +kernel, by decide +kernel, trivial⟩, by decide +kernel, by
    simp only [formatOf, PortsAgree]; decide +kernel⟩

theorem witness_DecodedOperandsAreInRange :
    decode { hdr := 0xFF20, v := BitVec.ofInt 65 (-2 ^ 64) } = .ok (.acnEncPosConst 255 (-2 ^ 64)) := by
  decide +kernel

theorem witness_OnlyUnpresentableBytesAreRefused :
    step (presenting { hdr := 7, p := 1 } full) = .refused .dinLength := rfl

/-- FAULT 1; a cause at its boundary; the last operand that is none. -/
theorem witness_ContractFaultExactlyOnListedCauses :
    { full with fault := true }.fault = true ∧ ContractCause (.encUint 65 0) ∧ ContractCause (.encInt 0 0 (2 ^ 64) none) ∧
    full.fault = false ∧ ¬ ContractCause (.encUint 64 0) ∧ ¬ ContractCause (.encInt 0 0 (2 ^ 64 - 1) none) := by
  simp only [ContractCause]; decide +kernel

theorem witness_FaultIsStickyUntilInit :
    (∃ t, initInstance 0 16 [] [] = some t) ∧
    (∃ f, step (presenting { hdr := 0x15 } { full with fault := true }) = .fault f) ∧
    ((presenting { hdr := 0x80002 } { full with fault := true }).fault = true ∧
      decode { hdr := 0x80002 } ≠ .error .dinLength) ∧
    (∃ t, step { full with fault := true, pending := [.init 16 []] } = .next t ∧ t.fault = false) ∧
    (∃ t, full.fault = false ∧ step (presenting { hdr := 0x4102 } full) = .next t) :=
  ⟨⟨_, rfl⟩, ⟨_, rfl⟩, by decide +kernel, ⟨_, rfl, rfl⟩, _, rfl, rfl⟩

/-- A failure before anything is read; one after (DEC_ENUM of 2 on the field `10`). -/
theorem witness_FailureLeavesBufferUnchanged :
    (∃ t, exec (.bbReadBits 14) full = .next t ∧ t.success = false ∧ t.err = .bitstreamError) ∧
    (∃ t, exec (.acnStub 15) full = .next t ∧ t.success = false ∧ t.err = .unsupportedOperation) ∧
    (∃ t, exec (.decUint 14) full = .next t ∧ t.success = false ∧ mayFailLate (.decUint 14) = false) ∧
    (∃ t, exec (.decEnum 3) (st 8 0 8 [0xC0]) = .next t ∧ t.success = false) :=
  ⟨⟨_, rfl, rfl, rfl⟩, ⟨_, rfl, rfl, rfl⟩, ⟨_, rfl, rfl, rfl⟩, _, rfl, rfl⟩

theorem witness_BitStreamErrorOnlyFromBitBuffer :
    (∃ t, exec (.bbWriteBits 65 0) full = .next t ∧ t.success = false ∧ isBitBuffer (.bbWriteBits 65 0) = true) ∧
    (∃ t, exec (.encUint 8 256) full = .next t ∧ t.success = false ∧ isBitBuffer (.encUint 8 256) = false) :=
  ⟨⟨_, rfl, rfl, rfl⟩, _, rfl, rfl, rfl⟩

theorem witness_ErrorCodesAreTheListedOnes :
    (∃ t, step (presenting { hdr := 0x15 } full) = .next t ∧ t.success = true) ∧
    (∃ t, step (presenting { hdr := 0x70 } full) = .next t ∧ t.err = .unsupportedOperation) ∧
    (∃ t, step (presenting { hdr := 0x6F } full) = .next t ∧ t.err = .unsupportedOperation) :=
  ⟨⟨_, rfl, rfl⟩, ⟨_, rfl, rfl⟩, _, rfl, rfl⟩

theorem witness_BitsCountsTheAdvance :
    (∃ t, exec (.bbReadBits 13) full = .next t ∧ t.success = true ∧ placesCursor (.bbReadBits 13) = false) ∧
    (∃ t, exec (.bbSetPos 16) full = .next t ∧ t.success = true ∧ placesCursor (.bbSetPos 16) = true) :=
  ⟨⟨_, rfl, rfl, rfl⟩, _, rfl, rfl, rfl⟩

theorem witness_CommandsOnlyAdvance :
    ∃ t, exec (.encUint 13 0) full = .next t ∧ placesCursor (.encUint 13 0) = false := ⟨_, rfl, rfl⟩

/-- A writer up to CAP; a writer of nothing; a reader. -/
theorem witness_OnlyPassedBitsChange :
    full.buf.wf = true ∧ (∃ t, exec (.encUint 13 7) full = .next t ∧ mayWrite (.encUint 13 7) = true ∧ t.pos = 16) ∧
    (∃ t, exec (.encUint 0 0) full = .next t ∧ t.pos = full.pos) ∧
    (∃ t, exec (.decUint 13) full = .next t ∧ mayWrite (.decUint 13) = false) :=
  ⟨by decide +kernel, ⟨_, rfl, rfl, rfl⟩, ⟨_, rfl, rfl⟩, _, rfl, rfl⟩

theorem witness_ResultsFitTheirRegisters :
    (Instr.bbReadBits 13).wf = true ∧ BlockInv full ∧
      ∃ t, exec (.bbReadBits 13) full = .next t ∧ t.success = true :=
  ⟨rfl, witness_blockInv [], _, rfl, rfl⟩

/-- A codec reader, a BitBuffer writer, a query and a placing of the cursor; 40_bitbuffer.md R124(c) for the latter
three. -/
theorem witness_DoutIsEmptyUnlessBytesReturned :
    (∃ t, exec (.decUint 13) full = .next t ∧ t.success = true ∧ returnsBytes (.decUint 13) = false) ∧
    (∃ t, exec (.bbWriteBits 13 7) full = .next t ∧ t.success = true ∧ returnsBytes (.bbWriteBits 13 7) = false) ∧
    (∃ t, exec .bbIsAtEnd full = .next t ∧ t.success = true ∧ returnsBytes .bbIsAtEnd = false) ∧
    (∃ t, exec (.bbSetPos 16) full = .next t ∧ t.success = true ∧ returnsBytes (.bbSetPos 16) = false) :=
  ⟨⟨_, rfl, rfl, rfl⟩, ⟨_, rfl, rfl, rfl⟩, ⟨_, rfl, rfl, rfl⟩, _, rfl, rfl, rfl⟩

theorem witness_ResultRegistersAreNotRead :
    SameBlock full { full with val := 5, err := .invalidValue, dout := [1], freeIx := 9, pending := [.init 1 []] } :=
  ⟨rfl, rfl, rfl, rfl, rfl⟩

theorem witness_CopyRunsLikeTheOriginal : [Instr.encNull, .bbGetData] ≠ [] := by decide

theorem witness_RegisterMapReads :
    ReportsOk { full with success := true, err := .success, val := -(2 ^ 64), bits := 13 } (-(2 ^ 64)) 13 [] ∧
    ReportsErr { full with err := .insufficientData } .insufficientData ∧
    ReportsErr { full with err := .invalidValue } .invalidValue ∧
    ReportsErr { full with err := .constraintViolation } .constraintViolation ∧
    ReportsErr { full with err := .unsupportedOperation } .unsupportedOperation ∧
    ReportsErr { full with err := .bitstreamError } .bitstreamError :=
  ⟨⟨rfl, rfl, rfl, rfl, rfl⟩, ⟨rfl, rfl⟩, ⟨rfl, rfl⟩, ⟨rfl, rfl⟩, ⟨rfl, rfl⟩, rfl, rfl⟩

theorem witness_AdjacentFieldsConcatenate :
    Ready (e 64) ∧ fitsU (2 ^ 60 - 1) 60 ∧ fitsU (2 ^ 4 - 1) 4 ∧ 60 + 4 ≤ 64 ∧ room (60 + 4) (e 64) :=
  ⟨ready rfl, by decide +kernel⟩

theorem witness_WriteThenReadReturnsTheValue :
    Ready (e 64) ∧ fitsU (2 ^ 64 - 1) 64 ∧ room 64 (e 64) ∧ fitsU 255 8 ∧ room 8 (st 8 0 8 [0xFF]) ∧
    room (8 * [(1 : Byte), 2].length) (e 16) := ⟨ready rfl, by decide +kernel⟩

theorem witness_ZeroBitAccessesMoveNothing :
    Ready (st 16 16 0 []) ∧ (st 16 16 0 []).pos ≤ (st 16 16 0 []).cap ∧ (1 : Int) ≠ 0 :=
  ⟨ready rfl, by decide⟩

theorem witness_AliasesAreTheSameCommand : fitsU (2 ^ 32 - 1) 32 ∧ fitsU (2 ^ 64 - 1) 64 := by decide +kernel

/-- The decoder's state need not be the encoder's: another instance with the same bits there. -/
theorem witness_EveryPairRoundTrips :
    ∃ t, pairedDecoder (.acnEncTcConst 8 (-128)) = some (.acnDecTcConst 8) ∧ Ready (e 8) ∧
      exec (.acnEncTcConst 8 (-128)) (e 8) = .next t ∧ t.success = true ∧
      (∀ q, 0 ≤ q → q < 0 + t.bits → bitAt (st 8 0 8 [0x80]).buf q = bitAt t.buf q) :=
  ⟨_, rfl, ready rfl, rfl, rfl, fun q _ h => by
    have : ∀ q < 8, bitAt (st 8 0 8 [0x80]).buf q = bitAt (memWrite [] 0 8 128) q := by decide +kernel
    exact this q (by simpa [setOk] using h)⟩

theorem witness_SequencesRoundTrip :
    List.Forall₂ (fun e d => pairedDecoder e = some d) [.encUint 4 9, .encAlignByte, .acnEncBcdNt 0]
      [.decUint 4, .decAlignByte, .acnDecBcdNt] ∧ Ready (e 16) ∧
    (runOk [.encUint 4 9, .encAlignByte, .acnEncBcdNt 0] (e 16)).isSome = true :=
  ⟨.cons rfl (.cons rfl (.cons rfl .nil)), ready rfl, by decide +kernel⟩

/-! #### BitBuffer commands -/

theorem witness_BitFieldWrites :
    Ready (e 64) ∧ (64 ≤ 64 ∧ fitsU (2 ^ 64 - 1) 64 ∧ room 64 (e 64)) ∧
    (64 < 65 ∧ ¬ fitsU (2 ^ 64) 64 ∧ ¬ fitsU (-1) 64 ∧ ¬ room 64 (e 63)) ∧
    (fitsU 255 8 ∧ room 8 (e 8)) ∧ ¬ fitsU 256 8 ∧ ¬ room 8 (e 7) := ⟨ready rfl, by decide +kernel⟩

theorem witness_BitFieldReads :
    Ready (e 64) ∧ (64 ≤ 64 ∧ room 64 (e 64)) ∧ 64 < 65 ∧ ¬ room 64 (e 63) ∧ room 8 (e 8) ∧ ¬ room 8 (e 7) :=
  ⟨ready rfl, by decide +kernel⟩

theorem witness_SingleBitAccess :
    Ready (e 1) ∧ room 1 (e 1) ∧ (2 : Int) ≠ 0 ∧ (2 : Int) ≠ 1 ∧ ¬ room 1 (st 8 8 0 []) := ⟨ready rfl, by decide +kernel⟩

theorem witness_ByteBlocks :
    Ready (e 16) ∧ room (8 * [(1 : Byte), 2].length) (e 16) ∧ ¬ room (8 * [(1 : Byte), 2].length) (e 15) ∧
    room (8 * 2) (e 16) ∧ room (8 * 0) (e 16) ∧ ¬ room (8 * 3) (e 16) := ⟨ready rfl, by decide +kernel⟩

theorem witness_BufferQueries :
    Ready (st 16 16 3 []) ∧ (st 16 16 3 []).pos = (st 16 16 3 []).cap ∧ (st 16 15 3 []).pos ≠ (st 16 15 3 []).cap ∧
    0 < ((st 16 16 3 []).used + 7) / 8 := ⟨ready rfl, by decide +kernel⟩

theorem witness_CursorPlacement :
    Ready (e 16) ∧ 16 ≤ (e 16).cap ∧ (e 16).cap < 17 ∧ { full with fault := true }.fault = true :=
  ⟨ready rfl, by decide +kernel⟩

/-! #### Alignment and the Generic Encoder / Decoder -/

/-- Seven bits to the boundary at CAP; none; one too many. -/
theorem witness_ByteAlignment :
    (Ready (st 16 9 0 []) ∧ IsPadding 8 (st 16 9 0 []).pos 7 ∧ room 7 (st 16 9 0 [])) ∧
    (IsPadding 8 (st 16 16 0 []).pos 0 ∧ room 0 (st 16 16 0 [])) ∧
    IsPadding 8 (st 15 9 0 []).pos 7 ∧ ¬ room 7 (st 15 9 0 []) :=
  ⟨⟨ready rfl, ⟨by decide, by decide⟩, by decide⟩, ⟨⟨by decide, by decide⟩, by decide⟩, ⟨by decide, by decide⟩,
    by decide⟩

theorem witness_WordAlignment :
    (Ready (st 32 17 0 []) ∧ IsPadding 16 (st 32 17 0 []).pos 15 ∧ room 15 (st 32 17 0 [])) ∧
    (IsPadding 16 (st 31 17 0 []).pos 15 ∧ ¬ room 15 (st 31 17 0 [])) ∧
    (IsPadding 32 (st 32 1 0 []).pos 31 ∧ room 31 (st 32 1 0 [])) ∧
    IsPadding 32 (st 31 1 0 []).pos 31 ∧ ¬ room 31 (st 31 1 0 []) :=
  ⟨⟨ready rfl, ⟨by decide, by decide⟩, by decide⟩, ⟨⟨by decide, by decide⟩, by decide⟩,
    ⟨⟨by decide, by decide⟩, by decide⟩, ⟨by decide, by decide⟩, by decide⟩

theorem witness_NullCommands : (st 8 8 0 []).fault = false := rfl

/-- The widest range and the empty one; the first range that is too wide. -/
theorem witness_ConstrainedEncode :
    Ready (e 64) ∧
    ((0 : Int) ≤ 2 ^ 64 - 1 ∧ (2 ^ 64 - 1 - 0 : Int) < 2 ^ 64 ∧ IsBitLength (2 ^ 64 - 1 - 0) 64 ∧ room 64 (e 64)) ∧
    (IsBitLength (7 - 7) 0 ∧ room 0 (st 8 8 0 [])) ∧ (IsBitLength (7 - 0) 3 ∧ ¬ room 3 (e 2)) ∧
    ((8 : Int) > 7 ∧ (-1 : Int) < 0) ∧ ((6 : Int) < 7 ∧ (2 ^ 64 : Int) ≤ 2 ^ 64 - 0) :=
  ⟨ready rfl,
    ⟨by decide +kernel, by decide +kernel, isBitLength_of (n := 2 ^ 64 - 1) (by decide +kernel), by decide⟩,
    ⟨isBitLength_of (n := 0) (by decide +kernel), by decide⟩, ⟨isBitLength_of (n := 7) (by decide +kernel), by decide⟩,
    by decide, by decide +kernel⟩

/-- Range mode on, at and past the upper bound; size mode on each bound and past it; no size. -/
theorem witness_ConstrainedDecode :
    Ready (st 8 0 8 [0xA0]) ∧
    (IsBitLength (5 - 0) 3 ∧ room 3 (st 8 0 8 [0xA0]) ∧ (memRead (st 8 0 8 [0xA0]).buf 0 3 : Int) + 0 ≤ 5 ∧
      (5 : Int) < memRead (st 8 0 8 [0xC0]).buf 0 3 + 0 ∧ ¬ room 3 (e 2)) ∧
    ((2 ^ 64 : Int) ≤ 2 ^ 64 - 0 ∧ (0 : Int) < 1) ∧
    (64 ≤ 64 ∧ room 64 (e 64) ∧ ¬ room 64 (e 63) ∧ 64 < 65) ∧
    ((0xA0 : Int) ≤ memRead (st 8 0 8 [0xA0]).buf 0 8 ∧ (memRead (st 8 0 8 [0xA0]).buf 0 8 : Int) ≤ 0xA0 ∧
      (memRead (st 8 0 8 [0xA0]).buf 0 8 : Int) < 0xA1 ∧ (0x9F : Int) < memRead (st 8 0 8 [0xA0]).buf 0 8) :=
  ⟨ready rfl, ⟨isBitLength_of (n := 5) (by decide +kernel), by decide +kernel⟩, by decide +kernel,
    by decide +kernel, by decide +kernel⟩

theorem witness_UnsignedFields :
    Ready (e 64) ∧ (64 ≤ 64 ∧ fitsU (2 ^ 64 - 1) 64 ∧ room 64 (e 64)) ∧ ¬ fitsU 256 8 ∧ ¬ fitsU (-1) 8 ∧
    (fitsU 255 8 ∧ ¬ room 8 (e 7)) ∧ 64 < 65 := ⟨ready rfl, by decide +kernel⟩

/-- A last legal index and the first illegal one. -/
theorem witness_EnumIndexDecode :
    Ready (st 8 0 8 [0x80]) ∧ (1 ≤ 3 ∧ IsBitLength (((3 : Nat) : Int) - 1) 2 ∧ room 2 (st 8 0 8 [0x80])) ∧
    memRead (st 8 0 8 [0x80]).buf 0 2 < 3 ∧ 3 ≤ memRead (st 8 0 8 [0xC0]).buf 0 2 ∧ ¬ room 2 (e 1) ∧
    (2 < 3 ∧ 3 ≤ 2 ^ 64) :=
  ⟨ready rfl, ⟨by decide, isBitLength_of (n := 2) (by decide +kernel), by decide⟩, by decide +kernel⟩

theorem witness_OctetArrays :
    Ready (e 16) ∧ room (8 * [(1 : Byte), 2].length) (e 16) ∧ ¬ room (8 * [(1 : Byte), 2].length) (e 15) :=
  ⟨ready rfl, by decide +kernel⟩

/-! #### ACN integers -/

theorem witness_ConstantSizePositive :
    Ready (e 64) ∧ (1 ≤ 64 ∧ 64 ≤ 64 ∧ fitsU (2 ^ 64 - 1) 64 ∧ room 64 (e 64)) ∧ (¬ fitsU 2 1 ∧ ¬ fitsU (-1) 1) ∧
    (fitsU 1 1 ∧ ¬ room 1 (st 8 8 0 [])) ∧ (0 < 1 ∧ 64 < 65) := ⟨ready rfl, by decide +kernel⟩

theorem witness_ConstantSizeTwosComplement :
    Ready (e 64) ∧ (1 ≤ 64 ∧ 64 ≤ 64 ∧ fitsS (-(2 ^ 63)) 64 ∧ room 64 (e 64)) ∧ (¬ fitsS 1 1 ∧ ¬ fitsS (-129) 8) ∧
    (fitsS (-1) 1 ∧ ¬ room 1 (st 8 8 0 [])) ∧ (0 < 1 ∧ 64 < 65) := ⟨ready rfl, by decide +kernel⟩

theorem witness_BigEndianPositive :
    Ready (e 64) ∧ (fitsU (2 ^ 16 - 1) 16 ∧ room 16 (e 16) ∧ ¬ fitsU (2 ^ 16) 16 ∧ ¬ room 16 (e 15)) ∧
    (fitsU (2 ^ 32 - 1) 32 ∧ room 32 (e 32) ∧ ¬ fitsU (2 ^ 32) 32 ∧ ¬ room 32 (e 31)) ∧
    (fitsU (2 ^ 64 - 1) 64 ∧ room 64 (e 64) ∧ ¬ fitsU (2 ^ 64) 64 ∧ ¬ room 64 (e 63)) :=
  ⟨ready rfl, by decide +kernel⟩

theorem witness_LittleEndianPositive :
    Ready (st 64 0 64 [0x34, 0x12]) ∧ (fitsU 0 16 ∧ room 16 (e 16) ∧ ¬ fitsU (-1) 16 ∧ ¬ room 16 (e 15)) ∧
    (fitsU 0 32 ∧ room 32 (e 32) ∧ ¬ fitsU (-1) 32 ∧ ¬ room 32 (e 31)) ∧
    (fitsU 0 64 ∧ room 64 (e 64) ∧ ¬ fitsU (-1) 64 ∧ ¬ room 64 (e 63)) := ⟨ready rfl, by decide +kernel⟩

theorem witness_BigEndianTwosComplement :
    Ready (e 64) ∧ (fitsS (-(2 ^ 15)) 16 ∧ room 16 (e 16) ∧ ¬ fitsS (2 ^ 15) 16 ∧ ¬ room 16 (e 15)) ∧
    (fitsS (-(2 ^ 31)) 32 ∧ room 32 (e 32) ∧ ¬ fitsS (2 ^ 31) 32 ∧ ¬ room 32 (e 31)) ∧
    (fitsS (-(2 ^ 63)) 64 ∧ room 64 (e 64) ∧ ¬ fitsS (2 ^ 63) 64 ∧ ¬ room 64 (e 63)) :=
  ⟨ready rfl, by decide +kernel⟩

theorem witness_LittleEndianTwosComplement :
    Ready (st 64 0 64 [0xFE, 0xFF]) ∧
    (fitsS (2 ^ 15 - 1) 16 ∧ room 16 (e 16) ∧ ¬ fitsS (-(2 ^ 15) - 1) 16 ∧ ¬ room 16 (e 15)) ∧
    (fitsS (2 ^ 31 - 1) 32 ∧ room 32 (e 32) ∧ ¬ fitsS (-(2 ^ 31) - 1) 32 ∧ ¬ room 32 (e 31)) ∧
    (fitsS (2 ^ 63 - 1) 64 ∧ room 64 (e 64) ∧ ¬ fitsS (-(2 ^ 63) - 1) 64 ∧ ¬ room 64 (e 63)) :=
  ⟨ready rfl, by decide +kernel⟩

/-- 256 is the first value of two bytes; the counts 0, 8 and 9 are the decoder's boundaries. -/
theorem witness_VariableSizeUnsigned :
    Ready (e 72) ∧ (IsByteCount 256 2 ∧ room (8 + 8 * 2) (e 24) ∧ ¬ room (8 + 8 * 2) (e 23)) ∧
    ((-1 : Int) < 0 ∧ (2 ^ 64 : Int) ≤ 2 ^ 64 ∧ (2 ^ 64 - 1 : Int) < 2 ^ 64) ∧ ¬ room 8 (e 7) ∧
    (room 8 (st 80 0 80 [9]) ∧ memRead (st 80 0 80 [9]).buf 0 8 = 9 ∧ 8 < 9) ∧
    (memRead (st 72 0 72 [8]).buf 0 8 = 8 ∧ 8 ≤ 8 ∧ room (8 + 8 * 8) (st 72 0 72 [8]) ∧
      ¬ room (8 + 8 * 8) (st 71 0 71 [8])) ∧
    (memRead (e 8).buf 0 8 = 0 ∧ room (8 + 8 * 0) (e 8)) :=
  ⟨ready rfl, ⟨isByteCount_of (n := 256) (by decide +kernel), by decide +kernel⟩, by decide +kernel,
    by decide +kernel, by decide +kernel,
    by decide +kernel, by decide +kernel⟩

/-- 128 is the first positive value of two bytes. -/
theorem witness_VariableSizeTwosComplement :
    Ready (e 72) ∧ (fitsS 128 64 ∧ IsSignedByteCount 128 2 ∧ room (8 + 8 * 2) (e 24) ∧ ¬ room (8 + 8 * 2) (e 23)) ∧
    ¬ fitsS (2 ^ 63) 64 ∧ ¬ room 8 (e 7) ∧
    (room 8 (st 80 0 80 [9]) ∧ memRead (st 80 0 80 [9]).buf 0 8 = 9 ∧ 8 < 9) ∧
    (memRead (st 72 0 72 [8]).buf 0 8 = 8 ∧ room (8 + 8 * 8) (st 72 0 72 [8]) ∧
      ¬ room (8 + 8 * 8) (st 71 0 71 [8])) ∧
    (memRead (e 8).buf 0 8 = 0 ∧ room 8 (e 8)) :=
  ⟨ready rfl, ⟨by decide +kernel, isSignedByteCount_of (by decide +kernel), by decide +kernel⟩, by decide +kernel,
    by decide +kernel, by decide +kernel, by decide +kernel, by decide +kernel⟩

/-! #### BCD, reals, stubs -/

/-- Ten digits at 10^10, the sizes 1 and 20, the nibbles 9 and 10, the numbers 2^64 − 1 and 2^64. -/
theorem witness_BcdConstantSize :
    Ready (e 80) ∧ (1 ≤ 20 ∧ 20 ≤ 20 ∧ (2 ^ 64 - 1 : Int) < 10 ^ 20 ∧ room (4 * 20) (e 80) ∧ ¬ room (4 * 20) (e 79)) ∧
    ((9 : Int) < 10 ^ 1 ∧ (10 : Int) ^ 1 ≤ 10 ∧ (-1 : Int) < 0) ∧
    (∀ i < 2, nibbleAt (st 8 0 8 [0x99]).buf 0 i ≤ 9) ∧ decimalAt (st 8 0 8 [0x99]).buf 0 2 < 2 ^ 64 ∧
    ((∀ i < 20, nibbleAt (st 80 0 80 [0x18, 0x44, 0x67, 0x44, 7, 0x37, 9, 0x55, 0x16, 0x16]).buf 0 i ≤ 9) ∧
      2 ^ 64 ≤ decimalAt (st 80 0 80 [0x18, 0x44, 0x67, 0x44, 7, 0x37, 9, 0x55, 0x16, 0x16]).buf 0 20) ∧
    ((∀ i < 1, nibbleAt (st 8 0 8 [0x9A]).buf 0 i ≤ 9) ∧ 9 < nibbleAt (st 8 0 8 [0x9A]).buf 0 1) ∧
    (0 < 1 ∧ 20 < 21 ∧ (2 ^ 64 : Int) ≤ 2 ^ 64) := ⟨ready rfl, by decide +kernel⟩

theorem witness_BcdLengthEmbedded :
    Ready (e 88) ∧ (IsDigitCount 10 2 ∧ room (8 + 4 * 2) (e 16) ∧ ¬ room (8 + 4 * 2) (e 15)) ∧ ¬ room 8 (e 7) ∧
    (memRead (st 96 0 96 [21]).buf 0 8 = 21 ∧ 20 < 21) ∧
    (memRead (st 88 0 88 [20]).buf 0 8 = 20 ∧ room (8 + 4 * 20) (st 88 0 88 [20]) ∧
      ¬ room (8 + 4 * 20) (st 87 0 87 [20]) ∧ (∀ i < 20, nibbleAt (st 88 0 88 [20]).buf 8 i ≤ 9) ∧
      decimalAt (st 88 0 88 [20]).buf 8 20 < 2 ^ 64) ∧
    ((∀ i < 20, nibbleAt (st 88 0 88 [20, 0x99, 0, 0, 0, 0, 0, 0, 0, 0, 0]).buf 8 i ≤ 9) ∧
      2 ^ 64 ≤ decimalAt (st 88 0 88 [20, 0x99, 0, 0, 0, 0, 0, 0, 0, 0, 0]).buf 8 20) ∧
    ((∀ i < 1, nibbleAt (st 16 0 16 [2, 0x9F]).buf 8 i ≤ 9) ∧ 9 < nibbleAt (st 16 0 16 [2, 0x9F]).buf 8 1) :=
  ⟨ready rfl, ⟨isDigitCount_of (n := 10) (by decide +kernel), by decide +kernel⟩, by decide +kernel⟩

/-- A sentinel first; after twenty digits, below and above 2^64; none before CAP; a bad nibble; a 21st digit. -/
theorem witness_BcdTerminated :
    Ready (e 84) ∧ (IsDigitCount 0 1 ∧ room (4 * 1 + 4) (e 8) ∧ ¬ room (4 * 1 + 4) (e 7)) ∧
    (room (4 * 0 + 4) (st 4 0 4 [0xF0]) ∧ nibbleAt (st 4 0 4 [0xF0]).buf 0 0 = 15) ∧
    ((∀ i < 20, nibbleAt (st 84 0 84 [0x10, 0, 0, 0, 0, 0, 0, 0, 0, 0, 0xF0]).buf 0 i ≤ 9) ∧
      room (4 * 20 + 4) (e 84) ∧ nibbleAt (st 84 0 84 [0x10, 0, 0, 0, 0, 0, 0, 0, 0, 0, 0xF0]).buf 0 20 = 15 ∧
      decimalAt (st 84 0 84 [0x10, 0, 0, 0, 0, 0, 0, 0, 0, 0, 0xF0]).buf 0 20 < 2 ^ 64 ∧
      2 ^ 64 ≤ decimalAt (st 84 0 84 [0x20, 0, 0, 0, 0, 0, 0, 0, 0, 0, 0xF0]).buf 0 20) ∧
    (9 < nibbleAt (st 8 0 8 [0x9E]).buf 0 1 ∧ nibbleAt (st 8 0 8 [0x9E]).buf 0 1 ≠ 15) ∧
    ((∀ i < 2, nibbleAt (st 8 0 8 [0x99]).buf 0 i ≤ 9) ∧ room (4 * 2) (st 8 0 8 [0x99]) ∧
      ¬ room (4 * 2 + 4) (st 8 0 8 [0x99])) ∧ ¬ room (4 * 0 + 4) (e 3) ∧
    (room 84 (e 84) ∧ ∀ i < 21, nibbleAt (e 84).buf 0 i ≤ 9) :=
  ⟨ready rfl, ⟨isDigitCount_of (n := 0) (by decide +kernel), by decide +kernel⟩, by decide +kernel⟩

theorem witness_RealsBigEndian :
    Ready (e 64) ∧ (fitsU (2 ^ 32 - 1) 32 ∧ room 32 (e 32) ∧ ¬ room 32 (e 31) ∧ ¬ fitsU (2 ^ 32) 32) ∧
    (fitsU (2 ^ 64 - 1) 64 ∧ room 64 (e 64) ∧ ¬ room 64 (e 63) ∧ ¬ fitsU (-1) 64) := ⟨ready rfl, by decide +kernel⟩

theorem witness_RealsLittleEndian :
    Ready (st 64 0 64 [0xC3]) ∧ (fitsU 0 32 ∧ room 32 (e 32) ∧ ¬ room 32 (e 31) ∧ ¬ fitsU (-1) 32) ∧
    (fitsU 0 64 ∧ room 64 (e 64) ∧ ¬ room 64 (e 63) ∧ ¬ fitsU (2 ^ 64) 64) := ⟨ready rfl, by decide +kernel⟩

theorem witness_StubsAnswerUnsupported : full.fault = false ∧ { full with fault := true }.fault = true :=
  ⟨rfl, rfl⟩

end Sys2Proof.Tests
end

section
/-!
The sticky FAULT flag (10_state.md R25). A command ends in one of two ways as far as FAULT goes (`EndsByFlag`): a
ContractFault, or, only on a block with FAULT = 0, a next state with FAULT = 0. The step adds two cases to it: the idle
step and INIT (`step_cases`). Each clause of R25 is then a case split over `step_cases`.
-/

namespace Sys2Proof.Machine

/-! ### INIT -/

theorem initInstance_fault {ix maxBits : Nat} {bytes : List Byte} {pending : List HostAction} {t : State}
    (h : initInstance ix maxBits bytes pending = some t) : t.fault = false := by
  unfold initInstance at h
  split_ifs at h
  obtain rfl := Option.some.inj h
  rfl

theorem reinit_fault {s : State} (hs : s.fault = false) (maxBits : Nat) (bytes : List Byte) :
    (reinit maxBits bytes s).fault = false := by
  unfold reinit
  cases h : initInstance s.freeIx maxBits bytes s.pending with
  | none => exact hs
  | some t => exact initInstance_fault h

/-! ### Commands -/

/-- How a command presented on `s` may end, as far as FAULT goes (R25). -/
inductive EndsByFlag (s : State) (r : StepResult) : Prop
  | raises (h : r = contractFault s)
  | goesOn (t : State) (ready : s.fault = false) (h : r = .next t) (clear : t.fault = false)

theorem EndsIn.endsByFlag {i : Instr} {s : State} {r : StepResult} (h : EndsIn i s r) : EndsByFlag s r := by
  cases h with
  | fault _ => exact .raises rfl
  | write u n hf _ h => exact .goesOn _ hf rfl (h.fault.trans hf)
  | read v n d hf => exact .goesOn _ hf rfl hf
  | place p hf => exact .goesOn _ hf rfl hf
  | fails k n hf => exact .goesOn _ hf rfl hf

theorem execIllegal_endsByFlag (s : State) : EndsByFlag s (execIllegal s) := by
  cases hf : s.fault with
  | false => exact .goesOn _ hf (unlessFaulted_ready hf _) hf
  | true => exact .raises (unlessFaulted_faulted hf _)

/-- Every bundle the ports can present, legal or illegal, is a command in the sense of R25. -/
theorem present_endsByFlag {b : Ports} (hb : decode b ≠ .error .dinLength) (s : State) :
    EndsByFlag s (present b s) := by
  unfold present
  split
  next i _ => exact (exec_ends i s).endsByFlag
  next => exact execIllegal_endsByFlag s
  next h => exact absurd h hb

theorem present_unpresentable {b : Ports} (hb : decode b = .error .dinLength) (s : State) :
    present b s = .refused .dinLength := by simp [present, hb]

section
variable {s t : State} {r : StepResult}

theorem EndsByFlag.raises_of_faulted (h : EndsByFlag s r) (hs : s.fault = true) : RaisesContractFault r s := by
  cases h with
  | raises h => exact h ▸ raises_contractFault s
  | goesOn t ready => simp [hs] at ready

theorem EndsByFlag.ready_of_next (h : EndsByFlag s (.next t)) : s.fault = false ∧ t.fault = false := by
  cases h with
  | raises h => exact absurd h.symm contractFault_ne_next
  | goesOn u ready h clear => cases h; exact ⟨ready, clear⟩

theorem EndsByFlag.faultReason {f : Fault} (h : EndsByFlag s (.fault f)) :
    ∃ t, f = .contractFault t ∧ t.fault = true := by
  cases h with
  | raises h => cases h; exact ⟨_, rfl, setFault_fault s⟩
  | goesOn t _ h => cases h

end

/-! ### The step -/

/-- Everything a step can do, as far as FAULT goes. -/
inductive StepCases (s : State) : Prop
  | idle (h : step s = .next s)
  | unpresentable (h : step s = .refused .dinLength)
  | command (rest : List HostAction) (h : EndsByFlag { s with pending := rest } (step s))
  | init (maxBits : Nat) (bytes : List Byte) (rest : List HostAction) (hp : s.pending = .init maxBits bytes :: rest)
      (h : step s = .next (reinit maxBits bytes { s with pending := rest }))

theorem step_cases (s : State) : StepCases s := by
  match hp : s.pending with
  | [] => exact .idle (step_idle hp)
  | .init maxBits bytes :: rest => exact .init maxBits bytes rest hp (step_init hp)
  | .command b :: rest =>
    by_cases hb : decode b = .error .dinLength
    · exact .unpresentable ((step_command hp).trans (present_unpresentable hb _))
    · exact .command rest (step_command hp ▸ present_endsByFlag hb _)

theorem step_fault_sets_flag {s : State} {f : Fault} (h : step s = .fault f) :
    ∃ t, f = .contractFault t ∧ t.fault = true := by
  cases step_cases s with
  | idle h' => cases h.symm.trans h'
  | unpresentable h' => cases h.symm.trans h'
  | command _ h' => exact (h ▸ h').faultReason
  | init _ _ _ _ h' => cases h.symm.trans h'

theorem step_next_keeps_flag_clear {s t : State} (hs : s.fault = false) (h : step s = .next t) : t.fault = false := by
  cases step_cases s with
  | idle h' => cases h.symm.trans h'; exact hs
  | unpresentable h' => cases h.symm.trans h'
  | command _ h' => exact (h ▸ h').ready_of_next.2
  | init maxBits bytes rest _ h' =>
    cases h.symm.trans h'
    exact reinit_fault (s := { s with pending := rest }) hs maxBits bytes

theorem step_clears_flag_only_by_init {s t : State} (hs : s.fault = true) (h : step s = .next t)
    (ht : t.fault = false) : ∃ maxBits bytes rest, s.pending = .init maxBits bytes :: rest := by
  cases step_cases s with
  | idle h' => cases h.symm.trans h'; simp [hs] at ht
  | unpresentable h' => cases h.symm.trans h'
  | command _ h' =>
    have ready : s.fault = false := (h ▸ h').ready_of_next.1
    simp [hs] at ready
  | init maxBits bytes rest hp _ => exact ⟨maxBits, bytes, rest, hp⟩

/-- Settles O14: INIT, then the step's outcomes by `step_cases`, a faulted block's commands by `present_endsByFlag`. -/
theorem faultIsStickyUntilInit : Obligations.FaultIsStickyUntilInit := by
  refine ⟨fun _ _ _ _ _ => initInstance_fault, fun _ _ => step_fault_sets_flag,
    fun _ _ => step_next_keeps_flag_clear, fun s b rest hs hp hb => ?_, fun _ _ => step_clears_flag_only_by_init⟩
  rw [step_command hp]
  exact (present_endsByFlag hb { s with pending := rest }).raises_of_faulted hs

end Sys2Proof.Machine
end

section
/-!
The decoder row by row (30_encoding.md R81 to R86). `OpcodeRow op` says what the opcode table makes of an opcode:
nothing, or a command built from the ports of one format; `opcodeRow` is the table. That a command reads the ports of
its format alone (R81) and that exactly the unassigned opcodes are illegal (R86) are then case splits over the formats.
-/

namespace Sys2Proof.Machine

/-! ### Operands of the formats -/

theorem withDin_ne_illegalHeader (b : Ports) (mk : List Byte → Instr) : withDin b mk ≠ .error .illegalHeader := by
  unfold withDin
  split <;> simp

theorem withDin_presentable {b : Ports} (h : b.din.length = b.p.toNat) (mk : List Byte → Instr) :
    withDin b mk = .ok (mk b.din) := if_pos h

theorem withDin_ok {b : Ports} {mk : List Byte → Instr} {i : Instr} (h : withDin b mk = .ok i) : i = mk b.din := by
  unfold withDin at h
  split at h <;> cases h
  rfl

theorem withDin_congr {b b' : Ports} (hp : b'.p = b.p) (hd : b'.din = b.din) (mk : List Byte → Instr) :
    withDin b' mk = withDin b mk := by simp [withDin, hp, hd]

/-- An operand counts only when its presence flag is 1 (R82). -/
theorem supplied_congr {α : Type} {flag flag' : Bool} {x x' : α} (hf : flag' = flag) (hx : flag = true → x' = x) :
    supplied flag' x' = supplied flag x := by
  subst hf
  cases flag' with
  | false => rfl
  | true => exact congrArg some (hx rfl)

/-! ### The opcodes outside the rows of the table -/

/-- A stub (R85) or an unassigned opcode (R86) is none of the opcodes of the rows, so it reaches the decoder's last
arm. -/
theorem decodeOp_of_no_row {op : Nat} (h : op / 16 = 7 ∨ Unassigned op) (b : Ports) :
    decodeOp op b = if op / 16 = 7 then .ok (.acnStub (op % 16)) else .error .illegalHeader := by
  unfold Unassigned at h
  unfold decodeOp
  split
  case h_80 => rfl
  all_goals exact absurd h (by decide)

theorem decodeOp_stub {op : Nat} (h : op / 16 = 7) (b : Ports) : decodeOp op b = .ok (.acnStub (op % 16)) :=
  (decodeOp_of_no_row (.inl h) b).trans (if_pos h)

theorem decodeOp_unassigned {op : Nat} (h : Unassigned op) (b : Ports) : decodeOp op b = .error .illegalHeader :=
  (decodeOp_of_no_row (.inr h) b).trans (if_neg (by unfold Unassigned at h; omega))

/-! ### The table -/

/-- What the opcode table makes of `op`: one case for each format, with the command its ports are the operands of (R81,
R84). A stub reads no port either (R85), so it stands with the commands of format F0. -/
inductive OpcodeRow (op : Nat) : Prop
  | unassigned (h : Unassigned op)
  | f0 (i : Instr) (reads : ∀ b, decodeOp op b = .ok i := by intros; rfl)
  | fn (mk : Nat → Instr) (format : ∀ n, formatOf (mk n) = .fn := by intros; rfl)
      (reads : ∀ b, decodeOp op b = .ok (mk (nField b.hdr)) := by intros; rfl)
  | fv (mk : Int → Instr) (format : ∀ v, formatOf (mk v) = .fv := by intros; rfl)
      (reads : ∀ b, decodeOp op b = .ok (mk b.v.toInt) := by intros; rfl)
  | fvn (mk : Nat → Int → Instr) (format : ∀ n v, formatOf (mk n v) = .fvn := by intros; rfl)
      (reads : ∀ b, decodeOp op b = .ok (mk (nField b.hdr) b.v.toInt) := by intros; rfl)
  | fvr (reads : ∀ b, decodeOp op b =
      .ok (.encInt b.v.toInt b.lo.toInt b.hi.toInt (supplied (hasN b.hdr) (nField b.hdr))) := by intros; rfl)
  | fr (reads : ∀ b, decodeOp op b =
      .ok (.decInt (supplied (hasLo b.hdr) b.lo.toInt) (supplied (hasHi b.hdr) b.hi.toInt)
        (supplied (hasN b.hdr) (nField b.hdr))) := by intros; rfl)
  | fp (mk : Nat → Instr) (format : ∀ k, formatOf (mk k) = .fp := by intros; rfl)
      (reads : ∀ b, decodeOp op b = .ok (mk b.p.toNat) := by intros; rfl)
  | fpd (mk : List Byte → Instr) (format : ∀ din, formatOf (mk din) = .fpd := by intros; rfl)
      (reads : ∀ b, decodeOp op b = withDin b mk := by intros; rfl)

/-- The opcode table (R84), in the order of its opcodes; behind its rows the stubs and the unassigned opcodes. -/
theorem opcodeRow : ∀ op, OpcodeRow op :=
  decodeOp.fun_cases OpcodeRow
    -- BitBuffer commands
    (.fvn .bbWriteBits) (.fn .bbReadBits) (.fv .bbWriteBit) (.f0 .bbReadBit) (.fv .bbWriteByte)
    (.f0 .bbReadByte) (.fpd .bbWriteBytes) (.fp .bbReadBytes) (.f0 .bbBitsRemaining) (.f0 .bbIsAtEnd)
    (.fp .bbSetPos) (.f0 .bbAlignWr) (.f0 .bbAlignRd) (.f0 .bbGetData) (.f0 .bbResetPos)
    -- Generic Encoder / Decoder commands
    .fvr .fr (.fvn .encUint) (.fn .decUint) (.fp .decEnum) (.f0 .encNull) (.f0 .decNull) (.f0 .encAlignByte)
    (.f0 .encAlignWord) (.f0 .encAlignDword) (.f0 .decAlignByte) (.f0 .decAlignWord) (.f0 .decAlignDword)
    (.fpd .encAppendBytes) (.fpd .encOctetsNolen) (.fp .decOctetsNolen)
    -- ACN constant-size and length-embedded integers, length fields
    (.fvn .acnEncPosConst) (.fn .acnDecPosConst) (.fvn .acnEncTcConst) (.fn .acnDecTcConst) (.fv .acnEncPosVar)
    (.f0 .acnDecPosVar) (.fv .acnEncTcVar) (.f0 .acnDecTcVar) (.fvn .acnEncLength) (.fn .acnDecLength)
    -- ACN positive integers of 16, 32, 64 bits
    (.fv .acnEncPosBe16) (.f0 .acnDecPosBe16) (.fv .acnEncPosBe32) (.f0 .acnDecPosBe32) (.fv .acnEncPosBe64)
    (.f0 .acnDecPosBe64) (.fv .acnEncPosLe16) (.f0 .acnDecPosLe16) (.fv .acnEncPosLe32) (.f0 .acnDecPosLe32)
    (.fv .acnEncPosLe64) (.f0 .acnDecPosLe64)
    -- ACN two's-complement integers of 16, 32, 64 bits
    (.fv .acnEncTcBe16) (.f0 .acnDecTcBe16) (.fv .acnEncTcBe32) (.f0 .acnDecTcBe32) (.fv .acnEncTcBe64)
    (.f0 .acnDecTcBe64) (.fv .acnEncTcLe16) (.f0 .acnDecTcLe16) (.fv .acnEncTcLe32) (.f0 .acnDecTcLe32)
    (.fv .acnEncTcLe64) (.f0 .acnDecTcLe64)
    -- ACN BCD
    (.fvn .acnEncBcdConst) (.fn .acnDecBcdConst) (.fv .acnEncBcdVar) (.f0 .acnDecBcdVar) (.fv .acnEncBcdNt)
    (.f0 .acnDecBcdNt)
    -- ACN IEEE-754 reals
    (.fv .acnEncReal32Be) (.f0 .acnDecReal32Be) (.fv .acnEncReal32Le) (.f0 .acnDecReal32Le)
    (.fv .acnEncReal64Be) (.f0 .acnDecReal64Be) (.fv .acnEncReal64Le) (.f0 .acnDecReal64Le)
    -- Stubs
    (by intros; exact .f0 _ (decodeOp_stub ‹_›))
    -- Unassigned opcodes
    (by intros; exact .unassigned (by unfold Unassigned; simp only [imp_false] at *; omega))

/-! ### What the rows say of every opcode -/

theorem unassigned_of_illegal {op : Nat} {b : Ports} (h : decodeOp op b = .error .illegalHeader) : Unassigned op := by
  cases opcodeRow op with
  | unassigned hu => exact hu
  | fpd mk _ reads => exact absurd ((reads b).symm.trans h) (withDin_ne_illegalHeader b mk)
  | f0 _ reads | fn _ _ reads | fv _ _ reads | fvn _ _ reads | fvr reads | fr reads | fp _ _ reads =>
    cases (reads b).symm.trans h

theorem decodeOp_assigned {op : Nat} {b : Ports} (hb : b.din.length = b.p.toNat) (h : ¬ Unassigned op) :
    ∃ i, decodeOp op b = .ok i := by
  cases opcodeRow op with
  | unassigned hu => exact absurd hu h
  | fpd mk _ reads => exact ⟨_, (reads b).trans (withDin_presentable hb mk)⟩
  | f0 _ reads | fn _ _ reads | fv _ _ reads | fvn _ _ reads | fvr reads | fr reads | fp _ _ reads =>
    exact ⟨_, reads b⟩

/-- A command is decoded from the ports of its format alone. -/
theorem decodeOp_of_portsAgree {op : Nat} {b b' : Ports} {i : Instr} (h : decodeOp op b = .ok i)
    (agree : PortsAgree (formatOf i) b b') : decodeOp op b' = .ok i := by
  cases opcodeRow op with
  | unassigned hu => cases (decodeOp_unassigned hu b).symm.trans h
  | f0 _ reads => exact (reads b').trans ((reads b).symm.trans h)
  | fn mk format reads =>
    cases (reads b).symm.trans h
    rw [format] at agree
    have hn : nField b'.hdr = nField b.hdr := agree
    rw [reads, hn]
  | fv mk format reads =>
    cases (reads b).symm.trans h
    rw [format] at agree
    have hv : b'.v = b.v := agree
    rw [reads, hv]
  | fvn mk format reads =>
    cases (reads b).symm.trans h
    rw [format] at agree
    obtain ⟨hn, hv⟩ := agree
    rw [reads, hn, hv]
  | fvr reads =>
    cases (reads b).symm.trans h
    obtain ⟨hv, hlo, hhi, hflag, hn⟩ := agree
    rw [reads, hv, hlo, hhi, supplied_congr hflag hn]
  | fr reads =>
    cases (reads b).symm.trans h
    obtain ⟨hasLo, hasHi, hasN, hlo, hhi, hn⟩ := agree
    rw [reads, supplied_congr hasLo fun f => congrArg BitVec.toInt (hlo f),
      supplied_congr hasHi fun f => congrArg BitVec.toInt (hhi f), supplied_congr hasN hn]
  | fp mk format reads =>
    cases (reads b).symm.trans h
    rw [format] at agree
    have hp : b'.p = b.p := agree
    rw [reads, hp]
  | fpd mk format reads =>
    rw [reads] at h
    rw [withDin_ok h, format] at agree
    obtain ⟨hp, hd⟩ := agree
    rw [reads, withDin_congr hp hd, h]

/-! ### Headers -/

/-- The illegal headers (R86). -/
def IllegalHeader (h : HdrWord) : Prop := reservedField h ≠ 0 ∨ Unassigned (opField h)

theorem decode_reserved_zero {b : Ports} (h : reservedField b.hdr = 0) : decode b = decodeOp (opField b.hdr) b :=
  if_pos h

theorem decode_reserved_set {b : Ports} (h : reservedField b.hdr ≠ 0) : decode b = .error .illegalHeader := if_neg h

theorem decode_illegal_iff (b : Ports) : decode b = .error .illegalHeader ↔ IllegalHeader b.hdr := by
  by_cases h : reservedField b.hdr = 0
  · rw [decode_reserved_zero h]
    exact ⟨fun hd => .inr (unassigned_of_illegal hd),
      fun hi => decodeOp_unassigned (hi.resolve_left (absurd h)) b⟩
  · exact iff_of_true (decode_reserved_set h) (.inl h)

theorem decode_legal {b : Ports} (hb : b.din.length = b.p.toNat) (h : ¬ IllegalHeader b.hdr) :
    ∃ i, decode b = .ok i := by
  obtain ⟨hr, hu⟩ := not_or.mp h
  rw [decode_reserved_zero (not_not.mp hr)]
  exact decodeOp_assigned hb hu

theorem reserved_zero_of_decode {b : Ports} {i : Instr} (h : decode b = .ok i) : reservedField b.hdr = 0 := by
  by_contra hr
  cases (decode_reserved_set hr).symm.trans h

theorem present_illegal {b : Ports} {s : State} (hs : s.fault = false) (h : IllegalHeader b.hdr) :
    FailsWith (present b s) s .unsupportedOperation := by
  have hp : present b s = execIllegal s := by simp only [present, (decode_illegal_iff b).mpr h]
  rw [hp, execIllegal, unlessFaulted_ready hs]
  exact failsWith_setErr s _

/-- Settles O7: which bundles are illegal by `decode_illegal_iff`, that the others are commands by `decode_legal`, and
what an illegal command does by `present_illegal`. -/
theorem illegalHeadersAnswerUnsupported : Obligations.IllegalHeadersAnswerUnsupported := by
  refine ⟨decode_illegal_iff, fun _ => decode_legal, fun s b rest hs hp hi => ?_⟩
  rw [step_command hp]
  exact present_illegal hs hi

/-- Settles O10: both bundles select the same row, and its format's ports are the ones they agree on. -/
theorem unlistedPortsAreIgnored : Obligations.UnlistedPortsAreIgnored := by
  intro b b' i h hop hres agree
  rw [decode_reserved_zero (reserved_zero_of_decode h)] at h
  rw [decode_reserved_zero hres, hop]
  exact decodeOp_of_portsAgree h agree

end Sys2Proof.Machine
end

section
/-!
The BitBuffer commands (40_bitbuffer.md) and the alignment to a byte. What a shared body does when its operands and the
room allow it, and that it fails otherwise, is said once (`bufWrite`, `bufRead`, `encAlign`, `decAlign`); a command is
its body on a block with FAULT = 0.
-/

namespace Sys2Proof.Machine

/-! ### Field writes and reads -/

theorem toNat_lt_of_fitsU {v : Int} {n : Nat} (h : fitsU v n) : v.toNat < 2 ^ n := by
  obtain ⟨hlo, hhi⟩ := h
  rw [← two_pow_cast] at hhi
  omega

section
variable {s : State} {n : Nat} {v : Int}

theorem bufWrite_ok (hn : n ≤ 64) (hv : fitsU v n) (hr : room n s) :
    bufWrite n v s = .next (setOk 0 n [] (writeField n v.toNat s)) := by
  rcases bufWrite_cases n v s with ⟨-, -, -, e⟩ | ⟨hnot, -⟩
  · exact e
  · exact absurd ⟨hn, hv, hr⟩ hnot

theorem bufWrite_writesField (hwf : s.buf.wf = true) (hn : n ≤ 64) (hv : fitsU v n) (hr : room n s) :
    WritesField (bufWrite n v s) s n v.toNat := by
  rw [bufWrite_ok hn hv hr]
  exact writesField_setOk hwf (toNat_lt_of_fitsU hv)

theorem bufWrite_failsWith (h : 64 < n ∨ ¬ fitsU v n ∨ ¬ room n s) :
    FailsWith (bufWrite n v s) s .bitstreamError := by
  rcases bufWrite_cases n v s with ⟨hn, hv, hr, -⟩ | ⟨-, e⟩
  · rcases h with h | h | h
    · exact absurd hn (Nat.not_le.mpr h)
    · exact absurd hv h
    · exact absurd hr h
  · rw [e]
    exact failsWith_setErr s _

theorem bufRead_readsTo (hn : n ≤ 64) (hr : room n s) : ReadsTo (bufRead n s) s n (memRead s.buf s.pos n) [] := by
  rcases bufRead_cases n s with ⟨-, -, e⟩ | ⟨hnot, -⟩
  · rw [e]
    exact readsTo_setOk s n _ _
  · exact absurd ⟨hn, hr⟩ hnot

theorem bufRead_failsWith (h : 64 < n ∨ ¬ room n s) : FailsWith (bufRead n s) s .bitstreamError := by
  rcases bufRead_cases n s with ⟨hn, hr, -⟩ | ⟨-, e⟩
  · rcases h with h | h
    · exact absurd hn (Nat.not_le.mpr h)
    · exact absurd hr h
  · rw [e]
    exact failsWith_setErr s _

/-! ### What a command is on a block with FAULT = 0 -/

theorem exec_bbWriteBits (hs : s.fault = false) (n : Nat) (v : Int) : exec (.bbWriteBits n v) s = bufWrite n v s :=
  unlessFaulted_ready hs _

theorem exec_bbReadBits (hs : s.fault = false) (n : Nat) : exec (.bbReadBits n) s = bufRead n s :=
  unlessFaulted_ready hs _

theorem exec_bbWriteByte (hs : s.fault = false) (v : Int) : exec (.bbWriteByte v) s = bufWrite 8 v s :=
  unlessFaulted_ready hs _

theorem exec_bbReadByte (hs : s.fault = false) : exec .bbReadByte s = bufRead 8 s := unlessFaulted_ready hs _

end

/-- Settles O32: both commands are `bufWrite`, the byte form with the width 8. -/
theorem bitFieldWrites : Obligations.BitFieldWrites := by
  rintro s n v ⟨hs, hwf⟩
  rw [exec_bbWriteBits hs, exec_bbWriteByte hs]
  exact ⟨bufWrite_writesField hwf, bufWrite_failsWith, bufWrite_writesField hwf (by decide),
    fun h => bufWrite_failsWith (.inr h)⟩

/-- Settles O33: both commands are `bufRead`, the byte form with the width 8. -/
theorem bitFieldReads : Obligations.BitFieldReads := by
  rintro s n ⟨hs, -⟩
  rw [exec_bbReadBits hs, exec_bbReadByte hs]
  exact ⟨memRead_lt _ _ _, bufRead_readsTo, bufRead_failsWith, bufRead_readsTo (by decide),
    fun h => bufRead_failsWith (.inr h)⟩

/-! ### Fields of no bits -/

@[simp] theorem writeField_zero (v : Nat) (s : State) : writeField 0 v s = s := rfl

theorem fitsU_zero_iff {v : Int} : fitsU v 0 ↔ v = 0 := by
  unfold fitsU
  omega

theorem answers_setOk (s : State) (v : Int) (d : List Byte) : Answers (.next (setOk v 0 d s)) s v d :=
  readsTo_setOk s 0 v d

/-- Settles O28: 0 is the one value of a field without bits, and to write that field is to leave the state alone. -/
theorem zeroBitAccessesMoveNothing : Obligations.ZeroBitAccessesMoveNothing := by
  rintro s ⟨hs, -⟩ hpos
  refine ⟨?_, ?_, fun v hv => ?_⟩
  · rw [exec_bbReadBits hs]
    exact bufRead_readsTo (Nat.zero_le _) hpos
  · rw [exec_bbWriteBits hs, bufWrite_ok (Nat.zero_le _) (fitsU_zero_iff.mpr rfl) hpos, writeField_zero]
    exact answers_setOk s 0 []
  · rw [exec_bbWriteBits hs]
    exact bufWrite_failsWith (.inr (.inl (mt fitsU_zero_iff.mp hv)))

/-! ### Queries -/

/-- What BB_GET_DATA returns: the bytes of BUF that hold its first USED bits (R122). -/
def usedBytes (s : State) : List Byte := (List.range (bytesFor s.used)).map (readByte s.buf)

theorem usedBytes_length (s : State) : (usedBytes s).length = bytesFor s.used := by simp [usedBytes]

theorem usedBytes_getD {s : State} {a : Nat} (h : a < bytesFor s.used) : (usedBytes s).getD a 0 = readByte s.buf a := by
  simp [usedBytes, h]

section
variable {s : State}

theorem exec_bbBitsRemaining (hs : s.fault = false) :
    exec .bbBitsRemaining s = .next (setOk ((s.cap : Int) - s.pos) 0 [] s) := unlessFaulted_ready hs _

theorem exec_bbIsAtEnd (hs : s.fault = false) :
    exec .bbIsAtEnd s = .next (setOk (if s.pos = s.cap then 1 else 0) 0 [] s) := unlessFaulted_ready hs _

theorem exec_bbGetData (hs : s.fault = false) : exec .bbGetData s = .next (setOk 0 0 (usedBytes s) s) :=
  unlessFaulted_ready hs _

end

/-- Settles O36: each query is an `Ok` on the state it found. -/
theorem bufferQueries : Obligations.BufferQueries := by
  rintro s ⟨hs, -⟩
  rw [exec_bbBitsRemaining hs, exec_bbIsAtEnd hs, exec_bbGetData hs]
  refine ⟨answers_setOk s _ _, fun hend => ?_, fun hend => ?_,
    usedBytes s, usedBytes_length s, fun _ => usedBytes_getD, answers_setOk s _ _⟩
  · rw [if_pos hend]
    exact answers_setOk s _ _
  · rw [if_neg hend]
    exact answers_setOk s _ _

/-! ### Placing the cursor -/

theorem setOk_moveTo_places (s : State) (p : Nat) :
    SameInstance { s with pos := p } (setOk 0 0 [] (moveTo p s)) ∧ ReportsOk (setOk 0 0 [] (moveTo p s)) 0 0 [] :=
  ⟨⟨rfl, rfl, rfl, rfl, rfl, rfl⟩, rfl, rfl, rfl, rfl, rfl⟩

section
variable {s : State}

theorem exec_bbSetPos_within (hs : s.fault = false) {p : Nat} (hp : p ≤ s.cap) :
    exec (.bbSetPos p) s = .next (setOk 0 0 [] (moveTo p s)) :=
  (unlessFaulted_ready hs _).trans (if_neg (Nat.not_lt.mpr hp))

theorem exec_bbSetPos_beyond (hs : s.fault = false) {p : Nat} (hp : s.cap < p) :
    exec (.bbSetPos p) s = .next (setErr .bitstreamError s) :=
  (unlessFaulted_ready hs _).trans (if_pos hp)

theorem exec_bbResetPos (hs : s.fault = false) : exec .bbResetPos s = .next (setOk 0 0 [] (moveTo 0 s)) :=
  unlessFaulted_ready hs _

theorem exec_bbResetPos_faulted (hs : s.fault = true) : exec .bbResetPos s = contractFault s :=
  unlessFaulted_faulted hs _

end

/-- Settles O37: within CAP both commands end in `moveTo`, which `setOk_moveTo_places` describes. -/
theorem cursorPlacement : Obligations.CursorPlacement := by
  refine ⟨fun s p hready => ?_, fun s hs => ?_⟩
  · obtain ⟨hs, -⟩ := hready
    refine ⟨fun hp => ⟨_, exec_bbSetPos_within hs hp, setOk_moveTo_places s p⟩, fun hp => ?_,
      _, exec_bbResetPos hs, setOk_moveTo_places s 0⟩
    rw [exec_bbSetPos_beyond hs hp]
    exact failsWith_setErr s _
  · rw [exec_bbResetPos_faulted hs]
    exact raises_contractFault s

/-! ### Alignment -/

/-- A gap of fewer than `a` bits to a multiple of `a` is unique, so it is the one `pad` computes. -/
theorem pad_eq_of_isPadding {a p g : Nat} (h : IsPadding a p g) : pad a p = g := by
  obtain ⟨hlt, hdvd⟩ := h
  have ha : 0 < a := Nat.zero_lt_of_lt hlt
  have hmod : p + pad a p ≡ p + g [MOD a] :=
    ((Nat.modEq_zero_iff_dvd.mpr (dvd_add_pad ha p)).trans (Nat.modEq_zero_iff_dvd.mpr hdvd).symm)
  exact (Nat.ModEq.add_left_cancel' p hmod).eq_of_lt_of_lt (pad_lt ha p) hlt

section
variable {s : State} {a : Nat}

theorem encAlign_writesField (hwf : s.buf.wf = true) (hr : room (pad a s.pos) s) :
    WritesField (encAlign a s) s (pad a s.pos) 0 := by
  rcases encAlign_cases a s with ⟨-, e⟩ | ⟨hnot, -⟩
  · rw [e]
    exact writesField_setOk hwf (Nat.two_pow_pos _)
  · exact absurd hr hnot

theorem encAlign_failsWith (hr : ¬ room (pad a s.pos) s) : FailsWith (encAlign a s) s .insufficientData := by
  rcases encAlign_cases a s with ⟨h, -⟩ | ⟨-, e⟩
  · exact absurd h hr
  · rw [e]
    exact failsWith_setErr s _

theorem decAlign_readsTo (hr : room (pad a s.pos) s) : ReadsTo (decAlign a s) s (pad a s.pos) 0 [] := by
  rcases decAlign_cases a s with ⟨-, e⟩ | ⟨hnot, -⟩
  · rw [e]
    exact readsTo_setOk s _ _ _
  · exact absurd hr hnot

theorem decAlign_failsWith (hr : ¬ room (pad a s.pos) s) : FailsWith (decAlign a s) s .insufficientData := by
  rcases decAlign_cases a s with ⟨h, -⟩ | ⟨-, e⟩
  · exact absurd h hr
  · rw [e]
    exact failsWith_setErr s _

theorem exec_encAlignByte (hs : s.fault = false) : exec .encAlignByte s = encAlign 8 s := unlessFaulted_ready hs _

theorem exec_decAlignByte (hs : s.fault = false) : exec .decAlignByte s = decAlign 8 s := unlessFaulted_ready hs _

/-- With room the BitBuffer form is the codec's (R120, R169); without it the two differ in the code alone. -/
theorem exec_bbAlignWr_of_room (hs : s.fault = false) (hr : room (pad 8 s.pos) s) :
    exec .bbAlignWr s = encAlign 8 s :=
  calc exec .bbAlignWr s
    _ = .next (setOk 0 (pad 8 s.pos) [] (writeField (pad 8 s.pos) 0 s)) :=
      (unlessFaulted_ready hs _).trans (if_neg (not_not_intro hr))
    _ = encAlign 8 s := (if_neg (not_not_intro hr)).symm

theorem exec_bbAlignWr_of_not_room (hs : s.fault = false) (hr : ¬ room (pad 8 s.pos) s) :
    exec .bbAlignWr s = .next (setErr .bitstreamError s) := (unlessFaulted_ready hs _).trans (if_pos hr)

theorem exec_bbAlignRd_of_room (hs : s.fault = false) (hr : room (pad 8 s.pos) s) :
    exec .bbAlignRd s = decAlign 8 s :=
  calc exec .bbAlignRd s
    _ = .next (setOk 0 (pad 8 s.pos) [] (skipBits (pad 8 s.pos) s)) :=
      (unlessFaulted_ready hs _).trans (if_neg (not_not_intro hr))
    _ = decAlign 8 s := (if_neg (not_not_intro hr)).symm

theorem exec_bbAlignRd_of_not_room (hs : s.fault = false) (hr : ¬ room (pad 8 s.pos) s) :
    exec .bbAlignRd s = .next (setErr .bitstreamError s) := (unlessFaulted_ready hs _).trans (if_pos hr)

end

/-- Settles O38: the gap is `pad 8 POS`; with room all four commands are `encAlign 8` or `decAlign 8`. -/
theorem byteAlignment : Obligations.ByteAlignment := by
  rintro s g ⟨hs, hwf⟩ hg
  obtain rfl := pad_eq_of_isPadding hg
  rw [exec_encAlignByte hs, exec_decAlignByte hs]
  refine ⟨fun hr => ?_, fun hr => ?_⟩
  · rw [exec_bbAlignWr_of_room hs hr, exec_bbAlignRd_of_room hs hr]
    have hw := encAlign_writesField hwf hr
    have hd := decAlign_readsTo hr
    exact ⟨hw, hd, hw.encodes, hd.decodes⟩
  · rw [exec_bbAlignWr_of_not_room hs hr, exec_bbAlignRd_of_not_room hs hr]
    exact ⟨failsWith_setErr s _, failsWith_setErr s _, encAlign_failsWith hr, decAlign_failsWith hr⟩

end Sys2Proof.Machine
end

section
/-!
The generic codec's unsigned fields, octet arrays and NULL (42_generic_codec.md R152 to R156, R163, R164), with the ACN
length fields (43_acn_fixed_int.md R209, R210), which are the same fields. `encPos`, `decPos` and `encBytes` get one
lemma per clause of the claims; a width within 64 bits makes `encWidth` and `decWidth` the first two, a wider one makes
them a ContractFault.
-/

namespace Sys2Proof.Machine

section
variable {s : State} {n : Nat} {v : Int}

/-! ### Unsigned fields -/

theorem encPos_writesField (hwf : s.buf.wf = true) (hv : fitsU v n) (hr : room n s) :
    WritesField (encPos n v s) s n v.toNat := by
  rcases encPos_cases n v s with ⟨-, -, e⟩ | ⟨hnot, -⟩ | ⟨-, hnot, -⟩
  · rw [e]
    exact writesField_setOk hwf (toNat_lt_of_fitsU hv)
  · exact absurd hv hnot
  · exact absurd hr hnot

/-- The value is checked before the room, so this holds whatever the room. -/
theorem encPos_failsWith_of_not_fitsU (hv : ¬ fitsU v n) : FailsWith (encPos n v s) s .invalidValue := by
  rcases encPos_cases n v s with ⟨h, -⟩ | ⟨-, e⟩ | ⟨h, -⟩
  · exact absurd h hv
  · rw [e]
    exact failsWith_setErr s _
  · exact absurd h hv

theorem encPos_failsWith_of_not_room (hv : fitsU v n) (hr : ¬ room n s) :
    FailsWith (encPos n v s) s .insufficientData := by
  rcases encPos_cases n v s with ⟨-, h, -⟩ | ⟨hnot, -⟩ | ⟨-, -, e⟩
  · exact absurd h hr
  · exact absurd hv hnot
  · rw [e]
    exact failsWith_setErr s _

theorem decPos_readsTo (hr : room n s) : ReadsTo (decPos n s) s n (memRead s.buf s.pos n) [] := by
  rcases decPos_cases n s with ⟨-, e⟩ | ⟨hnot, -⟩
  · rw [e]
    exact readsTo_setOk s _ _ _
  · exact absurd hr hnot

theorem decPos_failsWith (hr : ¬ room n s) : FailsWith (decPos n s) s .insufficientData := by
  rcases decPos_cases n s with ⟨h, -⟩ | ⟨-, e⟩
  · exact absurd h hr
  · rw [e]
    exact failsWith_setErr s _

/-! ### Widths: within and beyond 64 bits -/

theorem encWidth_within (hn : n ≤ 64) (v : Int) (s : State) : encWidth n v s = encPos n v s :=
  if_neg (Nat.not_lt.mpr hn)

theorem encWidth_beyond (hn : 64 < n) (v : Int) (s : State) : encWidth n v s = contractFault s := if_pos hn

theorem decWidth_within (hn : n ≤ 64) (s : State) : decWidth n s = decPos n s := if_neg (Nat.not_lt.mpr hn)

theorem decWidth_beyond (hn : 64 < n) (s : State) : decWidth n s = contractFault s := if_pos hn

/-! ### Octet arrays -/

theorem encBytes_writesRun (hwf : s.buf.wf = true) {din : List Byte} (hr : room (8 * din.length) s) :
    WritesRun (encBytes din s) s 8 din.length (fun i => (din.getD i 0).toNat) := by
  rcases encBytes_cases din s with ⟨-, e⟩ | ⟨hnot, -⟩
  · rw [e]
    exact writesRun_bytes hwf din _ fun i hi => by rw [List.getD_eq_getElem _ _ hi]
  · exact absurd hr hnot

theorem encBytes_failsWith {din : List Byte} (hr : ¬ room (8 * din.length) s) :
    FailsWith (encBytes din s) s .insufficientData := by
  rcases encBytes_cases din s with ⟨h, -⟩ | ⟨-, e⟩
  · exact absurd h hr
  · rw [e]
    exact failsWith_setErr s _

/-! ### What a command is on a block with FAULT = 0 -/

theorem exec_encUint (hs : s.fault = false) (n : Nat) (v : Int) : exec (.encUint n v) s = encWidth n v s :=
  unlessFaulted_ready hs _

theorem exec_decUint (hs : s.fault = false) (n : Nat) : exec (.decUint n) s = decWidth n s := unlessFaulted_ready hs _

theorem exec_acnEncLength (hs : s.fault = false) (n : Nat) (v : Int) : exec (.acnEncLength n v) s = encWidth n v s :=
  unlessFaulted_ready hs _

theorem exec_acnDecLength (hs : s.fault = false) (n : Nat) : exec (.acnDecLength n) s = decWidth n s :=
  unlessFaulted_ready hs _

theorem exec_encAppendBytes (hs : s.fault = false) (din : List Byte) : exec (.encAppendBytes din) s = encBytes din s :=
  unlessFaulted_ready hs _

theorem exec_encOctetsNolen (hs : s.fault = false) (din : List Byte) : exec (.encOctetsNolen din) s = encBytes din s :=
  unlessFaulted_ready hs _

theorem exec_encNull (hs : s.fault = false) : exec .encNull s = .next (setOk 0 0 [] s) := unlessFaulted_ready hs _

theorem exec_decNull (hs : s.fault = false) : exec .decNull s = .next (setOk 0 0 [] s) := unlessFaulted_ready hs _

end

/-- Settles O43: the codec's commands and the ACN length commands are the same `encWidth` and `decWidth`. -/
theorem unsignedFields : Obligations.UnsignedFields := by
  rintro s n v ⟨hs, hwf⟩
  rw [exec_encUint hs, exec_acnEncLength hs, exec_decUint hs, exec_acnDecLength hs]
  simp only [and_self]
  refine ⟨fun hn hv hr => ?_, fun hn hv => ?_, fun hn hv hr => ?_, fun hn hr => ?_, fun hn hr => ?_, fun hn => ?_⟩
  · rw [encWidth_within hn]
    exact (encPos_writesField hwf hv hr).encodes
  · rw [encWidth_within hn]
    exact encPos_failsWith_of_not_fitsU hv
  · rw [encWidth_within hn]
    exact encPos_failsWith_of_not_room hv hr
  · rw [decWidth_within hn]
    exact (decPos_readsTo hr).decodes
  · rw [decWidth_within hn]
    exact decPos_failsWith hr
  · rw [encWidth_beyond hn, decWidth_beyond hn]
    have hc := raises_contractFault s
    exact ⟨hc, hc, hc⟩

/-- Settles O45: both commands are `encBytes`. -/
theorem octetArrays : Obligations.OctetArrays := by
  rintro s din ⟨hs, hwf⟩
  rw [exec_encAppendBytes hs, exec_encOctetsNolen hs]
  refine ⟨fun hr => ?_, fun hr => ?_⟩
  · have hw := (encBytes_writesRun hwf hr).encodes
    exact ⟨hw, hw⟩
  · have hf := encBytes_failsWith hr
    exact ⟨hf, hf⟩

/-- Settles O40: both commands are an `Ok(0, 0)` on the state they found, and an `Ok` record moves nothing. -/
theorem nullCommands : Obligations.NullCommands := by
  intro s hs
  rw [exec_encNull hs, exec_decNull hs]
  have hd := (answers_setOk s 0 []).decodes
  exact ⟨hd, hd⟩

end Sys2Proof.Machine
end

section
/-!
The ACN integers of fixed size (43_acn_fixed_int.md R181 to R208). Each command is a routine of R180 at one width, or
at the width N behind the domain check `constSize`. So the claims are settled on the routines, for every width: one
lemma per clause for `encTc`, `decTc`, `encLe`, `decLe` and the two range-checked forms of `encLe` (`encPos` and
`decPos` have theirs already), and for each of the four encoder / decoder pairs one theorem that puts its five clauses
together (`posField_clauses`, `tcField_clauses`, `posLe_clauses`, `tcLe_clauses`). A claim about three widths is that
theorem three times.
-/

namespace Sys2Proof.Machine

/-! ### Two's complement fields -/

/-- The field of a value in the signed range is its residue (R180, `v mod 2^n`). -/
theorem toU_eq_emod {v : Int} {n : Nat} (hn : 1 ≤ n) (h : fitsS v n) : toU v n = (v % 2 ^ n).toNat := by
  have hlt := toU_lt hn h
  rw [← Nat.cast_lt (α := Int), two_pow_cast] at hlt
  have hmod : ((toU v n : Nat) : Int) ≡ v [ZMOD 2 ^ n] := by
    conv_rhs => rw [← sext_toU hn h]
    unfold sext
    split_ifs
    · exact (Int.sub_emod_right _ _).symm
    · rfl
  rw [← hmod.eq, Int.emod_eq_of_lt (Int.natCast_nonneg _) hlt, Int.toNat_natCast]

/-- Sign extension leaves the field as it is. -/
theorem sext_emod {n u : Nat} (hu : u < 2 ^ n) : sext n u % 2 ^ n = u := by
  have hlt : (u : Int) < 2 ^ n := by rw [← two_pow_cast]; exact_mod_cast hu
  have hfield : (u : Int) % 2 ^ n = u := Int.emod_eq_of_lt (Int.natCast_nonneg u) hlt
  unfold sext
  split_ifs
  · rw [Int.sub_emod_right, hfield]
  · exact hfield

section
variable {s : State} {n k : Nat} {v : Int}

/-- A decoder that returns the sign extension of a field of `w` bits returns the signed value of that field. -/
theorem ReadsTo.readsSigned {r : StepResult} {w u : Nat} {d : List Byte} (h : ReadsTo r s n (sext w u) d)
    (hw : 1 ≤ w) (hu : u < 2 ^ w) : ReadsSigned r s n w u :=
  ⟨_, fitsS_sext hw hu, sext_emod hu, h.decodes⟩

theorem encTc_writesField (hwf : s.buf.wf = true) (hn : 1 ≤ n) (hv : fitsS v n) (hr : room n s) :
    WritesField (encTc n v s) s n (v % 2 ^ n).toNat := by
  rcases encTc_cases n v s with ⟨-, -, e⟩ | ⟨hnot, -⟩ | ⟨-, hnot, -⟩
  · rw [e, ← toU_eq_emod hn hv]
    exact writesField_setOk hwf (toU_lt hn hv)
  · exact absurd hv hnot
  · exact absurd hr hnot

/-- The value is checked before the room, so this holds whatever the room. -/
theorem encTc_failsWith_of_not_fitsS (hv : ¬ fitsS v n) : FailsWith (encTc n v s) s .invalidValue := by
  rcases encTc_cases n v s with ⟨h, -⟩ | ⟨-, e⟩ | ⟨h, -⟩
  · exact absurd h hv
  · rw [e]
    exact failsWith_setErr s _
  · exact absurd h hv

theorem encTc_failsWith_of_not_room (hv : fitsS v n) (hr : ¬ room n s) :
    FailsWith (encTc n v s) s .insufficientData := by
  rcases encTc_cases n v s with ⟨-, h, -⟩ | ⟨hnot, -⟩ | ⟨-, -, e⟩
  · exact absurd h hr
  · exact absurd hv hnot
  · rw [e]
    exact failsWith_setErr s _

theorem decTc_readsTo (hr : room n s) : ReadsTo (decTc n s) s n (sext n (memRead s.buf s.pos n)) [] := by
  rcases decTc_cases n s with ⟨-, e⟩ | ⟨hnot, -⟩
  · rw [e]
    exact readsTo_setOk s _ _ _
  · exact absurd hr hnot

theorem decTc_failsWith (hr : ¬ room n s) : FailsWith (decTc n s) s .insufficientData := by
  rcases decTc_cases n s with ⟨h, -⟩ | ⟨-, e⟩
  · exact absurd h hr
  · rw [e]
    exact failsWith_setErr s _

/-! ### Bytes, the least significant first -/

theorem getElem_leBytes_toNat (k u : Nat) {i : Nat} (hi : i < (leBytes k u).length) :
    (leBytes k u)[i].toNat = u / 256 ^ i % 256 := by simp [leBytes, byteI]

theorem littleEndianAt_lt (m : Memory) (p k : Nat) : littleEndianAt m p k < 2 ^ (8 * k) := by
  induction k generalizing p with
  | zero => simp [littleEndianAt]
  | succ k ih =>
    have hbyte : byteAt m p 0 < 2 ^ 8 := memRead_lt m _ 8
    have hrest := ih (p + 8)
    rw [littleEndianAt_succ, Nat.mul_succ, Nat.pow_add]
    omega

theorem encLe_writesRun (hwf : s.buf.wf = true) (u : Nat) (hr : room (8 * k) s) :
    WritesRun (encLe k u s) s 8 k (fun i => u / 256 ^ i % 256) := by
  rcases encLe_cases k u s with ⟨-, e⟩ | ⟨hnot, -⟩
  · have h := writesRun_bytes hwf (leBytes k u) _ fun _ => getElem_leBytes_toNat k u
    rw [leBytes_length] at h
    rwa [e]
  · exact absurd hr hnot

theorem encLe_failsWith (u : Nat) (hr : ¬ room (8 * k) s) : FailsWith (encLe k u s) s .insufficientData := by
  rcases encLe_cases k u s with ⟨h, -⟩ | ⟨-, e⟩
  · exact absurd h hr
  · rw [e]
    exact failsWith_setErr s _

theorem decLe_readsTo (value : Nat → Int) (hr : room (8 * k) s) :
    ReadsTo (decLe k value s) s (8 * k) (value (littleEndianAt s.buf s.pos k)) [] := by
  rcases decLe_cases k value s with ⟨-, e⟩ | ⟨hnot, -⟩
  · rw [e, leValue_readBytes]
    exact readsTo_setOk s _ _ _
  · exact absurd hr hnot

theorem decLe_failsWith (value : Nat → Int) (hr : ¬ room (8 * k) s) :
    FailsWith (decLe k value s) s .insufficientData := by
  rcases decLe_cases k value s with ⟨h, -⟩ | ⟨-, e⟩
  · exact absurd h hr
  · rw [e]
    exact failsWith_setErr s _

theorem encPosLe_of_fitsU (hv : fitsU v (8 * k)) : encPosLe k v s = encLe k v.toNat s :=
  (if_neg (Int.not_lt.mpr hv.1)).trans (if_neg (Int.not_le.mpr hv.2))

theorem encPosLe_failsWith (hv : ¬ fitsU v (8 * k)) : FailsWith (encPosLe k v s) s .invalidValue := by
  unfold encPosLe
  split_ifs with hneg hbig
  · exact failsWith_setErr s _
  · exact failsWith_setErr s _
  · exact absurd ⟨Int.not_lt.mp hneg, Int.not_le.mp hbig⟩ hv

theorem encTcLe_of_fitsS (hv : fitsS v (8 * k)) : encTcLe k v s = encLe k (toU v (8 * k)) s :=
  if_neg (not_not_intro hv)

theorem encTcLe_failsWith (hv : ¬ fitsS v (8 * k)) : FailsWith (encTcLe k v s) s .invalidValue := by
  rw [show encTcLe k v s = .next (setErr .invalidValue s) from if_pos hv]
  exact failsWith_setErr s _

/-! ### Constant sizes: within and outside 1 to 64 bits -/

theorem constSize_within (h1 : 1 ≤ n) (h64 : n ≤ 64) (body : StepResult) : constSize n s body = body := by
  rcases constSize_cases n s body with ⟨hout, -⟩ | ⟨-, -, e⟩
  · omega
  · exact e

theorem constSize_raises (h : n < 1 ∨ 64 < n) (body : StepResult) : RaisesContractFault (constSize n s body) s := by
  rcases constSize_cases n s body with ⟨-, e⟩ | ⟨h1, h64, -⟩
  · rw [e]
    exact raises_contractFault s
  · omega

/-! ### The clauses of a pair, at every width -/

theorem posField_clauses (hs : Ready s) (n : Nat) (v : Int) :
    (fitsU v n → room n s → EncodesField (encPos n v s) s n v.toNat) ∧
    (¬ fitsU v n → FailsWith (encPos n v s) s .invalidValue) ∧
    (fitsU v n → ¬ room n s → FailsWith (encPos n v s) s .insufficientData) ∧
    (room n s → DecodesTo (decPos n s) s n (memRead s.buf s.pos n)) ∧
    (¬ room n s → FailsWith (decPos n s) s .insufficientData) := by
  obtain ⟨-, hwf⟩ := hs
  exact ⟨fun hv hr => (encPos_writesField hwf hv hr).encodes, encPos_failsWith_of_not_fitsU,
    encPos_failsWith_of_not_room, fun hr => (decPos_readsTo hr).decodes, decPos_failsWith⟩

theorem tcField_clauses (hs : Ready s) (hn : 1 ≤ n) (v : Int) :
    (fitsS v n → room n s → EncodesField (encTc n v s) s n (v % 2 ^ n).toNat) ∧
    (¬ fitsS v n → FailsWith (encTc n v s) s .invalidValue) ∧
    (fitsS v n → ¬ room n s → FailsWith (encTc n v s) s .insufficientData) ∧
    (room n s → ReadsSigned (decTc n s) s n n (memRead s.buf s.pos n)) ∧
    (¬ room n s → FailsWith (decTc n s) s .insufficientData) := by
  obtain ⟨-, hwf⟩ := hs
  exact ⟨fun hv hr => (encTc_writesField hwf hn hv hr).encodes, encTc_failsWith_of_not_fitsS,
    encTc_failsWith_of_not_room, fun hr => (decTc_readsTo hr).readsSigned hn (memRead_lt _ _ _), decTc_failsWith⟩

/-- `n` is the width `k` bytes have; the commands give it as a numeral. -/
theorem posLe_clauses (hs : Ready s) (hn : n = 8 * k) (v : Int) :
    (fitsU v n → room n s → EncodesRun (encPosLe k v s) s 8 k (fun i => v.toNat / 256 ^ i % 256)) ∧
    (¬ fitsU v n → FailsWith (encPosLe k v s) s .invalidValue) ∧
    (fitsU v n → ¬ room n s → FailsWith (encPosLe k v s) s .insufficientData) ∧
    (room n s → DecodesTo (decLe k Int.ofNat s) s n (littleEndianAt s.buf s.pos k)) ∧
    (¬ room n s → FailsWith (decLe k Int.ofNat s) s .insufficientData) := by
  obtain ⟨-, hwf⟩ := hs
  subst hn
  refine ⟨fun hv hr => ?_, encPosLe_failsWith, fun hv hr => ?_, fun hr => (decLe_readsTo _ hr).decodes,
    decLe_failsWith _⟩
  · rw [encPosLe_of_fitsU hv]
    exact (encLe_writesRun hwf _ hr).encodes
  · rw [encPosLe_of_fitsU hv]
    exact encLe_failsWith _ hr

/-- As `posLe_clauses`, with the bytes of `v mod 2^n` and the signed value of the assembled field. -/
theorem tcLe_clauses (hs : Ready s) (hn : n = 8 * k) (h1 : 1 ≤ n) (v : Int) :
    (fitsS v n → room n s → EncodesRun (encTcLe k v s) s 8 k (fun i => (v % 2 ^ n).toNat / 256 ^ i % 256)) ∧
    (¬ fitsS v n → FailsWith (encTcLe k v s) s .invalidValue) ∧
    (fitsS v n → ¬ room n s → FailsWith (encTcLe k v s) s .insufficientData) ∧
    (room n s → ReadsSigned (decLe k (sext n) s) s n n (littleEndianAt s.buf s.pos k)) ∧
    (¬ room n s → FailsWith (decLe k (sext n) s) s .insufficientData) := by
  obtain ⟨-, hwf⟩ := hs
  subst hn
  refine ⟨fun hv hr => ?_, encTcLe_failsWith, fun hv hr => ?_,
    fun hr => (decLe_readsTo _ hr).readsSigned h1 (littleEndianAt_lt _ _ _), decLe_failsWith _⟩
  · rw [encTcLe_of_fitsS hv, toU_eq_emod h1 hv]
    exact (encLe_writesRun hwf _ hr).encodes
  · rw [encTcLe_of_fitsS hv]
    exact encLe_failsWith _ hr

/-! ### What a command is on a block with FAULT = 0 -/

theorem exec_acnEncPosConst (hs : s.fault = false) (n : Nat) (v : Int) :
    exec (.acnEncPosConst n v) s = constSize n s (encPos n v s) := unlessFaulted_ready hs _

theorem exec_acnDecPosConst (hs : s.fault = false) (n : Nat) :
    exec (.acnDecPosConst n) s = constSize n s (decPos n s) := unlessFaulted_ready hs _

theorem exec_acnEncTcConst (hs : s.fault = false) (n : Nat) (v : Int) :
    exec (.acnEncTcConst n v) s = constSize n s (encTc n v s) := unlessFaulted_ready hs _

theorem exec_acnDecTcConst (hs : s.fault = false) (n : Nat) : exec (.acnDecTcConst n) s = constSize n s (decTc n s) :=
  unlessFaulted_ready hs _

theorem exec_acnEncPosBe16 (hs : s.fault = false) (v : Int) : exec (.acnEncPosBe16 v) s = encPos 16 v s :=
  unlessFaulted_ready hs _

theorem exec_acnDecPosBe16 (hs : s.fault = false) : exec .acnDecPosBe16 s = decPos 16 s := unlessFaulted_ready hs _

theorem exec_acnEncPosBe32 (hs : s.fault = false) (v : Int) : exec (.acnEncPosBe32 v) s = encPos 32 v s :=
  unlessFaulted_ready hs _

theorem exec_acnDecPosBe32 (hs : s.fault = false) : exec .acnDecPosBe32 s = decPos 32 s := unlessFaulted_ready hs _

theorem exec_acnEncPosBe64 (hs : s.fault = false) (v : Int) : exec (.acnEncPosBe64 v) s = encPos 64 v s :=
  unlessFaulted_ready hs _

theorem exec_acnDecPosBe64 (hs : s.fault = false) : exec .acnDecPosBe64 s = decPos 64 s := unlessFaulted_ready hs _

theorem exec_acnEncPosLe16 (hs : s.fault = false) (v : Int) : exec (.acnEncPosLe16 v) s = encPosLe 2 v s :=
  unlessFaulted_ready hs _

theorem exec_acnDecPosLe16 (hs : s.fault = false) : exec .acnDecPosLe16 s = decLe 2 Int.ofNat s :=
  unlessFaulted_ready hs _

theorem exec_acnEncPosLe32 (hs : s.fault = false) (v : Int) : exec (.acnEncPosLe32 v) s = encPosLe 4 v s :=
  unlessFaulted_ready hs _

theorem exec_acnDecPosLe32 (hs : s.fault = false) : exec .acnDecPosLe32 s = decLe 4 Int.ofNat s :=
  unlessFaulted_ready hs _

theorem exec_acnEncPosLe64 (hs : s.fault = false) (v : Int) : exec (.acnEncPosLe64 v) s = encPosLe 8 v s :=
  unlessFaulted_ready hs _

theorem exec_acnDecPosLe64 (hs : s.fault = false) : exec .acnDecPosLe64 s = decLe 8 Int.ofNat s :=
  unlessFaulted_ready hs _

theorem exec_acnEncTcBe16 (hs : s.fault = false) (v : Int) : exec (.acnEncTcBe16 v) s = encTc 16 v s :=
  unlessFaulted_ready hs _

theorem exec_acnDecTcBe16 (hs : s.fault = false) : exec .acnDecTcBe16 s = decTc 16 s := unlessFaulted_ready hs _

theorem exec_acnEncTcBe32 (hs : s.fault = false) (v : Int) : exec (.acnEncTcBe32 v) s = encTc 32 v s :=
  unlessFaulted_ready hs _

theorem exec_acnDecTcBe32 (hs : s.fault = false) : exec .acnDecTcBe32 s = decTc 32 s := unlessFaulted_ready hs _

theorem exec_acnEncTcBe64 (hs : s.fault = false) (v : Int) : exec (.acnEncTcBe64 v) s = encTc 64 v s :=
  unlessFaulted_ready hs _

theorem exec_acnDecTcBe64 (hs : s.fault = false) : exec .acnDecTcBe64 s = decTc 64 s := unlessFaulted_ready hs _

theorem exec_acnEncTcLe16 (hs : s.fault = false) (v : Int) : exec (.acnEncTcLe16 v) s = encTcLe 2 v s :=
  unlessFaulted_ready hs _

theorem exec_acnDecTcLe16 (hs : s.fault = false) : exec .acnDecTcLe16 s = decLe 2 (sext 16) s :=
  unlessFaulted_ready hs _

theorem exec_acnEncTcLe32 (hs : s.fault = false) (v : Int) : exec (.acnEncTcLe32 v) s = encTcLe 4 v s :=
  unlessFaulted_ready hs _

theorem exec_acnDecTcLe32 (hs : s.fault = false) : exec .acnDecTcLe32 s = decLe 4 (sext 32) s :=
  unlessFaulted_ready hs _

theorem exec_acnEncTcLe64 (hs : s.fault = false) (v : Int) : exec (.acnEncTcLe64 v) s = encTcLe 8 v s :=
  unlessFaulted_ready hs _

theorem exec_acnDecTcLe64 (hs : s.fault = false) : exec .acnDecTcLe64 s = decLe 8 (sext 64) s :=
  unlessFaulted_ready hs _

end

/-- Settles O46: within 1 to 64 bits the commands are `encPos` and `decPos`, outside them `constSize` raises. -/
theorem constantSizePositive : Obligations.ConstantSizePositive := by
  intro s n v hs
  rw [exec_acnEncPosConst hs.1, exec_acnDecPosConst hs.1]
  refine ⟨fun h1 h64 => ?_, fun hout => ⟨constSize_raises hout _, constSize_raises hout _⟩⟩
  simp only [constSize_within h1 h64]
  exact posField_clauses hs n v

/-- Settles O47: as O46, with `encTc` and `decTc`. -/
theorem constantSizeTwosComplement : Obligations.ConstantSizeTwosComplement := by
  intro s n v hs
  rw [exec_acnEncTcConst hs.1, exec_acnDecTcConst hs.1]
  refine ⟨fun h1 h64 => ?_, fun hout => ⟨constSize_raises hout _, constSize_raises hout _⟩⟩
  simp only [constSize_within h1 h64]
  exact tcField_clauses hs h1 v

/-- Settles O48: the commands are `encPos` and `decPos` at 16, 32 and 64 bits. -/
theorem bigEndianPositive : Obligations.BigEndianPositive := by
  intro s v hs
  rw [exec_acnEncPosBe16 hs.1, exec_acnDecPosBe16 hs.1, exec_acnEncPosBe32 hs.1, exec_acnDecPosBe32 hs.1,
    exec_acnEncPosBe64 hs.1, exec_acnDecPosBe64 hs.1]
  have h16 := posField_clauses hs 16 v
  have h32 := posField_clauses hs 32 v
  have h64 := posField_clauses hs 64 v
  simpa only [and_assoc] using And.intro h16 (And.intro h32 h64)

/-- Settles O49: the commands are `encPosLe` and `decLe` with 2, 4 and 8 bytes. -/
theorem littleEndianPositive : Obligations.LittleEndianPositive := by
  intro s v hs
  rw [exec_acnEncPosLe16 hs.1, exec_acnDecPosLe16 hs.1, exec_acnEncPosLe32 hs.1, exec_acnDecPosLe32 hs.1,
    exec_acnEncPosLe64 hs.1, exec_acnDecPosLe64 hs.1]
  have h16 := posLe_clauses (n := 16) (k := 2) hs rfl v
  have h32 := posLe_clauses (n := 32) (k := 4) hs rfl v
  have h64 := posLe_clauses (n := 64) (k := 8) hs rfl v
  simpa only [and_assoc] using And.intro h16 (And.intro h32 h64)

/-- Settles O50: the commands are `encTc` and `decTc` at 16, 32 and 64 bits. -/
theorem bigEndianTwosComplement : Obligations.BigEndianTwosComplement := by
  intro s v hs
  rw [exec_acnEncTcBe16 hs.1, exec_acnDecTcBe16 hs.1, exec_acnEncTcBe32 hs.1, exec_acnDecTcBe32 hs.1,
    exec_acnEncTcBe64 hs.1, exec_acnDecTcBe64 hs.1]
  have h16 := tcField_clauses (n := 16) hs (by decide) v
  have h32 := tcField_clauses (n := 32) hs (by decide) v
  have h64 := tcField_clauses (n := 64) hs (by decide) v
  simpa only [and_assoc] using And.intro h16 (And.intro h32 h64)

/-- Settles O51: the commands are `encTcLe`, and `decLe` with sign extension, with 2, 4 and 8 bytes. -/
theorem littleEndianTwosComplement : Obligations.LittleEndianTwosComplement := by
  intro s v hs
  rw [exec_acnEncTcLe16 hs.1, exec_acnDecTcLe16 hs.1, exec_acnEncTcLe32 hs.1, exec_acnDecTcLe32 hs.1,
    exec_acnEncTcLe64 hs.1, exec_acnDecTcLe64 hs.1]
  have h16 := tcLe_clauses (n := 16) (k := 2) hs rfl (by decide) v
  have h32 := tcLe_clauses (n := 32) (k := 4) hs rfl (by decide) v
  have h64 := tcLe_clauses (n := 64) (k := 8) hs rfl (by decide) v
  simpa only [and_assoc] using And.intro h16 (And.intro h32 h64)

end Sys2Proof.Machine
end

section
/-!
The ACN integers of variable size (44_acn_varsize_int.md R220 to R225). Both encoders are `encCounted`, behind their
domain checks; both decoders are `decCounted`, which differ in the value they make of the payload. So each clause of
the claims is proved once, on these two, and a claim is its commands' domain checks, its byte count and its value.
-/

namespace Sys2Proof.Machine

section
variable {s t : State} {k l u : Nat} {v : Int} {code : ErrCode}

/-! ### A count and the field it announces: encoding -/

theorem encCounted_writesLengthPrefixed (hwf : s.buf.wf = true) (hk : k ≤ 8) (hu : u < 2 ^ (8 * k))
    (hr : room (8 + 8 * k) s) : WritesLengthPrefixed (encCounted k u s) s k u := by
  rcases encCounted_cases k u s with ⟨-, e⟩ | ⟨hnot, -⟩
  · have hwf' := wf_writeField hwf 8 k
    have hcount : memRead (writeField (8 * k) u (writeField 8 k s)).buf s.pos 8 = k :=
      (memRead_memWrite_outside hwf' (.inl (Nat.le_refl _)) _).trans (memRead_memWrite hwf _ _ (by omega))
    have hfield : memRead (writeField (8 * k) u (writeField 8 k s)).buf (s.pos + 8) (8 * k) = u :=
      memRead_memWrite hwf' _ _ hu
    have hwrites := (writesAt_writeField hwf 8 k).trans (writesAt_writeField hwf' (8 * k) u)
    exact ⟨_, e, hwrites.setOk _ _ _, hcount, hfield, rfl, rfl, rfl, rfl⟩
  · exact absurd hr hnot

theorem encCounted_failsWith (hr : ¬ room (8 + 8 * k) s) : FailsWith (encCounted k u s) s .insufficientData := by
  rcases encCounted_cases k u s with ⟨h, -⟩ | ⟨-, e⟩
  · exact absurd h hr
  · rw [e]
    exact failsWith_setErr s _

theorem encCounted_clauses (hwf : s.buf.wf = true) (hk : k ≤ 8) (hu : u < 2 ^ (8 * k)) :
    (room (8 + 8 * k) s → WritesLengthPrefixed (encCounted k u s) s k u) ∧
    (¬ room (8 + 8 * k) s → FailsWith (encCounted k u s) s .insufficientData) :=
  ⟨encCounted_writesLengthPrefixed hwf hk hu, encCounted_failsWith⟩

/-! ### A count and the field it announces: decoding -/

/-- What R221 and R223 share: the outcome of `readCounted`, with the value made of the count and the payload by
`value`. -/
def decCounted (value : Nat → Nat → Int) (s : State) : StepResult :=
  match readCounted s with
  | (.error code, t) => fail code t
  | (.ok (l, u), t) => ok (value l u) (8 + 8 * l) [] t

variable {value : Nat → Nat → Int}

theorem decCounted_of_error (h : readCounted s = (.error code, t)) :
    decCounted value s = .next (setErr code t) := by
  unfold decCounted
  rw [h]
  rfl

theorem decCounted_of_ok (h : readCounted s = (.ok (l, u), t)) :
    decCounted value s = .next (setOk (value l u) (8 + 8 * l) [] t) := by
  unfold decCounted
  rw [h]
  rfl

theorem decCounted_failsWith (hr : ¬ room 8 s) : FailsWith (decCounted value s) s .insufficientData := by
  rcases readCounted_cases s with ⟨-, e⟩ | ⟨h, -⟩ | ⟨h, -⟩ | ⟨-, h, -⟩
  · rw [decCounted_of_error e]
    exact failsWith_setErr s _
  all_goals omega

theorem decCounted_failsAfter_of_count (hr : room 8 s) (hcount : 8 < memRead s.buf s.pos 8) :
    FailsAfter (decCounted value s) s 8 .invalidValue := by
  rcases readCounted_cases s with ⟨h, -⟩ | ⟨-, -, e⟩ | ⟨-, h, -⟩ | ⟨h, -⟩
  case inr.inl =>
    rw [decCounted_of_error e]
    exact failsAfter_setErr s 8 _
  all_goals omega

theorem decCounted_failsAfter_of_payload (hr : room 8 s) (hcount : memRead s.buf s.pos 8 ≤ 8)
    (hpayload : ¬ room (8 + 8 * memRead s.buf s.pos 8) s) :
    FailsAfter (decCounted value s) s 8 .insufficientData := by
  rcases readCounted_cases s with ⟨h, -⟩ | ⟨-, h, -⟩ | ⟨-, -, -, e⟩ | ⟨-, h, -⟩
  case inr.inr.inl =>
    rw [decCounted_of_error e]
    exact failsAfter_setErr s 8 _
  all_goals omega

theorem decCounted_readsTo (hcount : memRead s.buf s.pos 8 = k) (hk : k ≤ 8) (hr : room (8 + 8 * k) s) :
    ReadsTo (decCounted value s) s (8 + 8 * k) (value k (memRead s.buf (s.pos + 8) (8 * k))) [] := by
  subst hcount
  rcases readCounted_cases s with ⟨h, -⟩ | ⟨-, h, -⟩ | ⟨-, -, h, -⟩ | ⟨-, -, e⟩
  case inr.inr.inr =>
    rw [decCounted_of_ok e]
    exact readsTo_setOk s _ _ _
  all_goals omega

/-- The failures behind the count; without room for the count `decCounted_failsWith` holds. -/
theorem decCounted_failures (hr : room 8 s) (hcount : memRead s.buf s.pos 8 = k) :
    (8 < k → FailsAfter (decCounted value s) s 8 .invalidValue) ∧
    (k ≤ 8 → ¬ room (8 + 8 * k) s → FailsAfter (decCounted value s) s 8 .insufficientData) := by
  subst hcount
  exact ⟨decCounted_failsAfter_of_count hr, decCounted_failsAfter_of_payload hr⟩

/-- The value of a signed payload `u` of `l` bytes: 0 when there is no sign bit to inspect (R223). -/
def signedPayload (l u : Nat) : Int := if l = 0 then 0 else sext (8 * l) u

theorem signedPayload_zero (u : Nat) : signedPayload 0 u = 0 := if_pos rfl

theorem signedPayload_pos (hl : 1 ≤ l) (u : Nat) : signedPayload l u = sext (8 * l) u :=
  if_neg (Nat.one_le_iff_ne_zero.mp hl)

/-! ### What a command is on a block with FAULT = 0 -/

theorem exec_acnEncPosVar_of_fitsU (hs : s.fault = false) (hv : fitsU v 64) :
    exec (.acnEncPosVar v) s = encCounted (ubytes v.toNat) v.toNat s :=
  (unlessFaulted_ready hs _).trans <| (if_neg (Int.not_le.mpr hv.2)).trans (if_neg (Int.not_lt.mpr hv.1))

theorem exec_acnEncPosVar_of_neg (hs : s.fault = false) (hneg : v < 0) :
    exec (.acnEncPosVar v) s = .next (setErr .invalidValue s) :=
  (unlessFaulted_ready hs _).trans <| (if_neg (by omega)).trans (if_pos hneg)

theorem exec_acnEncPosVar_of_big (hs : s.fault = false) (h64 : 2 ^ 64 ≤ v) :
    exec (.acnEncPosVar v) s = contractFault s := (unlessFaulted_ready hs _).trans (if_pos h64)

theorem exec_acnDecPosVar (hs : s.fault = false) : exec .acnDecPosVar s = decCounted (fun _ u => u) s :=
  unlessFaulted_ready hs _

theorem exec_acnEncTcVar_of_fitsS (hs : s.fault = false) (hv : fitsS v 64) :
    exec (.acnEncTcVar v) s = encCounted (sbytes v) (toU v (8 * sbytes v)) s :=
  (unlessFaulted_ready hs _).trans (if_neg (not_not_intro hv))

theorem exec_acnEncTcVar_of_not_fitsS (hs : s.fault = false) (hv : ¬ fitsS v 64) :
    exec (.acnEncTcVar v) s = contractFault s := (unlessFaulted_ready hs _).trans (if_pos hv)

theorem exec_acnDecTcVar (hs : s.fault = false) : exec .acnDecTcVar s = decCounted signedPayload s :=
  unlessFaulted_ready hs _

/-! ### The encoders' clauses, at the least byte count -/

theorem acnEncPosVar_clauses (hs : Ready s) (h0 : 0 ≤ v) (h64 : v < 2 ^ 64) (hk : IsByteCount v k) :
    (room (8 + 8 * k) s → WritesLengthPrefixed (exec (.acnEncPosVar v) s) s k v.toNat) ∧
    (¬ room (8 + 8 * k) s → FailsWith (exec (.acnEncPosVar v) s) s .insufficientData) := by
  obtain ⟨hf, hwf⟩ := hs
  obtain rfl : ubytes v.toNat = k := ubytes_unique (by rwa [Int.toNat_of_nonneg h0])
  rw [exec_acnEncPosVar_of_fitsU hf ⟨h0, h64⟩]
  exact encCounted_clauses hwf (ubytes_le_eight (toNat_lt_of_fitsU ⟨h0, h64⟩)) (lt_two_pow_ubytes _)

theorem acnEncTcVar_clauses (hs : Ready s) (hv : fitsS v 64) (hk : IsSignedByteCount v k) :
    (room (8 + 8 * k) s → WritesLengthPrefixed (exec (.acnEncTcVar v) s) s k (v % 2 ^ (8 * k)).toNat) ∧
    (¬ room (8 + 8 * k) s → FailsWith (exec (.acnEncTcVar v) s) s .insufficientData) := by
  obtain ⟨hf, hwf⟩ := hs
  obtain rfl := sbytes_unique hk
  have hwidth : 1 ≤ 8 * sbytes v := by have := one_le_sbytes v; omega
  have hfits := fitsS_sbytes v
  rw [exec_acnEncTcVar_of_fitsS hf hv, ← toU_eq_emod hwidth hfits]
  exact encCounted_clauses hwf (sbytes_le_eight hv) (toU_lt hwidth hfits)

end

/-- Settles O52: the encoder at the least byte count, its two domain checks, and `decCounted` with the payload itself. -/
theorem variableSizeUnsigned : Obligations.VariableSizeUnsigned := by
  intro s v k hs
  refine ⟨acnEncPosVar_clauses hs, fun hneg => ?_, fun h64 => ?_, ?_⟩
  · rw [exec_acnEncPosVar_of_neg hs.1 hneg]
    exact failsWith_setErr s _
  · rw [exec_acnEncPosVar_of_big hs.1 h64]
    exact raises_contractFault s
  · rw [exec_acnDecPosVar hs.1]
    refine ⟨decCounted_failsWith, fun hr hcount => ?_⟩
    obtain ⟨hbig, hshort⟩ := decCounted_failures hr hcount
    exact ⟨hbig, hshort, fun hk hr' => (decCounted_readsTo hcount hk hr').decodes⟩

/-- Settles O53: as O52, with `signedPayload`, which is 0 without a payload and its sign extension with one. -/
theorem variableSizeTwosComplement : Obligations.VariableSizeTwosComplement := by
  intro s v k hs
  refine ⟨acnEncTcVar_clauses hs, fun hv => ?_, ?_⟩
  · rw [exec_acnEncTcVar_of_not_fitsS hs.1 hv]
    exact raises_contractFault s
  · rw [exec_acnDecTcVar hs.1]
    refine ⟨decCounted_failsWith, fun hr hcount => ?_⟩
    obtain ⟨hbig, hshort⟩ := decCounted_failures hr hcount
    have hreads := decCounted_readsTo (value := signedPayload) hcount
    refine ⟨hbig, hshort, fun hzero => ?_, fun h1 h8 hr' => ?_⟩
    · subst hzero
      have h := (hreads (by decide) hr).decodes
      rwa [signedPayload_zero] at h
    · have h := hreads h8 hr'
      rw [signedPayload_pos h1] at h
      exact h.readsSigned (by omega) (memRead_lt _ _ _)

end Sys2Proof.Machine
end

section
/-!
The binary-coded decimal commands (45_acn_bcd.md R240 to R247). The three encoders share the domain check of their value
(`bcdValue`) and the check of the room (`writeIfRoom`). The decoders of constant size and of embedded length read an
announced number of digits (`decDigits`); the terminated one reads digits until it meets something else, and what it
does then is `readDigitsNt_eq` at the state behind them (`readDigitsNt_skip`).
-/

namespace Sys2Proof.Machine

section
variable {s t : State} {n m c d j k acc b : Nat} {v : Int} {code : ErrCode}

/-! ### Rooms and nibbles behind the cursor -/

theorem room_skipBits : room k (skipBits m s) ↔ room (m + k) s := by
  simp only [room, skipBits_pos, skipBits_cap, Nat.add_assoc]

theorem nibbleAt_skip_nibbles (buf : Memory) (p c i : Nat) : nibbleAt buf (p + 4 * c) i = nibbleAt buf p (c + i) := by
  unfold nibbleAt
  rw [Nat.mul_add, Nat.add_assoc]

/-! ### Encoding: the checks -/

/-- The domain check of R241, R243 and R245. -/
def bcdValue (v : Int) (s : State) (body : StepResult) : StepResult :=
  if 2 ^ 64 ≤ v then contractFault s else if v < 0 then fail .invalidValue s else body

theorem bcdValue_of_fitsU (hv : fitsU v 64) (body : StepResult) : bcdValue v s body = body :=
  (if_neg (Int.not_le.mpr hv.2)).trans (if_neg (Int.not_lt.mpr hv.1))

theorem bcdValue_failsWith (hneg : v < 0) (body : StepResult) : FailsWith (bcdValue v s body) s .invalidValue := by
  have e : bcdValue v s body = .next (setErr .invalidValue s) := (if_neg (by omega)).trans (if_pos hneg)
  rw [e]
  exact failsWith_setErr s _

theorem bcdValue_raises (hbig : 2 ^ 64 ≤ v) (body : StepResult) : RaisesContractFault (bcdValue v s body) s := by
  rw [bcdValue, if_pos hbig]
  exact raises_contractFault s

/-- How R241, R243 and R245 end: `Ok(0, n)` in the state `t` that their writes lead to, if there is room for them. -/
def writeIfRoom (n : Nat) (t s : State) : StepResult :=
  if ¬ room n s then fail .insufficientData s else ok 0 n [] t

theorem writeIfRoom_of_room (hr : room n s) : writeIfRoom n t s = .next (setOk 0 n [] t) :=
  if_neg (not_not_intro hr)

theorem writeIfRoom_failsWith (hr : ¬ room n s) : FailsWith (writeIfRoom n t s) s .insufficientData := by
  rw [writeIfRoom, if_pos hr]
  exact failsWith_setErr s _

/-! ### Encoding: what is written -/

theorem memRead_writeDigits_before (hwf : s.buf.wf = true) (v d : Nat) {p n : Nat} (hp : p + n ≤ s.pos) :
    memRead (writeDigits v d s).buf p n = memRead s.buf p n :=
  memRead_congr fun _ _ hq => bitAt_writeDigits_outside v d hwf (.inl (by omega))

/-- Wire format of R243. -/
theorem writesCounted_digits (hwf : s.buf.wf = true) (u : Nat) (hd : d < 2 ^ 8) :
    WritesCounted (.next (setOk 0 (8 + 4 * d) [] (writeDigits u d (writeField 8 d s)))) s d 4 d
      (fun i => u / 10 ^ (d - 1 - i) % 10) := by
  have hwf' := wf_writeField hwf 8 d
  have hwrites := (writesAt_writeField hwf 8 d).trans (writesAt_writeDigits hwf' u d)
  have hcount : memRead (writeDigits u d (writeField 8 d s)).buf s.pos 8 = d :=
    (memRead_writeDigits_before hwf' u d (Nat.le_refl _)).trans (memRead_memWrite hwf _ _ hd)
  exact ⟨_, rfl, hwrites.setOk _ _ _, hcount, fun _ hi => memRead_writeDigits u d hwf' hi, rfl, rfl, rfl, rfl⟩

/-- Wire format of R245. -/
theorem encodesRun_digits_sentinel (hwf : s.buf.wf = true) (u d : Nat) :
    EncodesRun (.next (setOk 0 (4 * d + 4) [] (writeField 4 15 (writeDigits u d s)))) s 4 (d + 1)
      (fun i => if i = d then 15 else u / 10 ^ (d - 1 - i) % 10) := by
  have hwf' := wf_writeDigits u d hwf
  have hwrites := (writesAt_writeDigits hwf u d).trans (writesAt_writeField hwf' 4 15)
  refine ⟨_, rfl, hwrites.setOk _ _ _, fun i hi => ?_, rfl, rfl, rfl, rfl⟩
  rw [setOk_buf, writeField_buf, writeDigits_pos]
  by_cases hlast : i = d
  · subst hlast
    exact (memRead_memWrite hwf' _ _ (by decide)).trans (if_pos rfl).symm
  · rw [memRead_memWrite_outside hwf' (.inl (by omega)), memRead_writeDigits u d hwf (by omega)]
    exact (if_neg hlast).symm

/-- A value that R243 and R245 encode has at most 20 digits (MAXDIG), so its count fits its byte. -/
theorem ndigits_le_twenty {u : Nat} (hu : u < 2 ^ 64) : ndigits u ≤ 20 :=
  ndigits_le (by decide) (Nat.lt_trans hu (by decide))

/-! ### Encoding: what a command is on a block with FAULT = 0 -/

theorem exec_acnEncBcdConst_within (hs : s.fault = false) (h1 : 1 ≤ n) (h20 : n ≤ 20) (v : Int) :
    exec (.acnEncBcdConst n v) s = bcdValue v s
      (if 10 ^ n ≤ v then fail .invalidValue s else writeIfRoom (4 * n) (writeDigits v.toNat n s) s) :=
  (unlessFaulted_ready hs _).trans (if_neg (by simp only [Config.maxDig]; omega))

theorem exec_acnEncBcdConst_outside (hs : s.fault = false) (hout : n < 1 ∨ 20 < n) (v : Int) :
    exec (.acnEncBcdConst n v) s = contractFault s := (unlessFaulted_ready hs _).trans (if_pos hout)

theorem exec_acnEncBcdVar (hs : s.fault = false) (v : Int) :
    exec (.acnEncBcdVar v) s = bcdValue v s (writeIfRoom (8 + 4 * ndigits v.toNat)
      (writeDigits v.toNat (ndigits v.toNat) (writeField 8 (ndigits v.toNat) s)) s) := unlessFaulted_ready hs _

theorem exec_acnEncBcdNt (hs : s.fault = false) (v : Int) :
    exec (.acnEncBcdNt v) s = bcdValue v s (writeIfRoom (4 * ndigits v.toNat + 4)
      (writeField 4 15 (writeDigits v.toNat (ndigits v.toNat) s)) s) := unlessFaulted_ready hs _

/-! ### Encoding: the clauses -/

theorem acnEncBcdConst_encodes (hs : Ready s) (h1 : 1 ≤ n) (h20 : n ≤ 20) (hv : fitsU v 64) (hfits : v < 10 ^ n)
    (hr : room (4 * n) s) :
    EncodesRun (exec (.acnEncBcdConst n v) s) s 4 n (fun i => v.toNat / 10 ^ (n - 1 - i) % 10) := by
  rw [exec_acnEncBcdConst_within hs.1 h1 h20, bcdValue_of_fitsU hv, if_neg (Int.not_le.mpr hfits),
    writeIfRoom_of_room hr]
  exact (writesRun_digits hs.2 v.toNat n).encodes

theorem acnEncBcdConst_failsWith_of_value (hs : Ready s) (h1 : 1 ≤ n) (h20 : n ≤ 20)
    (hv : v < 0 ∨ (v < 2 ^ 64 ∧ 10 ^ n ≤ v)) : FailsWith (exec (.acnEncBcdConst n v) s) s .invalidValue := by
  rw [exec_acnEncBcdConst_within hs.1 h1 h20]
  by_cases hneg : v < 0
  · exact bcdValue_failsWith hneg _
  · obtain ⟨h64, hbig⟩ := hv.resolve_left hneg
    rw [bcdValue_of_fitsU ⟨Int.not_lt.mp hneg, h64⟩, if_pos hbig]
    exact failsWith_setErr s _

theorem acnEncBcdConst_failsWith_of_not_room (hs : Ready s) (h1 : 1 ≤ n) (h20 : n ≤ 20) (hv : fitsU v 64)
    (hfits : v < 10 ^ n) (hr : ¬ room (4 * n) s) :
    FailsWith (exec (.acnEncBcdConst n v) s) s .insufficientData := by
  rw [exec_acnEncBcdConst_within hs.1 h1 h20, bcdValue_of_fitsU hv, if_neg (Int.not_le.mpr hfits)]
  exact writeIfRoom_failsWith hr

theorem acnEncBcdConst_raises_of_value (hs : Ready s) (n : Nat) (hbig : 2 ^ 64 ≤ v) :
    RaisesContractFault (exec (.acnEncBcdConst n v) s) s := by
  by_cases hout : n < 1 ∨ 20 < n
  · rw [exec_acnEncBcdConst_outside hs.1 hout]
    exact raises_contractFault s
  · rw [exec_acnEncBcdConst_within hs.1 (by omega) (by omega)]
    exact bcdValue_raises hbig _

theorem acnEncBcdVar_clauses (hs : Ready s) (h0 : 0 ≤ v) (h64 : v < 2 ^ 64) (hd : IsDigitCount v d) :
    (room (8 + 4 * d) s →
      WritesCounted (exec (.acnEncBcdVar v) s) s d 4 d (fun i => v.toNat / 10 ^ (d - 1 - i) % 10)) ∧
    (¬ room (8 + 4 * d) s → FailsWith (exec (.acnEncBcdVar v) s) s .insufficientData) := by
  obtain rfl : ndigits v.toNat = d := ndigits_unique (by rwa [Int.toNat_of_nonneg h0])
  rw [exec_acnEncBcdVar hs.1, bcdValue_of_fitsU ⟨h0, h64⟩]
  refine ⟨fun hr => ?_, writeIfRoom_failsWith⟩
  rw [writeIfRoom_of_room hr]
  have hcount := ndigits_le_twenty (toNat_lt_of_fitsU ⟨h0, h64⟩)
  exact writesCounted_digits hs.2 _ (Nat.lt_of_le_of_lt hcount (by decide))

theorem acnEncBcdNt_clauses (hs : Ready s) (h0 : 0 ≤ v) (h64 : v < 2 ^ 64) (hd : IsDigitCount v d) :
    (room (4 * d + 4) s → EncodesRun (exec (.acnEncBcdNt v) s) s 4 (d + 1)
      (fun i => if i = d then 15 else v.toNat / 10 ^ (d - 1 - i) % 10)) ∧
    (¬ room (4 * d + 4) s → FailsWith (exec (.acnEncBcdNt v) s) s .insufficientData) := by
  obtain rfl : ndigits v.toNat = d := ndigits_unique (by rwa [Int.toNat_of_nonneg h0])
  rw [exec_acnEncBcdNt hs.1, bcdValue_of_fitsU ⟨h0, h64⟩]
  refine ⟨fun hr => ?_, writeIfRoom_failsWith⟩
  rw [writeIfRoom_of_room hr]
  exact encodesRun_digits_sentinel hs.2 _ _

/-! ### Decoding: the value path and an announced number of digits -/

theorem bcdResult_decodes (h : acc < 2 ^ 64) : DecodesTo (bcdResult acc n (skipBits n s)) s n acc := by
  rcases bcdResult_cases acc n (skipBits n s) with ⟨-, e⟩ | ⟨hbig, -⟩
  · rw [e]
    exact (readsTo_setOk s n _ _).decodes
  · exact absurd h (Nat.not_lt.mpr hbig)

theorem bcdResult_failsAfter (h : 2 ^ 64 ≤ acc) :
    FailsAfter (bcdResult acc n (skipBits n s)) s n .invalidValue := by
  rcases bcdResult_cases acc n (skipBits n s) with ⟨hlt, -⟩ | ⟨-, e⟩
  · exact absurd h (Nat.not_le.mpr hlt)
  · rw [e]
    exact failsAfter_setErr s n _

/-- What R242 and R244 share: `c` digits, `m` bits behind the cursor. -/
def decDigits (m c : Nat) (s : State) : StepResult :=
  match readDigits c 0 (skipBits m s) with
  | (.error code, t) => fail code t
  | (.ok acc, t) => bcdResult acc (m + 4 * c) t

theorem decDigits_clauses (h : ∀ i < c, nibbleAt s.buf (s.pos + m) i ≤ 9) :
    (decimalAt s.buf (s.pos + m) c < 2 ^ 64 →
      DecodesTo (decDigits m c s) s (m + 4 * c) (decimalAt s.buf (s.pos + m) c)) ∧
    (2 ^ 64 ≤ decimalAt s.buf (s.pos + m) c → FailsAfter (decDigits m c s) s (m + 4 * c) .invalidValue) := by
  have e : decDigits m c s = bcdResult (decimalAt s.buf (s.pos + m) c) (m + 4 * c) (skipBits (m + 4 * c) s) := by
    rw [decDigits, readDigits_ok c 0 (skipBits m s) h]
    simp only [Nat.zero_mul, Nat.zero_add, skipBits_skipBits, skipBits_buf, skipBits_pos]
  rw [e]
  exact ⟨bcdResult_decodes, bcdResult_failsAfter⟩

theorem decDigits_failsAfter (hj : j < c) (h : ∀ i < j, nibbleAt s.buf (s.pos + m) i ≤ 9)
    (h9 : 9 < nibbleAt s.buf (s.pos + m) j) : FailsAfter (decDigits m c s) s (m + 4 * (j + 1)) .invalidValue := by
  rw [decDigits, readDigits_error c 0 (skipBits m s) hj h h9, skipBits_skipBits]
  exact failsAfter_setErr s _ _

theorem exec_acnDecBcdConst_outside (hs : s.fault = false) (hout : n < 1 ∨ 20 < n) :
    exec (.acnDecBcdConst n) s = contractFault s := (unlessFaulted_ready hs _).trans (if_pos hout)

theorem exec_acnDecBcdConst_within (hs : s.fault = false) (h1 : 1 ≤ n) (h20 : n ≤ 20) :
    exec (.acnDecBcdConst n) s = if ¬ room (4 * n) s then fail .insufficientData s else decDigits 0 n s := by
  rw [decDigits, Nat.zero_add]
  exact (unlessFaulted_ready hs _).trans (if_neg (by simp only [Config.maxDig]; omega))

theorem exec_acnDecBcdConst_of_not_room (hs : s.fault = false) (h1 : 1 ≤ n) (h20 : n ≤ 20) (hr : ¬ room (4 * n) s) :
    exec (.acnDecBcdConst n) s = .next (setErr .insufficientData s) :=
  (exec_acnDecBcdConst_within hs h1 h20).trans (if_pos hr)

theorem exec_acnDecBcdConst_of_room (hs : s.fault = false) (h1 : 1 ≤ n) (h20 : n ≤ 20) (hr : room (4 * n) s) :
    exec (.acnDecBcdConst n) s = decDigits 0 n s :=
  (exec_acnDecBcdConst_within hs h1 h20).trans (if_neg (not_not_intro hr))

/-! ### Decoding: the embedded length -/

theorem exec_acnDecBcdVar (hs : s.fault = false) (hr : room 8 s) (hcount : memRead s.buf s.pos 8 = d) :
    exec .acnDecBcdVar s =
      if 20 < d then fail .invalidValue (skipBits 8 s) else
      if ¬ room (4 * d) (skipBits 8 s) then fail .insufficientData (skipBits 8 s) else decDigits 8 d s := by
  subst hcount
  exact (unlessFaulted_ready hs _).trans (if_neg (not_not_intro hr))

theorem exec_acnDecBcdVar_of_not_room (hs : s.fault = false) (hr : ¬ room 8 s) :
    exec .acnDecBcdVar s = .next (setErr .insufficientData s) := (unlessFaulted_ready hs _).trans (if_pos hr)

theorem acnDecBcdVar_failsAfter_of_count (hs : Ready s) (hr : room 8 s) (hcount : memRead s.buf s.pos 8 = d)
    (hd : 20 < d) : FailsAfter (exec .acnDecBcdVar s) s 8 .invalidValue := by
  rw [exec_acnDecBcdVar hs.1 hr hcount, if_pos hd]
  exact failsAfter_setErr s 8 _

theorem acnDecBcdVar_failsAfter_of_digits (hs : Ready s) (hr : room 8 s) (hcount : memRead s.buf s.pos 8 = d)
    (hd : d ≤ 20) (hdigits : ¬ room (8 + 4 * d) s) :
    FailsAfter (exec .acnDecBcdVar s) s 8 .insufficientData := by
  rw [exec_acnDecBcdVar hs.1 hr hcount, if_neg (Nat.not_lt.mpr hd), if_pos (mt room_skipBits.mp hdigits)]
  exact failsAfter_setErr s 8 _

theorem exec_acnDecBcdVar_of_room (hs : s.fault = false) (hcount : memRead s.buf s.pos 8 = d) (hd : d ≤ 20)
    (hr : room (8 + 4 * d) s) : exec .acnDecBcdVar s = decDigits 8 d s := by
  rw [exec_acnDecBcdVar hs (by omega) hcount, if_neg (Nat.not_lt.mpr hd),
    if_neg (not_not_intro (room_skipBits.mpr hr))]

/-! ### Decoding: digits up to a sentinel -/

/-- Behind `c` good digits the loop of R246 goes on with `left − c` more, the number so far and the bits read. The room
is asked for only where a digit is read: with `c = 0` the cursor may stand past CAP. -/
theorem readDigitsNt_skip {left : Nat} (hc : c ≤ left) (hr : c = 0 ∨ room (4 * c) s)
    (h : ∀ i < c, nibbleAt s.buf s.pos i ≤ 9) :
    readDigitsNt left acc b s =
      readDigitsNt (left - c) (acc * 10 ^ c + decimalAt s.buf s.pos c) (b + 4 * c) (skipBits (4 * c) s) := by
  induction c generalizing left acc b s with
  | zero => simp [decimalAt]
  | succ c ih =>
    have hroom : room (4 * (c + 1)) s := hr.resolve_left (Nat.succ_ne_zero c)
    have hdigit := h 0 (Nat.succ_pos c)
    have hrest : ∀ i < c, nibbleAt (skipBits 4 s).buf (skipBits 4 s).pos i ≤ 9 := fun i hi => by
      simpa [nibbleAt_skip] using h (i + 1) (by omega)
    have hnumber : (acc * 10 + nibbleAt s.buf s.pos 0) * 10 ^ c + decimalAt s.buf (s.pos + 4) c =
        acc * 10 ^ (c + 1) + decimalAt s.buf s.pos (c + 1) := by rw [decimalAt_succ]; ring
    rw [readDigitsNt_eq, if_neg (not_not_intro (by omega)), if_neg (by omega), if_neg (by omega), if_neg (by omega),
      ih (by omega) (.inr (room_skipBits.mpr (by omega))) hrest, skipBits_buf, skipBits_pos, hnumber, skipBits_skipBits,
      show left - 1 - c = left - (c + 1) by omega, show b + 4 + 4 * c = b + 4 * (c + 1) by omega,
      show 4 + 4 * c = 4 * (c + 1) by omega]

theorem exec_acnDecBcdNt_of_error (hs : s.fault = false) (h : readDigitsNt 20 0 0 s = (.error code, t)) :
    exec .acnDecBcdNt s = .next (setErr code t) := by
  refine (unlessFaulted_ready hs _).trans ?_
  rw [Config.maxDig, h]
  rfl

theorem exec_acnDecBcdNt_of_ok (hs : s.fault = false) (h : readDigitsNt 20 0 0 s = (.ok (acc, b), t)) :
    exec .acnDecBcdNt s = bcdResult acc b t := by
  refine (unlessFaulted_ready hs _).trans ?_
  rw [Config.maxDig, h]

theorem exec_acnDecBcdNt_sentinel (hs : s.fault = false) (hd : d ≤ 20) (h : ∀ i < d, nibbleAt s.buf s.pos i ≤ 9)
    (hr : room (4 * d + 4) s) (h15 : nibbleAt s.buf s.pos d = 15) :
    exec .acnDecBcdNt s = bcdResult (decimalAt s.buf s.pos d) (4 * d + 4) (skipBits (4 * d + 4) s) := by
  have e := readDigitsNt_ok 20 0 0 s hd hr h h15
  rw [Nat.zero_mul, Nat.zero_add, Nat.zero_add] at e
  exact exec_acnDecBcdNt_of_ok hs e

/-- A nibble that no more digits may be read from, because it is none or because twenty were read (R246). -/
theorem acnDecBcdNt_failsAfter_of_nibble (hs : Ready s) (hd : d ≤ 20) (h : ∀ i < d, nibbleAt s.buf s.pos i ≤ 9)
    (hr : room (4 * d + 4) s) (h15 : nibbleAt s.buf s.pos d ≠ 15) (hbad : 9 < nibbleAt s.buf s.pos d ∨ d = 20) :
    FailsAfter (exec .acnDecBcdNt s) s (4 * d + 4) .invalidValue := by
  have hnibble : nibbleAt (skipBits (4 * d) s).buf (skipBits (4 * d) s).pos 0 = nibbleAt s.buf s.pos d :=
    nibbleAt_skip_nibbles s.buf s.pos d 0
  have e : readDigitsNt 20 0 0 s = (.error .invalidValue, skipBits (4 * d + 4) s) := by
    rw [readDigitsNt_skip hd (.inr (by omega)) h, readDigitsNt_eq, hnibble,
      if_neg (not_not_intro (room_skipBits.mpr hr)), if_neg h15, skipBits_skipBits]
    split_ifs with h9 hleft
    · rfl
    · rfl
    · omega
  rw [exec_acnDecBcdNt_of_error hs.1 e]
  exact failsAfter_setErr s _ _

theorem acnDecBcdNt_failsAfter_of_end (hs : Ready s) (hd : d ≤ 20) (h : ∀ i < d, nibbleAt s.buf s.pos i ≤ 9)
    (hr : d = 0 ∨ room (4 * d) s) (hend : ¬ room (4 * d + 4) s) :
    FailsAfter (exec .acnDecBcdNt s) s (4 * d) .insufficientData := by
  have e : readDigitsNt 20 0 0 s = (.error .insufficientData, skipBits (4 * d) s) := by
    rw [readDigitsNt_skip hd hr h, readDigitsNt_eq, if_pos (mt room_skipBits.mp hend)]
  rw [exec_acnDecBcdNt_of_error hs.1 e]
  exact failsAfter_setErr s _ _

end

/-- Settles O54: the encoder's clauses, and `decDigits` with no bits before the digits. -/
theorem bcdConstantSize : Obligations.BcdConstantSize := by
  intro s n v hs
  refine ⟨fun h1 h20 => ⟨fun h0 h64 => acnEncBcdConst_encodes hs h1 h20 ⟨h0, h64⟩,
    acnEncBcdConst_failsWith_of_value hs h1 h20,
    fun h0 h64 => acnEncBcdConst_failsWith_of_not_room hs h1 h20 ⟨h0, h64⟩, fun hr => ?_, fun hr h => ?_,
    fun hr j hj h h9 => ?_⟩, fun hout => ?_, acnEncBcdConst_raises_of_value hs n⟩
  · rw [exec_acnDecBcdConst_of_not_room hs.1 h1 h20 hr]
    exact failsWith_setErr s _
  · rw [exec_acnDecBcdConst_of_room hs.1 h1 h20 hr]
    simpa only [Nat.zero_add, Nat.add_zero] using decDigits_clauses (m := 0) h
  · rw [exec_acnDecBcdConst_of_room hs.1 h1 h20 hr]
    simpa only [Nat.zero_add] using decDigits_failsAfter (m := 0) hj h h9
  · rw [exec_acnEncBcdConst_outside hs.1 hout, exec_acnDecBcdConst_outside hs.1 hout]
    exact ⟨raises_contractFault s, raises_contractFault s⟩

/-- Settles O55: the encoder's clauses, the checks of the count, and `decDigits` behind the 8 bits of the count. -/
theorem bcdLengthEmbedded : Obligations.BcdLengthEmbedded := by
  intro s v d hs
  refine ⟨acnEncBcdVar_clauses hs, fun hneg => ?_, fun hbig => ?_, fun hr => ?_, fun hr hcount =>
    ⟨acnDecBcdVar_failsAfter_of_count hs hr hcount, acnDecBcdVar_failsAfter_of_digits hs hr hcount,
      fun hd hr' h => ?_, fun hd hr' j hj h h9 => ?_⟩⟩
  · rw [exec_acnEncBcdVar hs.1]
    exact bcdValue_failsWith hneg _
  · rw [exec_acnEncBcdVar hs.1]
    exact bcdValue_raises hbig _
  · rw [exec_acnDecBcdVar_of_not_room hs.1 hr]
    exact failsWith_setErr s _
  · rw [exec_acnDecBcdVar_of_room hs.1 hcount hd hr']
    exact decDigits_clauses h
  · rw [exec_acnDecBcdVar_of_room hs.1 hcount hd hr']
    exact decDigits_failsAfter hj h h9

/-- Settles O56: the encoder's clauses, and the nibble behind `d` good digits; a 21st digit is the case `d = 20`. -/
theorem bcdTerminated : Obligations.BcdTerminated := by
  intro s v d hs
  refine ⟨acnEncBcdNt_clauses hs, fun hneg => ?_, fun hbig => ?_, fun hd h => ⟨fun hr h15 hlt => ?_,
    fun hr h15 hge => ?_, fun hr h9 h15 => acnDecBcdNt_failsAfter_of_nibble hs hd h hr h15 (.inl h9),
    acnDecBcdNt_failsAfter_of_end hs hd h⟩, fun hr h => ?_⟩
  · rw [exec_acnEncBcdNt hs.1]
    exact bcdValue_failsWith hneg _
  · rw [exec_acnEncBcdNt hs.1]
    exact bcdValue_raises hbig _
  · rw [exec_acnDecBcdNt_sentinel hs.1 hd h hr h15]
    exact bcdResult_decodes hlt
  · rw [exec_acnDecBcdNt_sentinel hs.1 hd h hr h15]
    exact bcdResult_failsAfter hge
  · have hdigit := h 20 (by decide)
    exact acnDecBcdNt_failsAfter_of_nibble hs (Nat.le_refl 20) (fun i hi => h i (by omega)) hr (by omega) (.inr rfl)

end Sys2Proof.Machine
end

section
/-!
The ACN reals (46_acn_real.md R262 to R270). A real is moved as its bit pattern: on a pattern the encoders are the
unsigned ones, `encPos` and `encLe`, on any other number they raise ContractFault, and the decoders are those of the
unsigned integers. So the clauses are those of `posField_clauses` and `posLe_clauses`, save that a value out of range
raises ContractFault where they answer INVALID_VALUE.
-/

namespace Sys2Proof.Machine

section
variable {s : State} {n k : Nat} {v : Int}

/-! ### The range check -/

theorem encRealBe_of_fitsU (hv : fitsU v (8 * k)) : encRealBe k v s = encPos (8 * k) v s := by
  rcases encRealBe_cases k v s with ⟨hnot, -⟩ | ⟨-, e⟩
  · exact absurd hv hnot
  · exact e

theorem encRealBe_raises (hv : ¬ fitsU v (8 * k)) : RaisesContractFault (encRealBe k v s) s := by
  rcases encRealBe_cases k v s with ⟨-, e⟩ | ⟨h, -⟩
  · rw [e]
    exact raises_contractFault s
  · exact absurd h hv

theorem encRealLe_of_fitsU (hv : fitsU v (8 * k)) : encRealLe k v s = encPosLe k v s := by
  rcases encRealLe_cases k v s with ⟨hnot, -⟩ | ⟨-, e⟩
  · exact absurd hv hnot
  · rw [e, encPosLe_of_fitsU hv]

theorem encRealLe_raises (hv : ¬ fitsU v (8 * k)) : RaisesContractFault (encRealLe k v s) s := by
  rcases encRealLe_cases k v s with ⟨-, e⟩ | ⟨h, -⟩
  · rw [e]
    exact raises_contractFault s
  · exact absurd h hv

/-! ### The clauses of a pair, at every width -/

/-- `n` is the width `k` bytes have; the commands give it as a numeral. -/
theorem realBe_clauses (hs : Ready s) (hn : n = 8 * k) (v : Int) :
    (fitsU v n → room n s → EncodesField (encRealBe k v s) s n v.toNat) ∧
    (fitsU v n → ¬ room n s → FailsWith (encRealBe k v s) s .insufficientData) ∧
    (¬ fitsU v n → RaisesContractFault (encRealBe k v s) s) ∧
    (room n s → DecodesTo (decPos n s) s n (memRead s.buf s.pos n)) ∧
    (¬ room n s → FailsWith (decPos n s) s .insufficientData) := by
  subst hn
  obtain ⟨encodes, -, noRoom, decodes, short⟩ := posField_clauses hs (8 * k) v
  refine ⟨fun hv => ?_, fun hv => ?_, encRealBe_raises, decodes, short⟩
  · rw [encRealBe_of_fitsU hv]
    exact encodes hv
  · rw [encRealBe_of_fitsU hv]
    exact noRoom hv

/-- As `realBe_clauses`, with the bytes of the pattern, the least significant first. -/
theorem realLe_clauses (hs : Ready s) (hn : n = 8 * k) (v : Int) :
    (fitsU v n → room n s → EncodesRun (encRealLe k v s) s 8 k (fun i => v.toNat / 256 ^ i % 256)) ∧
    (fitsU v n → ¬ room n s → FailsWith (encRealLe k v s) s .insufficientData) ∧
    (¬ fitsU v n → RaisesContractFault (encRealLe k v s) s) ∧
    (room n s → DecodesTo (decLe k Int.ofNat s) s n (littleEndianAt s.buf s.pos k)) ∧
    (¬ room n s → FailsWith (decLe k Int.ofNat s) s .insufficientData) := by
  subst hn
  obtain ⟨encodes, -, noRoom, decodes, short⟩ := posLe_clauses hs rfl v
  refine ⟨fun hv => ?_, fun hv => ?_, encRealLe_raises, decodes, short⟩
  · rw [encRealLe_of_fitsU hv]
    exact encodes hv
  · rw [encRealLe_of_fitsU hv]
    exact noRoom hv

/-! ### What a command is on a block with FAULT = 0 -/

theorem exec_acnEncReal32Be (hs : s.fault = false) (v : Int) : exec (.acnEncReal32Be v) s = encRealBe 4 v s :=
  unlessFaulted_ready hs _

theorem exec_acnDecReal32Be (hs : s.fault = false) : exec .acnDecReal32Be s = decPos 32 s := unlessFaulted_ready hs _

theorem exec_acnEncReal32Le (hs : s.fault = false) (v : Int) : exec (.acnEncReal32Le v) s = encRealLe 4 v s :=
  unlessFaulted_ready hs _

theorem exec_acnDecReal32Le (hs : s.fault = false) : exec .acnDecReal32Le s = decLe 4 Int.ofNat s :=
  unlessFaulted_ready hs _

theorem exec_acnEncReal64Be (hs : s.fault = false) (v : Int) : exec (.acnEncReal64Be v) s = encRealBe 8 v s :=
  unlessFaulted_ready hs _

theorem exec_acnDecReal64Be (hs : s.fault = false) : exec .acnDecReal64Be s = decPos 64 s := unlessFaulted_ready hs _

theorem exec_acnEncReal64Le (hs : s.fault = false) (v : Int) : exec (.acnEncReal64Le v) s = encRealLe 8 v s :=
  unlessFaulted_ready hs _

theorem exec_acnDecReal64Le (hs : s.fault = false) : exec .acnDecReal64Le s = decLe 8 Int.ofNat s :=
  unlessFaulted_ready hs _

end

/-- Settles O57: the commands are `encRealBe` with 4 and 8 bytes, and `decPos` at 32 and 64 bits. -/
theorem realsBigEndian : Obligations.RealsBigEndian := by
  intro s v hs
  rw [exec_acnEncReal32Be hs.1, exec_acnDecReal32Be hs.1, exec_acnEncReal64Be hs.1, exec_acnDecReal64Be hs.1]
  have h32 := realBe_clauses (n := 32) (k := 4) hs rfl v
  have h64 := realBe_clauses (n := 64) (k := 8) hs rfl v
  simpa only [and_assoc] using And.intro h32 h64

/-- Settles O58: the commands are `encRealLe` and `decLe` with 4 and 8 bytes. -/
theorem realsLittleEndian : Obligations.RealsLittleEndian := by
  intro s v hs
  rw [exec_acnEncReal32Le hs.1, exec_acnDecReal32Le hs.1, exec_acnEncReal64Le hs.1, exec_acnDecReal64Le hs.1]
  have h32 := realLe_clauses (n := 32) (k := 4) hs rfl v
  have h64 := realLe_clauses (n := 64) (k := 8) hs rfl v
  simpa only [and_assoc] using And.intro h32 h64

end Sys2Proof.Machine
end

section
/-!
The reserved stubs (47_acn_string_stubs.md R280): one command under sixteen numbers, whose only effect is its error.
-/

namespace Sys2Proof.Machine

section
variable {s : State}

theorem exec_acnStub (hs : s.fault = false) (which : Nat) :
    exec (.acnStub which) s = .next (setErr .unsupportedOperation s) := unlessFaulted_ready hs _

theorem exec_acnStub_faulted (hs : s.fault = true) (which : Nat) : exec (.acnStub which) s = contractFault s :=
  unlessFaulted_faulted hs _

end

/-- Settles O59, by cases on FAULT: `exec_acnStub` without it and `exec_acnStub_faulted` with it. -/
theorem stubsAnswerUnsupported : Obligations.StubsAnswerUnsupported := by
  intro s which
  refine ⟨fun ready => ?_, fun faulted => ?_⟩
  · rw [exec_acnStub ready]
    exact failsWith_setErr s .unsupportedOperation
  · rw [exec_acnStub_faulted faulted]
    exact raises_contractFault s

end Sys2Proof.Machine
end

section
/-!
ContractFault and the error codes (60_exceptions.md R292 to R299). Both statements read `exec_ends`: R297's list is the
guard of each of its endings, and R292's and R299's codes are the three ways in which a presented bundle can report
(`ReportsListed`): success, a failure with one of four codes, or UNSUPPORTED_OPERATION with nothing changed.
-/

namespace Sys2Proof.Machine

/-! ### ContractFault -/

section
variable {i : Instr} {s : State} {r : StepResult}

theorem EndsIn.raises_of_cause (h : EndsIn i s r) (cause : s.fault = true ∨ ContractCause i) :
    RaisesContractFault r s := by
  have guarded (ready : s.fault = false) (noCause : ¬ ContractCause i) : RaisesContractFault r s := by
    simp [ready, noCause] at cause
  cases h with
  | fault _ => exact raises_contractFault s
  | write u n hf hc _ => exact guarded hf hc
  | read v n d hf hc => exact guarded hf hc
  | place p hf hc => exact guarded hf hc
  | fails k n hf hc => exact guarded hf hc

theorem EndsIn.goesOn_of_no_cause (h : EndsIn i s r) (ready : s.fault = false) (noCause : ¬ ContractCause i) :
    ∃ t, r = .next t ∧ t.fault = false := by
  cases h with
  | fault cause => simp [ready, noCause] at cause
  | write u n _ _ wrote => exact ⟨_, rfl, wrote.fault.trans ready⟩
  | read => exact ⟨_, rfl, ready⟩
  | place => exact ⟨_, rfl, ready⟩
  | fails => exact ⟨_, rfl, ready⟩

end

/-- Settles O13: R297's list is complete because every ending of `exec_ends` but the ContractFault excludes it. -/
theorem contractFaultExactlyOnListedCauses : Obligations.ContractFaultExactlyOnListedCauses := fun i s =>
  ⟨(exec_ends i s).raises_of_cause, (exec_ends i s).goesOn_of_no_cause⟩

/-! ### Error codes -/

/-- The codes of the failures that an implemented command can have, R293 to R296: neither R298's BUFFER_OVERFLOW nor
R299's UNSUPPORTED_OPERATION. -/
def OperationError (k : ErrCode) : Prop :=
  k = .bitstreamError ∨ k = .insufficientData ∨ k = .invalidValue ∨ k = .constraintViolation

/-- How `t` may report on a command run on `s`, where `unsupported` says that the command is one that R299 lists. -/
inductive ReportsListed (unsupported : Prop) (s t : State) : Prop
  | ok (supported : ¬ unsupported) (success : t.success = true) (err : t.err = .success)
  | operationError (supported : ¬ unsupported) (k : ErrCode) (listed : OperationError k) (report : ReportsErr t k)
  | unsupported (h : unsupported) (report : ReportsErr t .unsupportedOperation) (same : SameInstance s t)

section
variable {i : Instr} {s t : State}

theorem isStub_iff : isStub i = true ↔ ∃ w, i = .acnStub w := by
  cases i <;> simp [isStub]

theorem not_isStub_of_mayWrite (h : mayWrite i = true) : ¬ isStub i = true := by
  intro stub
  obtain ⟨w, rfl⟩ := isStub_iff.mp stub
  simp [mayWrite] at h

theorem not_isStub_of_placesCursor (h : placesCursor i = true) : ¬ isStub i = true := by
  intro stub
  obtain ⟨w, rfl⟩ := isStub_iff.mp stub
  simp [placesCursor] at h

theorem sameInstance_setErr (s : State) (k : ErrCode) : SameInstance s (setErr k s) := ⟨rfl, rfl, rfl, rfl, rfl, rfl⟩

theorem FailsBy.reportsListed {n : Nat} {k : ErrCode} (h : FailsBy i n k) (s : State) :
    ReportsListed (isStub i = true) s (setErr k (skipBits n s)) := by
  obtain ⟨rfl, -, notStub, -⟩ | ⟨rfl, stub, rfl⟩ | ⟨codec, -, notStub⟩ := h
  · exact .operationError (by simp [notStub]) _ (.inl rfl) ⟨rfl, rfl⟩
  · exact .unsupported stub ⟨rfl, rfl⟩ (sameInstance_setErr s _)
  · exact .operationError (by simp [notStub]) _ (.inr codec) ⟨rfl, rfl⟩

theorem EndsIn.reportsListed (h : EndsIn i s (.next t)) : ReportsListed (isStub i = true) s t := by
  cases h with
  | write u n _ _ wrote =>
    obtain ⟨writes, -⟩ := wrote.writer
    exact .ok (not_isStub_of_mayWrite writes) rfl rfl
  | read v n d _ _ reader =>
    obtain ⟨-, -, notStub⟩ := reader
    exact .ok (by simp [notStub]) rfl rfl
  | place p _ _ places => exact .ok (not_isStub_of_placesCursor places) rfl rfl
  | fails k n _ _ _ failsBy => exact failsBy.reportsListed s

theorem execIllegal_next (h : execIllegal s = .next t) : t = setErr .unsupportedOperation s :=
  fail_next (unlessFaulted_next h).2

/-- The bundles that R299 lists: the illegal headers and the stubs. -/
def UnsupportedBundle (b : Ports) : Prop := decode b = .error .illegalHeader ∨ ∃ w, decode b = .ok (.acnStub w)

theorem unsupportedBundle_iff_isStub {b : Ports} (h : decode b = .ok i) : UnsupportedBundle b ↔ isStub i = true := by
  simp [UnsupportedBundle, h, isStub_iff]

theorem present_reportsListed {b : Ports} (h : present b s = .next t) : ReportsListed (UnsupportedBundle b) s t := by
  unfold present at h
  split at h
  next i hd =>
    rw [propext (unsupportedBundle_iff_isStub hd)]
    exact (h ▸ exec_ends i s).reportsListed
  next hd =>
    obtain rfl := execIllegal_next h
    exact .unsupported (.inl hd) ⟨rfl, rfl⟩ (sameInstance_setErr s _)
  next => cases h

variable {unsupported : Prop}

theorem OperationError.ne {k : ErrCode} (h : OperationError k) :
    k ≠ .success ∧ k ≠ .bufferOverflow ∧ k ≠ .unsupportedOperation := by
  obtain rfl | rfl | rfl | rfl := h <;> decide

theorem ReportsListed.codes (h : ReportsListed unsupported s t) :
    (t.success = true ↔ t.err = .success) ∧ t.err ≠ .bufferOverflow ∧
      (t.err = .unsupportedOperation ↔ unsupported) ∧ (t.err = .unsupportedOperation → SameInstance s t) := by
  cases h with
  | ok supported success err => simp [success, err, supported]
  | operationError supported k listed report =>
    obtain ⟨success, rfl⟩ := report
    simp [success, listed.ne, supported]
  | unsupported h report same =>
    obtain ⟨success, err⟩ := report
    simp [success, err, h, same]

end

/-- Settles O17: a step on a presented bundle is `present`, and `present_reportsListed` says how it can report. -/
theorem errorCodesAreTheListedOnes : Obligations.ErrorCodesAreTheListedOnes := by
  intro s t b rest hp h
  rw [step_command hp] at h
  exact (present_reportsListed h).codes

end Sys2Proof.Machine
end

section
/-!
The invariant of 10_state.md R26. INIT makes a block that has it (`IsFresh`), and of the endings of a command
(`exec_ends`) only a write touches BUF: it sets no bit from the new USED on. The result registers and the pending
actions are no part of the invariant (`BlockInv.congr`).
-/

namespace Sys2Proof.Machine

/-! ### INIT -/

theorem wf_loadBytes (a : Nat) (bs : List Byte) {m : Memory} (hm : m.wf = true) : (loadBytes a bs m).wf = true := by
  induction bs generalizing a m with
  | nil => exact hm
  | cons b bs ih => exact ih (a + 1) (Memory.wf_writeByte hm a b)

theorem readByte_loadBytes (a : Nat) (bs : List Byte) {m : Memory} (hm : m.wf = true) (x : Nat) :
    readByte (loadBytes a bs m) x = if a ≤ x ∧ x < a + bs.length then bs.getD (x - a) 0 else readByte m x := by
  induction bs generalizing a m with
  | nil => rw [loadBytes, List.length_nil, if_neg (by omega)]
  | cons b bs ih =>
    rw [loadBytes, ih (a + 1) (Memory.wf_writeByte hm a b), readByte_writeByte hm, List.length_cons]
    by_cases hfirst : x = a
    · subst hfirst
      rw [if_neg (by omega), if_pos rfl, if_pos (by omega), Nat.sub_self, List.getD_cons_zero]
    · rw [if_neg hfirst]
      by_cases hin : a + 1 ≤ x ∧ x < a + 1 + bs.length
      · rw [if_pos hin, if_pos (by omega), show x - a = x - (a + 1) + 1 by omega, List.getD_cons_succ]
      · rw [if_neg hin, if_neg (by omega)]

theorem readByte_loadBytes_nil (bs : List Byte) (x : Nat) : readByte (loadBytes 0 bs []) x = bs.getD x 0 := by
  rw [readByte_loadBytes 0 bs rfl]
  split_ifs with h
  · rfl
  · rw [List.getD_eq_default _ _ (by omega)]
    rfl

theorem wf_initBuffer (maxBits : Nat) (bytes : List Byte) : (initBuffer maxBits bytes).wf = true :=
  Memory.wf_memWrite (wf_loadBytes 0 bytes rfl) _ _ _

/-- The buffer after INIT: the data bits below CAP, and 0 from CAP on (R320). -/
theorem bitAt_initBuffer {maxBits : Nat} {bytes : List Byte} (h : bytes.length ≤ bytesFor maxBits) (q : Nat) :
    bitAt (initBuffer maxBits bytes) q =
      (decide (q < maxBits) && (bytes.getD (q / 8) 0).getLsbD (7 - q % 8)) := by
  have hdata : bitAt (loadBytes 0 bytes []) q = (bytes.getD (q / 8) 0).getLsbD (7 - q % 8) := by
    rw [bitAt, readByte_loadBytes_nil]
  have hwhole : maxBits ≤ 8 * bytesFor maxBits := by unfold bytesFor; omega
  rw [initBuffer, bitAt_memWrite (wf_loadBytes 0 bytes rfl), hdata]
  by_cases hlow : q < maxBits
  · rw [if_neg (by omega)]
    simp [hlow]
  · by_cases hgap : q < 8 * bytesFor maxBits
    · rw [if_pos (by omega), Nat.zero_testBit]
      simp [hlow]
    · rw [if_neg (by omega), List.getD_eq_default _ _ (by omega)]
      simp

theorem initRefused_iff {maxBits : Nat} {bytes : List Byte} :
    initRefused maxBits bytes = true ↔
      maxBits < 1 ∨ Config.capMax < maxBits ∨ bytesFor maxBits < bytes.length := by
  simp [initRefused, or_assoc]

/-- `t` is the block that an accepted INIT makes (R320, R321). -/
structure IsFresh (maxBits : Nat) (bytes : List Byte) (pending : List HostAction) (t : State) : Prop where
  cap : t.cap = maxBits
  buf : t.buf = initBuffer maxBits bytes
  pos : t.pos = 0
  used : t.used = min (8 * bytes.length) maxBits
  fault : t.fault = false
  pending : t.pending = pending

theorem initInstance_refused {maxBits : Nat} {bytes : List Byte} (h : initRefused maxBits bytes = true) (ix : Nat)
    (pending : List HostAction) : initInstance ix maxBits bytes pending = none := if_pos h

theorem initInstance_accepted {maxBits : Nat} {bytes : List Byte} (h : ¬ initRefused maxBits bytes = true) (ix : Nat)
    (pending : List HostAction) :
    ∃ t, initInstance ix maxBits bytes pending = some t ∧ IsFresh maxBits bytes pending t :=
  ⟨_, if_neg h, rfl, rfl, rfl, rfl, rfl, rfl⟩

/-- Both ways in which INIT can go (R320, R322). -/
theorem reinit_cases (maxBits : Nat) (bytes : List Byte) (s : State) :
    (initRefused maxBits bytes = true ∧ reinit maxBits bytes s = s) ∨
      (¬ initRefused maxBits bytes = true ∧ IsFresh maxBits bytes s.pending (reinit maxBits bytes s)) := by
  by_cases h : initRefused maxBits bytes = true
  · exact .inl ⟨h, by rw [reinit, initInstance_refused h]; rfl⟩
  · obtain ⟨t, ht, fresh⟩ := initInstance_accepted h s.freeIx s.pending
    exact .inr ⟨h, by rw [reinit, ht]; exact fresh⟩

/-- Settles O5: the two cases of `reinit_cases`, and the bits of the fresh buffer by `bitAt_initBuffer`. -/
theorem initReplacesTheInstance : Obligations.InitReplacesTheInstance := by
  intro s maxBits bytes rest hp
  rw [step_init hp]
  rcases reinit_cases maxBits bytes { s with pending := rest } with ⟨refused, e⟩ | ⟨accepted, fresh⟩
  · rw [initRefused_iff] at refused
    unfold Config.capMax bytesFor at refused
    exact ⟨fun _ _ _ => by omega, fun _ => by rw [e]⟩
  · rw [initRefused_iff] at accepted
    unfold Config.capMax at accepted
    refine ⟨fun _ _ _ => ⟨_, rfl, fresh.cap, fresh.pos, fresh.used, fresh.fault, fresh.pending, fun a ha j hj => ?_,
      fun q hq => ?_⟩, fun _ => by unfold bytesFor at accepted; omega⟩
    · rw [fresh.buf, bitAt_initBuffer (by omega), show (8 * a + j) / 8 = a by omega,
        show (8 * a + j) % 8 = j by omega, List.getD_eq_getElem _ _ ha]
    · rw [fresh.buf, bitAt_initBuffer (by omega), List.getD_eq_default _ _ (by omega)]
      simp

/-! ### The invariant of a block -/

/-- The invariant is about CAP, BUF, POS and USED alone. -/
theorem BlockInv.congr {s t : State} (h : BlockInv s) (cap : t.cap = s.cap) (buf : t.buf = s.buf)
    (used : t.used = s.used) (pos : t.pos ≤ s.cap) : BlockInv t where
  cap_pos := cap ▸ h.cap_pos
  cap_le := cap ▸ h.cap_le
  pos_le := cap ▸ pos
  used_le := cap ▸ used ▸ h.used_le
  buf_wf := buf ▸ h.buf_wf
  zero_beyond := buf ▸ used ▸ h.zero_beyond

theorem BlockInv.withPending {s : State} (h : BlockInv s) (rest : List HostAction) :
    BlockInv { s with pending := rest } := h.congr rfl rfl rfl h.pos_le

theorem BlockInv.setFault {s : State} (h : BlockInv s) : BlockInv (setFault s) := h.congr rfl rfl rfl h.pos_le

theorem blockInv_of_isFresh {maxBits : Nat} {bytes : List Byte} {pending : List HostAction} {t : State}
    (accepted : ¬ initRefused maxBits bytes = true) (h : IsFresh maxBits bytes pending t) : BlockInv t := by
  rw [initRefused_iff] at accepted
  refine ⟨?_, ?_, ?_, ?_, h.buf ▸ wf_initBuffer maxBits bytes, fun q hq => ?_⟩
  · rw [h.cap]; omega
  · rw [h.cap]; omega
  · rw [h.pos]; omega
  · rw [h.used, h.cap]; omega
  · rw [h.used] at hq
    rw [h.buf, bitAt_initBuffer (by omega)]
    by_cases hlow : q < maxBits
    · rw [List.getD_eq_default _ _ (by omega)]
      simp
    · simp [hlow]

theorem BlockInv.reinit {s : State} (h : BlockInv s) (maxBits : Nat) (bytes : List Byte) :
    BlockInv (reinit maxBits bytes s) := by
  rcases reinit_cases maxBits bytes s with ⟨-, e⟩ | ⟨accepted, fresh⟩
  · rw [e]
    exact h
  · exact blockInv_of_isFresh accepted fresh

/-- A write within CAP sets no bit from the new USED on: behind the written bits all is as before, and it was 0. -/
theorem BlockInv.of_wrote {i : Instr} {s u : State} {n : Nat} (h : BlockInv s) (wrote : Wrote i s u n) :
    BlockInv u := by
  obtain ⟨writesAt, wf⟩ := wrote.writesAt h.buf_wf
  have fits : s.pos + n ≤ s.cap := wrote.fits
  have used_le := h.used_le
  refine ⟨wrote.cap ▸ h.cap_pos, wrote.cap ▸ h.cap_le, ?_, ?_, wf, fun q hq => ?_⟩
  · rw [wrote.pos, wrote.cap]; exact fits
  · rw [wrote.used, wrote.cap]; split_ifs <;> omega
  · have behind : s.used ≤ q ∧ (q < s.pos ∨ s.pos + n ≤ q) := by
      rw [wrote.used] at hq
      split_ifs at hq <;> omega
    rw [writesAt.bits_outside q behind.2]
    exact h.zero_beyond q behind.1

theorem EndsIn.keepsInv {i : Instr} {s t : State} (h : EndsIn i s (.next t)) (inv : BlockInv s) : BlockInv t := by
  have hpos := inv.pos_le
  cases h with
  | write u n _ _ wrote => exact (inv.of_wrote wrote).congr rfl rfl rfl (inv.of_wrote wrote).pos_le
  | read v n d _ _ _ hr => exact inv.congr rfl rfl rfl (by simp only [setOk_pos, skipBits_pos]; omega)
  | place p _ _ _ hp => exact inv.congr rfl rfl rfl hp
  | fails k n _ _ hr => exact inv.congr rfl rfl rfl (by simp only [setErr_pos, skipBits_pos]; omega)

theorem present_keepsInv {b : Ports} {s t : State} (inv : BlockInv s) (h : present b s = .next t) : BlockInv t := by
  unfold present at h
  split at h
  next i _ => exact (h ▸ exec_ends i s).keepsInv inv
  next =>
    obtain rfl := execIllegal_next h
    exact inv.congr rfl rfl rfl inv.pos_le
  next => cases h

/-- Settles O3, by the oldest pending action: none, a bundle (`present_keepsInv`) or INIT (`BlockInv.reinit`). -/
theorem stepKeepsInvariant : Obligations.StepKeepsInvariant := by
  intro s t inv h
  match hp : s.pending with
  | [] =>
    cases h.symm.trans (step_idle hp)
    exact inv
  | .command b :: rest => exact present_keepsInv (inv.withPending rest) ((step_command hp).symm.trans h)
  | .init maxBits bytes :: rest =>
    cases h.symm.trans (step_init hp)
    exact (inv.withPending rest).reinit maxBits bytes

/-- Settles O4: of the cases of `step_cases` only a command can fault, and it leaves `setFault`. -/
theorem faultLeavesInvariant : Obligations.FaultLeavesInvariant := by
  intro s f inv h
  cases step_cases s with
  | idle h' => cases h.symm.trans h'
  | unpresentable h' => cases h.symm.trans h'
  | command rest ends =>
    cases ends with
    | raises h' =>
      cases h.symm.trans h'
      exact ⟨_, rfl, (inv.withPending rest).setFault, setFault_fault _⟩
    | goesOn t _ h' => cases h.symm.trans h'
  | init _ _ _ _ h' => cases h.symm.trans h'

/-! ### Reset -/

/-- Settles O1: each value is reset's by definition. -/
theorem resetHoldsInitialValues : Obligations.ResetHoldsInitialValues := ⟨rfl, fun _ => rfl, rfl, rfl, rfl, rfl⟩

/-- Settles O2: reset's buffer lists no byte, so every bit of it is 0. -/
theorem resetSatisfiesInvariant : Obligations.ResetSatisfiesInvariant where
  cap_pos := by decide
  cap_le := by decide
  pos_le := by decide
  used_le := by decide
  buf_wf := rfl
  zero_beyond _ _ := BitVec.getLsbD_zero

end Sys2Proof.Machine
end

section
/-!
What holds of every command (60_exceptions.md section 1, 10_state.md R28). Each statement is a case split over the
endings of `exec_ends`: a command that goes on wrote, read, placed the cursor or failed.
-/

namespace Sys2Proof.Machine

section
variable {i : Instr} {s t : State}

theorem exec_next_ends (h : exec i s = .next t) : EndsIn i s (.next t) := h ▸ exec_ends i s

/-! ### The classes of commands -/

theorem placesCursor_of_mayWrite (h : mayWrite i = true) : placesCursor i = false := by
  cases i with
  | bbSetPos | bbResetPos => cases h
  | _ => rfl

theorem mayFailLate_of_mayWrite (h : mayWrite i = true) : mayFailLate i = false := by
  cases i with
  | decInt | decEnum | acnDecPosVar | acnDecTcVar | acnDecBcdConst | acnDecBcdVar | acnDecBcdNt => cases h
  | _ => rfl

theorem isBitBuffer_of_isStub (h : isStub i = true) : isBitBuffer i = false := by
  obtain ⟨w, rfl⟩ := isStub_iff.mp h
  rfl

/-! ### Failures -/

theorem FailsBy.bitstreamError_iff {n : Nat} {k : ErrCode} (h : FailsBy i n k) :
    k = .bitstreamError ↔ isBitBuffer i = true := by
  obtain ⟨rfl, buffer, -⟩ | ⟨rfl, stub, -⟩ | ⟨codec, notBuffer, -⟩ := h
  · exact iff_of_true rfl buffer
  · exact iff_of_false nofun (by simp [isBitBuffer_of_isStub stub])
  · refine iff_of_false ?_ (by simp [notBuffer])
    obtain rfl | rfl | rfl := codec <;> decide

/-- The cursor of a failed command has moved only if the codec's own checks failed behind the bits read. -/
theorem FailsBy.not_late {n : Nat} {k : ErrCode} (h : FailsBy i n k)
    (hk : k = .bitstreamError ∨ k = .unsupportedOperation) : n = 0 := by
  obtain ⟨-, -, -, hn⟩ | ⟨-, -, hn⟩ | ⟨codec, -⟩ := h
  · exact hn
  · exact hn
  · obtain rfl | rfl | rfl := codec <;> simp at hk

theorem EndsIn.of_failure (h : EndsIn i s (.next t)) (failed : t.success = false) :
    ∃ k n, t = setErr k (skipBits n s) ∧ FailsBy i n k ∧ (n = 0 ∨ mayFailLate i = true) := by
  cases h with
  | write | read | place => simp at failed
  | fails k n _ _ hr hk => exact ⟨k, n, rfl, hk, hr.imp_right And.left⟩

/-! ### Writes -/

theorem Wrote.used_eq {u : State} {n : Nat} (wrote : Wrote i s u n) :
    u.used = if s.pos < u.pos then max s.used u.pos else s.used := by
  rw [wrote.used, wrote.pos]
  split_ifs <;> omega

/-! ### Registers -/

theorem valFits_freeVal (ix : Nat) : ValFits (Config.freeVal ix).toInt := by
  have hlo := BitVec.le_toInt (Config.freeVal ix)
  have hhi := BitVec.toInt_lt (x := Config.freeVal ix)
  exact ⟨by simpa using hlo, by simpa using hhi⟩

theorem EndsIn.valFits (h : EndsIn i s (.next t)) (wf : i.wf = true) (inv : BlockInv s) : ValFits t.val := by
  cases h with
  | write | place => exact valFits_zero
  | read v n d _ _ _ _ _ hv => exact hv wf inv
  | fails => exact valFits_freeVal _

theorem EndsIn.bits_le (h : EndsIn i s (.next t)) (succeeded : t.success = true) : t.bits ≤ t.cap := by
  cases h with
  | write u n _ _ wrote =>
    have fits : s.pos + n ≤ s.cap := wrote.fits
    rw [setOk_bits, setOk_cap, wrote.cap]
    omega
  | read v n d _ _ _ hr =>
    simp only [setOk_bits, setOk_cap, skipBits_cap]
    omega
  | place => exact Nat.zero_le _
  | fails => simp at succeeded

theorem EndsIn.bits_lt (h : EndsIn i s (.next t)) (inv : BlockInv s) : t.bits < 2 ^ 33 := by
  by_cases succeeded : t.success = true
  · have hbits := h.bits_le succeeded
    have hcap := (h.keepsInv inv).cap_le
    unfold Config.capMax at hcap
    omega
  · obtain ⟨k, n, rfl, -⟩ := h.of_failure (Bool.eq_false_iff.mpr succeeded)
    exact (Config.freeBits _).isLt

end

/-! ### Claims about failures -/

/-- Settles O15: a failure leaves `setErr` of `skipBits`, and without a late failure no bit is skipped. -/
theorem failureLeavesBufferUnchanged : Obligations.FailureLeavesBufferUnchanged := by
  intro i s t h failed
  obtain ⟨k, n, rfl, failsBy, late⟩ := (exec_next_ends h).of_failure failed
  refine ⟨rfl, rfl, rfl, rfl, rfl, Nat.le_add_right _ _, fun early => ?_⟩
  have hn : n = 0 := by
    rcases early with notLate | code
    · exact late.resolve_right (by simp [notLate])
    · exact failsBy.not_late code
  rw [hn]
  rfl

/-- Settles O16, by `FailsBy.bitstreamError_iff`. -/
theorem bitStreamErrorOnlyFromBitBuffer : Obligations.BitStreamErrorOnlyFromBitBuffer := by
  intro i s t h failed
  obtain ⟨k, n, rfl, failsBy, -⟩ := (exec_next_ends h).of_failure failed
  exact failsBy.bitstreamError_iff

/-! ### Claims about successes -/

/-- Settles O18: a write and a read report the bits they moved over, a placement reports 0. -/
theorem bitsCountsTheAdvance : Obligations.BitsCountsTheAdvance := by
  intro i s t h succeeded
  cases exec_next_ends h with
  | write u n _ _ wrote => exact ⟨fun _ => wrote.pos, fun places => by simp [wrote.writer.2] at places⟩
  | read v n d _ _ reader => exact ⟨fun _ => rfl, fun places => by simp [reader.2.1] at places⟩
  | place p _ _ places => exact ⟨fun keeps => by simp [places] at keeps, fun _ => rfl⟩
  | fails => simp at succeeded

/-- Settles O60: only a read returns bytes, and only where `returnsBytes` says so. -/
theorem doutIsEmptyUnlessBytesReturned : Obligations.DoutIsEmptyUnlessBytesReturned := by
  intro i s t h succeeded noBytes
  cases exec_next_ends h with
  | write | place => rfl
  | read v n d _ _ _ _ hd => exact hd.resolve_right (by simp [noBytes])
  | fails => simp at succeeded

/-! ### Claims about frames -/

/-- Settles O19: each ending keeps CAP, FAULT and the pending actions, and only a write touches USED. -/
theorem commandsOnlyAdvance : Obligations.CommandsOnlyAdvance := by
  intro i s t h
  cases exec_next_ends h with
  | write u n _ _ wrote =>
    refine ⟨wrote.cap, wrote.fault, wrote.pending, ?_, fun _ => ?_⟩
    · rw [setOk_used, wrote.used]
      split_ifs <;> omega
    · rw [setOk_pos, wrote.pos]
      omega
  | read | fails => exact ⟨rfl, rfl, rfl, Nat.le_refl _, fun _ => Nat.le_add_right _ _⟩
  | place p _ _ places => exact ⟨rfl, rfl, rfl, Nat.le_refl _, fun keeps => by simp [places] at keeps⟩

/-- Settles O20: a write is `Wrote`, a writer's failure moves nothing, and the other endings leave BUF and USED. -/
theorem onlyPassedBitsChange : Obligations.OnlyPassedBitsChange := by
  intro i s t wf h
  cases exec_next_ends h with
  | write u n _ _ wrote =>
    have writesAt := (wrote.writesAt wf).1
    refine ⟨fun _ => ⟨fun q hq => writesAt.bits_outside q ?_, fun a ha => writesAt.bytes_outside a ?_, wrote.used_eq⟩,
      fun reads => by simp [wrote.writer.1] at reads⟩
    · rwa [setOk_pos, wrote.pos] at hq
    · rwa [setOk_pos, wrote.pos] at ha
  | read v n d _ _ reader => exact ⟨fun writes => by simp [reader.1] at writes, fun _ => ⟨rfl, rfl⟩⟩
  | place p _ _ places =>
    exact ⟨fun writes => by simp [placesCursor_of_mayWrite writes] at places, fun _ => ⟨rfl, rfl⟩⟩
  | fails k n _ _ hr =>
    refine ⟨fun writes => ?_, fun _ => ⟨rfl, rfl⟩⟩
    obtain rfl : n = 0 := hr.resolve_right (by simp [mayFailLate_of_mayWrite writes])
    exact ⟨fun _ _ => rfl, fun _ _ => rfl, (if_neg (Nat.lt_irrefl _)).symm⟩

/-! ### Claims about registers -/

/-- Settles O21, by `EndsIn.valFits`, `EndsIn.bits_lt` and `EndsIn.bits_le`. -/
theorem resultsFitTheirRegisters : Obligations.ResultsFitTheirRegisters := by
  intro i s t wf inv h
  have ends := exec_next_ends h
  obtain ⟨hlo, hhi⟩ := ends.valFits wf inv
  exact ⟨hlo, hhi, ends.bits_lt inv, ends.bits_le⟩

/-- Settles O24: each read is a field, and RESULT is computed from the record that is reported. -/
theorem registerMapReads : Obligations.RegisterMapReads := by
  intro s
  have result (c : ErrCode) (h : ReportsErr s c) : readRegister 4 s = some (2 * errNumeral c : Nat) := by
    obtain ⟨hsuccess, rfl⟩ := h
    simp [readRegister, hsuccess]
  refine ⟨rfl, rfl, rfl, ?_, fun v b d h => ?_, result _, result _, result _, result _, result _⟩
  · cases hf : s.fault <;> simp [readRegister, hf]
  · obtain ⟨hsuccess, herr, rfl, rfl, -⟩ := h
    exact ⟨by simp [readRegister, hsuccess, herr, errNumeral], rfl, rfl⟩

end Sys2Proof.Machine
end

section
/-!
The decoder and the encoder (30_encoding.md R80 to R86). Every operand the decoder takes from a port lies in the port's
range. The encoder writes a header whose fields read back, so decoding a bundle with that header is the opcode table's
row of its opcode (`decode_of_header`), and each format gives its operands back.
-/

namespace Sys2Proof.Machine

/-! ### Ranges of the decoded operands -/

theorem countWf_nField (h : HdrWord) : countWf (nField h) = true := decide_eq_true (Nat.mod_lt _ (by decide))

theorem valueWf_toInt (v : ValueWord) : valueWf v.toInt = true := by
  have hlo := BitVec.le_toInt v
  have hhi := BitVec.toInt_lt (x := v)
  exact decide_eq_true ⟨by simpa using hlo, by simpa using hhi⟩

theorem portPWf_toNat (p : CountWord) : portPWf p.toNat = true := decide_eq_true p.isLt

theorem all_supplied {α : Type} {wf : α → Bool} {x : α} (h : wf x = true) (flag : Bool) :
    (supplied flag x).all wf = true := by
  cases flag with
  | false => rfl
  | true => exact h

theorem portPWf_of_withDin {b : Ports} {mk : List Byte → Instr} {i : Instr} (h : withDin b mk = .ok i) :
    i = mk b.din ∧ portPWf b.din.length = true := by
  refine ⟨withDin_ok h, ?_⟩
  unfold withDin at h
  split at h
  next hlen => exact hlen ▸ portPWf_toNat b.p
  next => cases h

theorem wf_of_decodeOp {op : Nat} {b : Ports} {i : Instr} (h : decodeOp op b = .ok i) : i.wf = true := by
  unfold decodeOp at h
  split at h
  case h_7 | h_29 | h_30 =>
    obtain ⟨rfl, hlen⟩ := portPWf_of_withDin h
    exact hlen
  case h_80 =>
    split at h
    · cases h
      exact decide_eq_true (Nat.mod_lt _ (by decide))
    · cases h
  all_goals
    cases h
    simp only [Instr.wf, countWf_nField, valueWf_toInt, portPWf_toNat, all_supplied, Bool.and_self]

/-- Settles O11: a legal bundle is decoded by its row of the table. -/
theorem decodedOperandsAreInRange : Obligations.DecodedOperandsAreInRange := by
  intro b i h
  rw [decode_reserved_zero (reserved_zero_of_decode h)] at h
  exact wf_of_decodeOp h

/-! ### Refusals -/

theorem withDin_dinLength {b : Ports} {mk : List Byte → Instr} (h : withDin b mk = .error .dinLength) :
    b.din.length ≠ b.p.toNat := fun hlen => by simp [withDin_presentable hlen] at h

theorem decodeOp_dinLength {op : Nat} {b : Ports} (h : decodeOp op b = .error .dinLength) :
    b.din.length ≠ b.p.toNat ∧ (op = 0x07 ∨ op = 0x1D ∨ op = 0x1E) := by
  unfold decodeOp at h
  split at h
  case h_7 | h_29 | h_30 => exact ⟨withDin_dinLength h, by decide⟩
  case h_80 => split at h <;> cases h
  all_goals cases h

theorem decode_dinLength {b : Ports} (h : decode b = .error .dinLength) :
    b.din.length ≠ b.p.toNat ∧ (opField b.hdr = 0x07 ∨ opField b.hdr = 0x1D ∨ opField b.hdr = 0x1E) := by
  by_cases hr : reservedField b.hdr = 0
  · rw [decode_reserved_zero hr] at h
    exact decodeOp_dinLength h
  · cases (decode_reserved_set hr).symm.trans h

theorem exec_ne_refused (i : Instr) (s : State) (q : Refusal) : exec i s ≠ .refused q := by
  intro h
  have ends := exec_ends i s
  rw [h] at ends
  cases ends

theorem present_refused {b : Ports} {s : State} {q : Refusal} (h : present b s = .refused q) :
    decode b = .error .dinLength := by
  by_contra hb
  cases present_endsByFlag hb s with
  | raises h' => cases h.symm.trans h'
  | goesOn t _ h' => cases h.symm.trans h'

/-- Settles O12: a refusal by the step is one by `present`, whose only cause is `dinLength`. -/
theorem onlyUnpresentableBytesAreRefused : Obligations.OnlyUnpresentableBytesAreRefused := by
  refine ⟨exec_ne_refused, fun s q h => ?_⟩
  match hp : s.pending with
  | [] => cases h.symm.trans (step_idle hp)
  | .init maxBits bytes :: rest => cases h.symm.trans (step_init hp)
  | .command b :: rest => exact ⟨b, rest, rfl, decode_dinLength (present_refused ((step_command hp).symm.trans h))⟩

/-! ### The step -/

/-- Settles O6: the step on a bundle is `present`, which runs what the bundle decodes to. -/
theorem stepRunsDecodedCommand : Obligations.StepRunsDecodedCommand := by
  refine ⟨fun s b rest i hp hd => ?_, fun s => step_idle⟩
  rw [step_command hp, present, hd]

/-- Settles O8: ten closed words, evaluated. -/
theorem decodeReadsWrittenWords : Obligations.DecodeReadsWrittenWords := by
  unfold Obligations.DecodeReadsWrittenWords
  decide

/-! ### Encoding, format by format -/

section
variable {op n k fl : Nat} {v : Int} {din : List Byte}

theorem decode_of_header {b : Ports} (h : b.hdr = header op n fl) (hop : op < 256) (hn : n < 256) (hfl : fl < 8) :
    decode b = decodeOp op b := by
  rw [decode_reserved_zero (by rw [h, reservedField_header hop hn hfl]), h, opField_header hop hn hfl]

theorem lt_of_countWf (h : countWf n = true) : n < 256 := of_decide_eq_true h

theorem decode_encode_f0 {i : Instr} (hop : op < 256 := by decide)
    (reads : ∀ b, decodeOp op b = .ok i := by intros; rfl) : decode { hdr := header op 0 0 } = .ok i := by
  rw [decode_of_header rfl hop (by decide) (by decide), reads]

theorem decode_encode_fn {mk : Nat → Instr} (h : countWf n = true) (hop : op < 256 := by decide)
    (reads : ∀ b, decodeOp op b = .ok (mk (nField b.hdr)) := by intros; rfl) :
    decode { hdr := header op n 0 } = .ok (mk n) := by
  have hn := lt_of_countWf h
  rw [decode_of_header rfl hop hn (by decide), reads, nField_header hop hn (by decide)]

theorem decode_encode_fv {mk : Int → Instr} (h : valueWf v = true) (hop : op < 256 := by decide)
    (reads : ∀ b, decodeOp op b = .ok (mk b.v.toInt) := by intros; rfl) :
    decode { hdr := header op 0 0, v := BitVec.ofInt 65 v } = .ok (mk v) := by
  rw [decode_of_header rfl hop (by decide) (by decide), reads, toInt_valuePort h]

theorem decode_encode_fvn {mk : Nat → Int → Instr} (h : (countWf n && valueWf v) = true)
    (hop : op < 256 := by decide)
    (reads : ∀ b, decodeOp op b = .ok (mk (nField b.hdr) b.v.toInt) := by intros; rfl) :
    decode { hdr := header op n 0, v := BitVec.ofInt 65 v } = .ok (mk n v) := by
  obtain ⟨hcount, hv⟩ := Bool.and_eq_true_iff.mp h
  have hn := lt_of_countWf hcount
  rw [decode_of_header rfl hop hn (by decide), reads, nField_header hop hn (by decide), toInt_valuePort hv]

theorem decode_encode_fp {mk : Nat → Instr} (h : portPWf k = true) (hop : op < 256 := by decide)
    (reads : ∀ b, decodeOp op b = .ok (mk b.p.toNat) := by intros; rfl) :
    decode { hdr := header op 0 0, p := BitVec.ofNat 32 k } = .ok (mk k) := by
  rw [decode_of_header rfl hop (by decide) (by decide), reads, toNat_countPort h]

theorem decode_encode_fpd {mk : List Byte → Instr} (h : portPWf din.length = true) (hop : op < 256 := by decide)
    (reads : ∀ b, decodeOp op b = withDin b mk := by intros; rfl) :
    decode { hdr := header op 0 0, p := BitVec.ofNat 32 din.length, din := din } = .ok (mk din) := by
  rw [decode_of_header rfl hop (by decide) (by decide), reads]
  exact withDin_presentable (toNat_countPort h).symm mk

end

/-- The encoder's flag and field give an optional operand back; a field it does not supply holds anything. -/
theorem supplied_isSome {α : Type} {x : Option α} {field : α} (h : ∀ a, x = some a → field = a) :
    supplied x.isSome field = x := by
  cases x with
  | none => rfl
  | some a => exact congrArg some (h a rfl)

theorem supplied_valuePort {x : Option Int} (h : x.all valueWf = true) :
    supplied x.isSome (BitVec.ofInt 65 (x.getD 0)).toInt = x :=
  supplied_isSome fun a hx => by
    subst hx
    exact toInt_valuePort h

theorem supplied_count {size : Option Nat} {op : Nat} (hop : op < 256) (h : size.all countWf = true) (lo hi : Bool) :
    supplied size.isSome (nField (header op (size.getD 0) (flags lo hi size.isSome))) = size :=
  supplied_isSome fun n hx => by
    subst hx
    exact nField_header hop (lt_of_countWf h) (flags_lt _ _ _)

theorem decode_encode_encInt {v lo hi : Int} {size : Option Nat} (h : (Instr.encInt v lo hi size).wf = true) :
    decode (encode (.encInt v lo hi size)) = .ok (.encInt v lo hi size) := by
  simp only [Instr.wf, Bool.and_eq_true] at h
  obtain ⟨⟨⟨hv, hlo⟩, hhi⟩, hsize⟩ := h
  have hn := Laws.HeaderWord.size_lt hsize
  have hop : 0x10 < 256 := by decide
  rw [decode_of_header rfl hop hn (flags_lt _ _ _)]
  simp only [encode, decodeOp, toInt_valuePort hv, toInt_valuePort hlo, toInt_valuePort hhi, hasN_header hop hn,
    supplied_count hop hsize]

theorem decode_encode_decInt {lo hi : Option Int} {size : Option Nat} (h : (Instr.decInt lo hi size).wf = true) :
    decode (encode (.decInt lo hi size)) = .ok (.decInt lo hi size) := by
  simp only [Instr.wf, Bool.and_eq_true] at h
  obtain ⟨⟨hlo, hhi⟩, hsize⟩ := h
  have hn := Laws.HeaderWord.size_lt hsize
  have hop : 0x11 < 256 := by decide
  rw [decode_of_header rfl hop hn (flags_lt _ _ _)]
  simp only [encode, decodeOp, hasLo_header hop hn, hasHi_header hop hn, hasN_header hop hn, supplied_valuePort hlo,
    supplied_valuePort hhi, supplied_count hop hsize]

/-- Settles O9, command by command through the format that its row of the table has (R84). -/
theorem decodeInvertsEncode : Obligations.DecodeInvertsEncode := by
  intro i h
  cases i with
  | encInt v lo hi size => exact decode_encode_encInt h
  | decInt lo hi size => exact decode_encode_decInt h
  | bbWriteBytes din | encAppendBytes din | encOctetsNolen din => exact decode_encode_fpd h
  | bbReadBytes k | bbSetPos k | decEnum k | decOctetsNolen k => exact decode_encode_fp h
  | bbWriteBits n v | encUint n v | acnEncPosConst n v | acnEncTcConst n v | acnEncLength n v | acnEncBcdConst n v =>
    exact decode_encode_fvn h
  | bbReadBits n | decUint n | acnDecPosConst n | acnDecTcConst n | acnDecLength n | acnDecBcdConst n =>
    exact decode_encode_fn h
  | bbWriteBit v | bbWriteByte v | acnEncPosVar v | acnEncTcVar v | acnEncPosBe16 v | acnEncPosBe32 v
  | acnEncPosBe64 v | acnEncPosLe16 v | acnEncPosLe32 v | acnEncPosLe64 v | acnEncTcBe16 v | acnEncTcBe32 v
  | acnEncTcBe64 v | acnEncTcLe16 v | acnEncTcLe32 v | acnEncTcLe64 v | acnEncBcdVar v | acnEncBcdNt v
  | acnEncReal32Be v | acnEncReal32Le v | acnEncReal64Be v | acnEncReal64Le v => exact decode_encode_fv h
  | bbReadBit | bbReadByte | bbBitsRemaining | bbIsAtEnd | bbAlignWr | bbAlignRd | bbGetData | bbResetPos
  | encNull | decNull | encAlignByte | encAlignWord | encAlignDword | decAlignByte | decAlignWord | decAlignDword
  | acnDecPosVar | acnDecTcVar | acnDecPosBe16 | acnDecPosBe32 | acnDecPosBe64 | acnDecPosLe16 | acnDecPosLe32
  | acnDecPosLe64 | acnDecTcBe16 | acnDecTcBe32 | acnDecTcBe64 | acnDecTcLe16 | acnDecTcLe32 | acnDecTcLe64
  | acnDecBcdVar | acnDecBcdNt | acnDecReal32Be | acnDecReal32Le | acnDecReal64Be | acnDecReal64Le =>
    exact decode_encode_f0
  | acnStub which =>
    have hw : which < 16 := of_decide_eq_true h
    rw [encode, decode_of_header rfl (by omega) (by decide) (by decide), decodeOp_stub (by omega),
      show (0x70 + which) % 16 = which by omega]

end Sys2Proof.Machine
end

section
/-!
What a command does not read (10_state.md R27, R29; 41_codec_base.md R140). A state that agrees with `s` on CAP, BUF,
POS, USED and FAULT is `s.withUnread r` for some `r`; every test and every value of a command is then the same by
definition, so the outcomes agree branch by branch (`SameOutcome.ite`).
-/

namespace Sys2Proof.Machine

/-- `s` with everything but CAP, BUF, POS, USED and FAULT taken from `r`. -/
def State.withUnread (s r : State) : State :=
  { r with cap := s.cap, buf := s.buf, pos := s.pos, used := s.used, fault := s.fault }

theorem SameBlock.eq_withUnread {s s' : State} (h : SameBlock s s') : s' = s.withUnread s' := by
  obtain ⟨hcap, hbuf, hpos, hused, hfault⟩ := h
  unfold State.withUnread
  rw [← hcap, ← hbuf, ← hpos, ← hused, ← hfault]

section
variable {s s' t t' r : State} {n k : Nat} {v : Int} {din : List Byte}

theorem sameBlock_withUnread (s r : State) : SameBlock s (s.withUnread r) := ⟨rfl, rfl, rfl, rfl, rfl⟩

theorem writeBytes_withUnread (bs : List Byte) (s r : State) :
    writeBytes bs (s.withUnread r) = (writeBytes bs s).withUnread r := by
  induction bs generalizing s with
  | nil => rfl
  | cons b bs ih => exact ih (writeField 8 b.toNat s)

theorem writeDigits_withUnread (u d : Nat) (s r : State) :
    writeDigits u d (s.withUnread r) = (writeDigits u d s).withUnread r := by
  induction d generalizing s with
  | zero => rfl
  | succ d ih => exact ih (writeField 4 (digitI u d) s)

theorem sameBlock_writeBytes (bs : List Byte) (s r : State) :
    SameBlock (writeBytes bs s) (writeBytes bs (s.withUnread r)) :=
  writeBytes_withUnread bs s r ▸ sameBlock_withUnread _ r

theorem sameBlock_writeDigits (u d : Nat) (s r : State) :
    SameBlock (writeDigits u d s) (writeDigits u d (s.withUnread r)) :=
  writeDigits_withUnread u d s r ▸ sameBlock_withUnread _ r

theorem readBytes_withUnread (k : Nat) (s r : State) : (readBytes k (s.withUnread r)).1 = (readBytes k s).1 := by
  rw [readBytes_fst, readBytes_fst]
  rfl

/-! ### Equal outcomes, branch by branch -/

theorem SameOutcome.ok {b : Nat} {d : List Byte} (h : SameBlock t t') : SameOutcome (ok v b d t) (ok v b d t') :=
  ⟨h, rfl, rfl, fun _ => ⟨rfl, rfl, rfl⟩⟩

theorem SameOutcome.fail {c : ErrCode} (h : SameBlock t t') : SameOutcome (fail c t) (fail c t') :=
  ⟨h, rfl, rfl, fun h => by cases h⟩

theorem SameOutcome.contractFault : SameOutcome (contractFault s) (contractFault (s.withUnread r)) :=
  show SameBlock (setFault s) (setFault (s.withUnread r)) from ⟨rfl, rfl, rfl, rfl, rfl⟩

theorem SameOutcome.ite {c c' : Prop} {_ : Decidable c} {_ : Decidable c'} {x y x' y' : StepResult} (hc : c ↔ c')
    (hx : SameOutcome x x') (hy : SameOutcome y y') :
    SameOutcome (if c then x else y) (if c' then x' else y') := by
  by_cases h : c
  · rw [if_pos h, if_pos (hc.mp h)]
    exact hx
  · rw [if_neg h, if_neg (mt hc.mpr h)]
    exact hy

theorem SameOutcome.unlessFaulted {x x' : StepResult} (h : SameOutcome x x') :
    SameOutcome (unlessFaulted s x) (unlessFaulted (s.withUnread r) x') := .ite .rfl .contractFault h

/-! ### The shared bodies -/

theorem bufWrite_same : SameOutcome (bufWrite n v s) (bufWrite n v (s.withUnread r)) :=
  have h := sameBlock_withUnread s r
  .ite .rfl (.fail h) <| .ite .rfl (.fail h) <| .ite .rfl (.fail h) (.ok (sameBlock_withUnread _ r))

theorem bufRead_same : SameOutcome (bufRead n s) (bufRead n (s.withUnread r)) :=
  have h := sameBlock_withUnread s r
  .ite .rfl (.fail h) <| .ite .rfl (.fail h) (.ok (sameBlock_withUnread _ r))

theorem encPos_same : SameOutcome (encPos n v s) (encPos n v (s.withUnread r)) :=
  have h := sameBlock_withUnread s r
  .ite .rfl (.fail h) <| .ite .rfl (.fail h) <| .ite .rfl (.fail h) (.ok (sameBlock_withUnread _ r))

theorem decPos_same : SameOutcome (decPos n s) (decPos n (s.withUnread r)) :=
  .ite .rfl (.fail (sameBlock_withUnread s r)) (.ok (sameBlock_withUnread _ r))

theorem encTc_same : SameOutcome (encTc n v s) (encTc n v (s.withUnread r)) :=
  have h := sameBlock_withUnread s r
  .ite .rfl (.fail h) <| .ite .rfl (.fail h) (.ok (sameBlock_withUnread _ r))

theorem decTc_same : SameOutcome (decTc n s) (decTc n (s.withUnread r)) :=
  .ite .rfl (.fail (sameBlock_withUnread s r)) (.ok (sameBlock_withUnread _ r))

theorem encLe_same {u : Nat} : SameOutcome (encLe k u s) (encLe k u (s.withUnread r)) :=
  .ite .rfl (.fail (sameBlock_withUnread s r)) (.ok (sameBlock_writeBytes _ s r))

theorem decLe_same {value : Nat → Int} : SameOutcome (decLe k value s) (decLe k value (s.withUnread r)) := by
  refine .ite .rfl (.fail (sameBlock_withUnread s r)) ?_
  simp only [readBytes_withUnread, readBytes_snd]
  exact .ok (sameBlock_withUnread (skipBits (8 * k) s) r)

theorem encPosLe_same : SameOutcome (encPosLe k v s) (encPosLe k v (s.withUnread r)) :=
  have h := sameBlock_withUnread s r
  .ite .rfl (.fail h) <| .ite .rfl (.fail h) encLe_same

theorem encTcLe_same : SameOutcome (encTcLe k v s) (encTcLe k v (s.withUnread r)) :=
  .ite .rfl (.fail (sameBlock_withUnread s r)) encLe_same

theorem encAlign_same : SameOutcome (encAlign n s) (encAlign n (s.withUnread r)) :=
  .ite .rfl (.fail (sameBlock_withUnread s r)) (.ok (sameBlock_withUnread (writeField (pad n s.pos) 0 s) r))

theorem decAlign_same : SameOutcome (decAlign n s) (decAlign n (s.withUnread r)) :=
  .ite .rfl (.fail (sameBlock_withUnread s r)) (.ok (sameBlock_withUnread (skipBits (pad n s.pos) s) r))

theorem encBytes_same : SameOutcome (encBytes din s) (encBytes din (s.withUnread r)) :=
  .ite .rfl (.fail (sameBlock_withUnread s r)) (.ok (sameBlock_writeBytes _ s r))

theorem encCounted_same {u : Nat} : SameOutcome (encCounted k u s) (encCounted k u (s.withUnread r)) :=
  .ite .rfl (.fail (sameBlock_withUnread s r)) (.ok (sameBlock_withUnread _ r))

theorem encWidth_same : SameOutcome (encWidth n v s) (encWidth n v (s.withUnread r)) :=
  .ite .rfl .contractFault encPos_same

theorem decWidth_same : SameOutcome (decWidth n s) (decWidth n (s.withUnread r)) :=
  .ite .rfl .contractFault decPos_same

theorem constSize_same {x x' : StepResult} (h : SameOutcome x x') :
    SameOutcome (constSize n s x) (constSize n (s.withUnread r) x') := .ite .rfl .contractFault h

theorem encRealBe_same : SameOutcome (encRealBe k v s) (encRealBe k v (s.withUnread r)) :=
  .ite .rfl .contractFault <| .ite .rfl (.fail (sameBlock_withUnread s r)) (.ok (sameBlock_withUnread _ r))

theorem encRealLe_same : SameOutcome (encRealLe k v s) (encRealLe k v (s.withUnread r)) :=
  .ite .rfl .contractFault encLe_same

theorem bcdResult_same {acc : Nat} (h : SameBlock t t') : SameOutcome (bcdResult acc n t) (bcdResult acc n t') :=
  .ite .rfl (.fail h) (.ok h)

/-! ### Decoders that fail while they read -/

/-- The two reads found the same, and left like blocks. -/
structure SameRead {α : Type} (x x' : Except ErrCode α × State) : Prop where
  result : x'.1 = x.1
  block : SameBlock x.2 x'.2

theorem SameRead.ite {α : Type} {c c' : Prop} {_ : Decidable c} {_ : Decidable c'}
    {x y x' y' : Except ErrCode α × State} (hc : c ↔ c') (hx : SameRead x x') (hy : SameRead y y') :
    SameRead (if c then x else y) (if c' then x' else y') := by
  by_cases h : c
  · rw [if_pos h, if_pos (hc.mp h)]
    exact hx
  · rw [if_neg h, if_neg (mt hc.mpr h)]
    exact hy

theorem SameRead.cases {α : Type} {x x' : Except ErrCode α × State} (h : SameRead x x') :
    (∃ c t t', x = (.error c, t) ∧ x' = (.error c, t') ∧ SameBlock t t') ∨
      ∃ a t t', x = (.ok a, t) ∧ x' = (.ok a, t') ∧ SameBlock t t' := by
  obtain ⟨result, t⟩ := x
  obtain ⟨result', t'⟩ := x'
  obtain ⟨hresult, hblock⟩ := h
  cases hresult
  cases result with
  | error c => exact .inl ⟨c, t, t', rfl, rfl, hblock⟩
  | ok a => exact .inr ⟨a, t, t', rfl, rfl, hblock⟩

theorem readCounted_same (s r : State) : SameRead (readCounted s) (readCounted (s.withUnread r)) :=
  have h8 := sameBlock_withUnread (skipBits 8 s) r
  .ite .rfl ⟨rfl, sameBlock_withUnread s r⟩ <| .ite .rfl ⟨rfl, h8⟩ <| .ite .rfl ⟨rfl, h8⟩
    ⟨rfl, sameBlock_withUnread (skipBits _ (skipBits 8 s)) r⟩

theorem readDigits_same (c acc : Nat) (s r : State) :
    SameRead (readDigits c acc s) (readDigits c acc (s.withUnread r)) := by
  induction c generalizing acc s with
  | zero => exact ⟨rfl, sameBlock_withUnread s r⟩
  | succ c ih => exact .ite .rfl ⟨rfl, sameBlock_withUnread (skipBits 4 s) r⟩ (ih _ (skipBits 4 s))

theorem readDigitsNt_same (left acc b : Nat) (s r : State) :
    SameRead (readDigitsNt left acc b s) (readDigitsNt left acc b (s.withUnread r)) := by
  induction left generalizing acc b s with
  | zero =>
    have h4 := sameBlock_withUnread (skipBits 4 s) r
    exact .ite .rfl ⟨rfl, sameBlock_withUnread s r⟩ <| .ite .rfl ⟨rfl, h4⟩ <| .ite .rfl ⟨rfl, h4⟩ ⟨rfl, h4⟩
  | succ left ih =>
    have h4 := sameBlock_withUnread (skipBits 4 s) r
    exact .ite .rfl ⟨rfl, sameBlock_withUnread s r⟩ <| .ite .rfl ⟨rfl, h4⟩ <| .ite .rfl ⟨rfl, h4⟩
      (ih _ _ (skipBits 4 s))

theorem decCounted_same {value : Nat → Nat → Int} :
    SameOutcome (decCounted value s) (decCounted value (s.withUnread r)) := by
  rcases (readCounted_same s r).cases with ⟨c, t, t', e, e', h⟩ | ⟨⟨l, u⟩, t, t', e, e', h⟩
  · rw [decCounted_of_error e, decCounted_of_error e']
    exact .fail h
  · rw [decCounted_of_ok e, decCounted_of_ok e']
    exact .ok h

/-- What R242 and R244 make of the digits read. -/
def digitsResult (bits : Nat) (x : Except ErrCode Nat × State) : StepResult :=
  match x with
  | (.error code, t) => fail code t
  | (.ok acc, t) => bcdResult acc bits t

theorem digitsResult_same {x x' : Except ErrCode Nat × State} (h : SameRead x x') :
    SameOutcome (digitsResult n x) (digitsResult n x') := by
  rcases h.cases with ⟨c, t, t', rfl, rfl, hb⟩ | ⟨acc, t, t', rfl, rfl, hb⟩
  · exact .fail hb
  · exact bcdResult_same hb

/-- What R246 makes of the digits and the count of bits read. -/
def digitsNtResult (x : Except ErrCode (Nat × Nat) × State) : StepResult :=
  match x with
  | (.error code, t) => fail code t
  | (.ok (acc, b), t) => bcdResult acc b t

theorem digitsNtResult_same {x x' : Except ErrCode (Nat × Nat) × State} (h : SameRead x x') :
    SameOutcome (digitsNtResult x) (digitsNtResult x') := by
  rcases h.cases with ⟨c, t, t', rfl, rfl, hb⟩ | ⟨⟨acc, b⟩, t, t', rfl, rfl, hb⟩
  · exact .fail hb
  · exact bcdResult_same hb

/-! ### DEC_INT -/

theorem decIntRange_same {lo hi : Int} : SameOutcome (decIntRange lo hi s) (decIntRange lo hi (s.withUnread r)) :=
  .ite .rfl .contractFault <| .ite .rfl .contractFault <| .ite .rfl (.fail (sameBlock_withUnread s r)) <|
    .ite .rfl (.fail (sameBlock_withUnread (skipBits _ s) r)) (.ok (sameBlock_withUnread (skipBits _ s) r))

theorem decIntSized_same {lo hi : Option Int} :
    SameOutcome (decIntSized lo hi n s) (decIntSized lo hi n (s.withUnread r)) :=
  have hn := sameBlock_withUnread (skipBits n s) r
  .ite .rfl .contractFault <| .ite .rfl (.fail (sameBlock_withUnread s r)) <| .ite .rfl (.fail hn) <|
    .ite .rfl (.fail hn) (.ok hn)

theorem decInt_same (lo hi : Option Int) (size : Option Nat) :
    SameOutcome (exec (.decInt lo hi size) s) (exec (.decInt lo hi size) (s.withUnread r)) := by
  refine .unlessFaulted ?_
  match lo, hi, size with
  | some _, some _, _ => exact decIntRange_same
  | none, _, some _ | some _, none, some _ => exact decIntSized_same
  | none, _, none | some _, none, none => exact .fail (sameBlock_withUnread s r)

/-! ### Every command -/

theorem exec_same (i : Instr) (s r : State) : SameOutcome (exec i s) (exec i (s.withUnread r)) := by
  have h := sameBlock_withUnread s r
  cases i with
  | bbWriteBits | bbWriteBit | bbWriteByte => exact .unlessFaulted bufWrite_same
  | bbReadBits | bbReadBit | bbReadByte => exact .unlessFaulted bufRead_same
  | bbWriteBytes din => exact .unlessFaulted <| .ite .rfl (.fail h) (.ok (sameBlock_writeBytes din s r))
  | bbReadBytes k | decOctetsNolen k =>
    refine .unlessFaulted (.ite .rfl (.fail h) ?_)
    simp only [readBytes_withUnread, readBytes_snd]
    exact .ok (sameBlock_withUnread (skipBits (8 * k) s) r)
  | bbBitsRemaining | bbIsAtEnd | bbGetData | encNull | decNull => exact .unlessFaulted (.ok h)
  | bbSetPos p => exact .unlessFaulted <| .ite .rfl (.fail h) (.ok (sameBlock_withUnread (moveTo p s) r))
  | bbResetPos => exact .unlessFaulted (.ok (sameBlock_withUnread (moveTo 0 s) r))
  | bbAlignWr =>
    exact .unlessFaulted <| .ite .rfl (.fail h) (.ok (sameBlock_withUnread (writeField (pad 8 s.pos) 0 s) r))
  | bbAlignRd =>
    exact .unlessFaulted <| .ite .rfl (.fail h) (.ok (sameBlock_withUnread (skipBits (pad 8 s.pos) s) r))
  | encInt v lo hi size =>
    exact .unlessFaulted <| .ite .rfl .contractFault <| .ite .rfl .contractFault <| .ite .rfl (.fail h) <|
      .ite .rfl (.fail h) (.ok (sameBlock_withUnread (writeField _ _ s) r))
  | decInt lo hi size => exact decInt_same lo hi size
  | encUint | acnEncLength => exact .unlessFaulted encWidth_same
  | decUint | acnDecLength => exact .unlessFaulted decWidth_same
  | decEnum k =>
    exact .unlessFaulted <| .ite .rfl .contractFault <| .ite .rfl (.fail h) <|
      .ite .rfl (.fail (sameBlock_withUnread (skipBits _ s) r)) (.ok (sameBlock_withUnread (skipBits _ s) r))
  | encAlignByte | encAlignWord | encAlignDword => exact .unlessFaulted encAlign_same
  | decAlignByte | decAlignWord | decAlignDword => exact .unlessFaulted decAlign_same
  | encAppendBytes | encOctetsNolen => exact .unlessFaulted encBytes_same
  | acnEncPosConst => exact .unlessFaulted (constSize_same encPos_same)
  | acnDecPosConst => exact .unlessFaulted (constSize_same decPos_same)
  | acnEncTcConst => exact .unlessFaulted (constSize_same encTc_same)
  | acnDecTcConst => exact .unlessFaulted (constSize_same decTc_same)
  | acnEncPosVar => exact .unlessFaulted <| .ite .rfl .contractFault <| .ite .rfl (.fail h) encCounted_same
  | acnEncTcVar => exact .unlessFaulted <| .ite .rfl .contractFault encCounted_same
  | acnDecPosVar => exact .unlessFaulted (decCounted_same (value := fun _ u => u))
  | acnDecTcVar => exact .unlessFaulted (decCounted_same (value := signedPayload))
  | acnEncPosBe16 | acnEncPosBe32 | acnEncPosBe64 => exact .unlessFaulted encPos_same
  | acnDecPosBe16 | acnDecPosBe32 | acnDecPosBe64 | acnDecReal32Be | acnDecReal64Be =>
    exact .unlessFaulted decPos_same
  | acnEncPosLe16 | acnEncPosLe32 | acnEncPosLe64 => exact .unlessFaulted encPosLe_same
  | acnDecPosLe16 | acnDecPosLe32 | acnDecPosLe64 | acnDecTcLe16 | acnDecTcLe32 | acnDecTcLe64 | acnDecReal32Le
  | acnDecReal64Le => exact .unlessFaulted decLe_same
  | acnEncTcBe16 | acnEncTcBe32 | acnEncTcBe64 => exact .unlessFaulted encTc_same
  | acnDecTcBe16 | acnDecTcBe32 | acnDecTcBe64 => exact .unlessFaulted decTc_same
  | acnEncTcLe16 | acnEncTcLe32 | acnEncTcLe64 => exact .unlessFaulted encTcLe_same
  | acnEncBcdConst n v =>
    exact .unlessFaulted <| .ite .rfl .contractFault <| .ite .rfl .contractFault <| .ite .rfl (.fail h) <|
      .ite .rfl (.fail h) <| .ite .rfl (.fail h) (.ok (sameBlock_writeDigits _ _ s r))
  | acnDecBcdConst n =>
    exact .unlessFaulted <| .ite .rfl .contractFault <| .ite .rfl (.fail h)
      (digitsResult_same (readDigits_same n 0 s r))
  | acnEncBcdVar v =>
    exact .unlessFaulted <| .ite .rfl .contractFault <| .ite .rfl (.fail h) <| .ite .rfl (.fail h)
      (.ok (sameBlock_writeDigits _ _ (writeField 8 (ndigits v.toNat) s) r))
  | acnDecBcdVar =>
    have h8 := sameBlock_withUnread (skipBits 8 s) r
    exact .unlessFaulted <| .ite .rfl (.fail h) <| .ite .rfl (.fail h8) <| .ite .rfl (.fail h8)
      (digitsResult_same (readDigits_same _ 0 (skipBits 8 s) r))
  | acnEncBcdNt v =>
    refine .unlessFaulted <| .ite .rfl .contractFault <| .ite .rfl (.fail h) <| .ite .rfl (.fail h) (.ok ?_)
    rw [writeDigits_withUnread]
    exact sameBlock_withUnread (writeField 4 15 (writeDigits v.toNat (ndigits v.toNat) s)) r
  | acnDecBcdNt => exact .unlessFaulted (digitsNtResult_same (readDigitsNt_same Config.maxDig 0 0 s r))
  | acnEncReal32Be | acnEncReal64Be => exact .unlessFaulted encRealBe_same
  | acnEncReal32Le | acnEncReal64Le => exact .unlessFaulted encRealLe_same
  | acnStub => exact .unlessFaulted (.fail h)

end

/-- Settles O22: a state that agrees with `s` is `s.withUnread` of it. -/
theorem resultRegistersAreNotRead : Obligations.ResultRegistersAreNotRead := by
  intro i s s' h
  rw [h.eq_withUnread]
  exact exec_same i s s'

/-! ### Sequences -/

theorem runCommands_same {is : List Instr} (hne : is ≠ []) {s s' : State} (h : SameBlock s s') :
    SameOutcome (runCommands is s) (runCommands is s') := by
  induction is generalizing s s' with
  | nil => exact absurd rfl hne
  | cons i is ih =>
    have first := resultRegistersAreNotRead i s s' h
    rw [runCommands, runCommands]
    match hx : exec i s, hx' : exec i s' with
    | .next t, .next t' =>
      rw [hx, hx'] at first
      by_cases hlast : is = []
      · subst hlast
        exact first
      · exact ih hlast first.1
    | .fault f, .fault f' =>
      rw [hx, hx'] at first
      exact first
    | .refused q, .refused q' =>
      rw [hx, hx'] at first
      exact first
    | .next _, .fault _ | .next _, .refused _ | .fault _, .next _ | .fault _, .refused _ | .refused _, .next _
    | .refused _, .fault _ =>
      rw [hx, hx'] at first
      exact first.elim

/-- Settles O23: a copy differs from its original in what no command reads. -/
theorem copyRunsLikeTheOriginal : Obligations.CopyRunsLikeTheOriginal := fun ix s =>
  have same : SameBlock s (copyInstance ix s) := ⟨rfl, rfl, rfl, rfl, rfl⟩
  ⟨same, fun _ hne => runCommands_same hne same⟩

end Sys2Proof.Machine
end

section
/-!
The laws of the buffer (20_memory.md R50 to R57, 40_bitbuffer.md R126) and the equal commands of R89. Adjacent
fields are one field by `memRead_append`; a value that was written reads back after the cursor is placed at it again
(`runOk_rewind`).
-/

namespace Sys2Proof.Machine

/-! ### The value of a field -/

theorem toNat_bitAt (m : Memory) (q : Nat) : (bitAt m q).toNat = (readByte m (q / 8)).toNat / 2 ^ (7 - q % 8) % 2 := by
  rw [bitAt, ← BitVec.testBit_toNat, Nat.toNat_testBit]

/-- Settles O25, by induction on the width: one bit more doubles the weights of the bits before it. -/
theorem fieldValueIsTheSumOfItsBits : Obligations.FieldValueIsTheSumOfItsBits := by
  intro m p n
  induction n with
  | zero => rfl
  | succ n ih =>
    have last : 2 ^ (n + 1 - 1 - n) = 1 := by rw [Nat.add_sub_cancel, Nat.sub_self, Nat.pow_zero]
    rw [memRead, ih, Finset.sum_range_succ, Finset.mul_sum, toNat_bitAt, last, Nat.mul_one]
    congr 1
    refine Finset.sum_congr rfl fun i hi => ?_
    have hi := Finset.mem_range.mp hi
    rw [show n + 1 - 1 - i = n - 1 - i + 1 by omega, Nat.pow_succ]
    ring

theorem memRead_append (m : Memory) (p n k : Nat) :
    memRead m p (n + k) = memRead m p n * 2 ^ k + memRead m (p + n) k := by
  induction k with
  | zero => simp [memRead]
  | succ k ih =>
    rw [← Nat.add_assoc, memRead, memRead, ih, Nat.add_assoc p n k]
    ring

theorem memRead_split (m : Memory) (p n k : Nat) :
    memRead m p n = memRead m p (n + k) / 2 ^ k ∧ memRead m (p + n) k = memRead m p (n + k) % 2 ^ k := by
  have hlt := memRead_lt m (p + n) k
  rw [memRead_append, Nat.mul_comm]
  exact ⟨by rw [Nat.mul_add_div (Nat.two_pow_pos k), Nat.div_eq_of_lt hlt, Nat.add_zero],
    by rw [Nat.mul_add_mod, Nat.mod_eq_of_lt hlt]⟩

theorem memRead_one (m : Memory) (p : Nat) : memRead m p 1 = if bitAt m p then 1 else 0 := by
  cases h : bitAt m p <;> simp [memRead, h]

/-! ### Going back to what was written -/

/-- `t` after the cursor was placed at `p`. -/
def rewound (p : Nat) (t : State) : State := setOk 0 0 [] (moveTo p t)

section
variable {s t : State} {i j : Instr} {is : List Instr} {n k p : Nat} {val : Int} {data din : List Byte}

@[simp] theorem rewound_buf (p : Nat) (t : State) : (rewound p t).buf = t.buf := rfl
@[simp] theorem rewound_pos (p : Nat) (t : State) : (rewound p t).pos = p := rfl
@[simp] theorem rewound_cap (p : Nat) (t : State) : (rewound p t).cap = t.cap := rfl
@[simp] theorem rewound_fault (p : Nat) (t : State) : (rewound p t).fault = t.fault := rfl

theorem runOk_setPos (hf : t.fault = false) (hp : p ≤ t.cap) :
    runOk (.bbSetPos p :: is) t = runOk is (rewound p t) := runOk_cons (exec_bbSetPos_within hf hp) rfl

theorem pos_le_cap_of_room (hr : room n s) : s.pos ≤ s.cap := Nat.le_of_add_right_le hr

/-- A command, the cursor placed at `p`, and a read there. -/
theorem runOk_rewind (h : exec i s = .next t) (hok : t.success = true) (hf : t.fault = false) (hp : p ≤ t.cap)
    (hread : ReadsTo (exec j (rewound p t)) (rewound p t) n val data) :
    ∃ u, runOk [i, .bbSetPos p, j] s = some u ∧ ReportsOk u val n data ∧ u.pos = p + n := by
  obtain ⟨u, hexec, hreads, hreports⟩ := hread
  refine ⟨u, ?_, hreports, hreads.pos⟩
  rw [runOk_cons h hok, runOk_setPos hf hp, runOk_cons hexec hreports.1, runOk]

/-! ### What a command is on a block with FAULT = 0 -/

theorem exec_bbWriteBit (hs : s.fault = false) (v : Int) : exec (.bbWriteBit v) s = bufWrite 1 v s :=
  unlessFaulted_ready hs _

theorem exec_bbReadBit (hs : s.fault = false) : exec .bbReadBit s = bufRead 1 s := unlessFaulted_ready hs _

/-- With room the BitBuffer form is the codec's (R116, R163); without it the two differ in the code alone. -/
theorem exec_bbWriteBytes_of_room (hs : s.fault = false) (hr : room (8 * din.length) s) :
    exec (.bbWriteBytes din) s = encBytes din s :=
  calc exec (.bbWriteBytes din) s
    _ = .next (setOk 0 (8 * din.length) [] (writeBytes din s)) :=
      (unlessFaulted_ready hs _).trans (if_neg (not_not_intro hr))
    _ = encBytes din s := (if_neg (not_not_intro hr)).symm

theorem encBytes_ok (hr : room (8 * din.length) s) :
    encBytes din s = .next (setOk 0 (8 * din.length) [] (writeBytes din s)) := if_neg (not_not_intro hr)

theorem exec_bbWriteBytes_of_not_room (hs : s.fault = false) (hr : ¬ room (8 * din.length) s) :
    exec (.bbWriteBytes din) s = .next (setErr .bitstreamError s) := (unlessFaulted_ready hs _).trans (if_pos hr)

theorem exec_bbReadBytes_of_not_room (hs : s.fault = false) (hr : ¬ room (8 * k) s) :
    exec (.bbReadBytes k) s = .next (setErr .bitstreamError s) := (unlessFaulted_ready hs _).trans (if_pos hr)

theorem exec_decOctetsNolen_of_not_room (hs : s.fault = false) (hr : ¬ room (8 * k) s) :
    exec (.decOctetsNolen k) s = .next (setErr .insufficientData s) := (unlessFaulted_ready hs _).trans (if_pos hr)

/-! ### Blocks of bytes -/

theorem bbReadBytes_readsTo (hs : s.fault = false) (hr : room (8 * k) s) :
    ReadsTo (exec (.bbReadBytes k) s) s (8 * k) 0 (readBytes k s).1 := by
  have e : exec (.bbReadBytes k) s = .next (setOk 0 (8 * k) (readBytes k s).1 (readBytes k s).2) :=
    (unlessFaulted_ready hs _).trans (if_neg (not_not_intro hr))
  rw [e, readBytes_snd]
  exact readsTo_setOk s _ _ _

theorem decOctetsNolen_readsTo (hs : s.fault = false) (hr : room (8 * k) s) :
    ReadsTo (exec (.decOctetsNolen k) s) s (8 * k) 0 (readBytes k s).1 := by
  have e : exec (.decOctetsNolen k) s = .next (setOk 0 (8 * k) (readBytes k s).1 (readBytes k s).2) :=
    (unlessFaulted_ready hs _).trans (if_neg (not_not_intro hr))
  rw [e, readBytes_snd]
  exact readsTo_setOk s _ _ _

theorem readBytes_getD (s : State) {a : Nat} (h : a < k) :
    ((readBytes k s).1.getD a 0).toNat = byteAt s.buf s.pos a := by
  have hlt := memRead_lt s.buf (s.pos + 8 * a) 8
  simpa [readBytes_fst, h, byteAt] using hlt

/-- Reading a block gives back the bytes that its 8-bit fields hold. -/
theorem readBytes_eq_of_fields (h : ∀ a (ha : a < din.length), memRead s.buf (s.pos + 8 * a) 8 = din[a].toNat) :
    (readBytes din.length s).1 = din := by
  refine List.ext_getElem (readBytes_length _ _) fun a _ ha => ?_
  simp only [readBytes_fst, List.getElem_map, List.getElem_range, h a ha, BitVec.ofNat_toNat, BitVec.setWidth_eq]

end

/-- Settles O35: the block's bytes are the 8-bit fields at the cursor, written (`encBytes`) and read (`readBytes`). -/
theorem byteBlocks : Obligations.ByteBlocks := by
  rintro s din k ⟨hs, hwf⟩
  refine ⟨fun hr => ?_, fun hr => ?_, fun hr => ?_, fun hr => ?_⟩
  · rw [exec_bbWriteBytes_of_room hs hr]
    exact encBytes_writesRun hwf hr
  · rw [exec_bbWriteBytes_of_not_room hs hr]
    exact failsWith_setErr s _
  · exact ⟨(readBytes k s).1, readBytes_length k s, fun _ => readBytes_getD s, bbReadBytes_readsTo hs hr,
      decOctetsNolen_readsTo hs hr⟩
  · rw [exec_bbReadBytes_of_not_room hs hr, exec_decOctetsNolen_of_not_room hs hr]
    exact ⟨failsWith_setErr s _, failsWith_setErr s _⟩

/-! ### Single bits -/

theorem fitsU_one_iff {v : Int} : fitsU v 1 ↔ v = 0 ∨ v = 1 := by
  unfold fitsU
  omega

/-- Settles O34: both commands are a field of one bit. -/
theorem singleBitAccess : Obligations.SingleBitAccess := by
  rintro s v ⟨hs, hwf⟩
  rw [exec_bbWriteBit hs, exec_bbReadBit hs]
  refine ⟨fun hv => bufWrite_writesField hwf (by decide) (fitsU_one_iff.mpr hv), fun h => ?_, fun hr => ?_,
    fun hr => bufRead_failsWith (.inr hr)⟩
  · refine bufWrite_failsWith (.inr (h.imp_left fun hv => ?_))
    rw [fitsU_one_iff]
    exact not_or.mpr hv
  · have hread := bufRead_readsTo (n := 1) (by decide) hr
    rw [memRead_one] at hread
    exact_mod_cast hread

/-! ### Write, then read -/

section
variable {s : State} {n p : Nat} {v : Int} {din : List Byte}

theorem memRead_writeField (hwf : s.buf.wf = true) (hv : fitsU v n) :
    (memRead (writeField n v.toNat s).buf s.pos n : Int) = v := by
  rw [writeField_buf, memRead_memWrite hwf _ _ (toNat_lt_of_fitsU hv), Int.toNat_of_nonneg hv.1]

/-- A field written at the cursor, and read back there. -/
theorem bufRead_rewound_writeField (hwf : s.buf.wf = true) (hn : n ≤ 64) (hv : fitsU v n) (hr : room n s) :
    let t := rewound s.pos (setOk 0 n [] (writeField n v.toNat s))
    ReadsTo (bufRead n t) t n v [] := by
  intro t
  have hread := bufRead_readsTo (s := t) hn hr
  rwa [show (memRead t.buf t.pos n : Int) = v from memRead_writeField hwf hv] at hread

theorem writeBits_readBits (hs : Ready s) (hn : n ≤ 64) (hv : fitsU v n) (hr : room n s) :
    ∃ u, runOk [.bbWriteBits n v, .bbSetPos s.pos, .bbReadBits n] s = some u ∧ ReportsOk u v n [] ∧
      u.pos = s.pos + n := by
  obtain ⟨hf, hwf⟩ := hs
  refine runOk_rewind ((exec_bbWriteBits hf n v).trans (bufWrite_ok hn hv hr)) rfl hf (pos_le_cap_of_room hr) ?_
  rw [exec_bbReadBits (by exact hf)]
  exact bufRead_rewound_writeField hwf hn hv hr

theorem writeByte_readByte (hs : Ready s) (hv : fitsU v 8) (hr : room 8 s) :
    ∃ u, runOk [.bbWriteByte v, .bbSetPos s.pos, .bbReadByte] s = some u ∧ ReportsOk u v 8 [] ∧
      u.pos = s.pos + 8 := by
  obtain ⟨hf, hwf⟩ := hs
  have hn : 8 ≤ 64 := by decide
  refine runOk_rewind ((exec_bbWriteByte hf v).trans (bufWrite_ok hn hv hr)) rfl hf (pos_le_cap_of_room hr) ?_
  rw [exec_bbReadByte (by exact hf)]
  exact bufRead_rewound_writeField hwf hn hv hr

theorem bbReadBytes_rewound {t : State} (hf : t.fault = false) (hr : p + 8 * din.length ≤ t.cap)
    (h : ∀ a (ha : a < din.length), memRead t.buf (p + 8 * a) 8 = din[a].toNat) :
    ReadsTo (exec (.bbReadBytes din.length) (rewound p t)) (rewound p t) (8 * din.length) 0 din := by
  have hread := bbReadBytes_readsTo (s := rewound p t) hf hr
  rwa [readBytes_eq_of_fields (s := rewound p t) h] at hread

theorem writeBytes_readBytes (hs : Ready s) (hr : room (8 * din.length) s) :
    ∃ u, runOk [.bbWriteBytes din, .bbSetPos s.pos, .bbReadBytes din.length] s = some u ∧
      ReportsOk u 0 (8 * din.length) din ∧ u.pos = s.pos + 8 * din.length := by
  obtain ⟨hf, hwf⟩ := hs
  have hexec := (exec_bbWriteBytes_of_room hf hr).trans (encBytes_ok hr)
  have hf' : (setOk 0 (8 * din.length) [] (writeBytes din s)).fault = false := by rw [setOk_fault, writeBytes_fault, hf]
  have hcap : (setOk 0 (8 * din.length) [] (writeBytes din s)).cap = s.cap := by rw [setOk_cap, writeBytes_cap]
  refine runOk_rewind hexec rfl hf' ?_ (bbReadBytes_rewound hf' ?_ fun a ha => memRead_writeBytes din hwf ha)
  · rw [hcap]
    exact pos_le_cap_of_room hr
  · rw [hcap]
    exact hr

end

/-- Settles O27, by the three lemmas on a field, a byte and a block of bytes. -/
theorem writeThenReadReturnsTheValue : Obligations.WriteThenReadReturnsTheValue :=
  ⟨fun _ _ _ hs hn hv hr => writeBits_readBits hs hn hv hr, fun _ _ hs hv hr => writeByte_readByte hs hv hr,
    fun _ _ hs hr => writeBytes_readBytes hs hr⟩

section
variable {s : State} {n k : Nat} {v w : Int}

/-- Two fields written one behind the other read as one (R57). -/
theorem memRead_writeField_writeField (hwf : s.buf.wf = true) (hv : fitsU v n) (hw : fitsU w k) :
    (memRead (writeField k w.toNat (writeField n v.toNat s)).buf s.pos (n + k) : Int) = v * 2 ^ k + w := by
  have hwf' := wf_writeField hwf n v.toNat
  have hsecond : (memRead (writeField k w.toNat (writeField n v.toNat s)).buf (s.pos + n) k : Int) = w :=
    memRead_writeField hwf' hw
  have hfirst : memRead (writeField k w.toNat (writeField n v.toNat s)).buf s.pos n =
      memRead (writeField n v.toNat s).buf s.pos n := memRead_memWrite_outside hwf' (.inl (Nat.le_refl _)) _
  rw [memRead_append, hfirst]
  push_cast
  rw [hsecond, memRead_writeField hwf hv]

theorem writeBits_writeBits_readBits (hs : Ready s) (hv : fitsU v n) (hw : fitsU w k) (hnk : n + k ≤ 64)
    (hr : room (n + k) s) :
    ∃ t, runOk [.bbWriteBits n v, .bbWriteBits k w, .bbSetPos s.pos, .bbReadBits (n + k)] s = some t ∧
      t.val = v * 2 ^ k + w := by
  obtain ⟨hf, hwf⟩ := hs
  have hr1 : room n s := by omega
  have hr2 : room k (setOk 0 n [] (writeField n v.toNat s)) := by
    simp only [room, setOk_pos, setOk_cap, writeField_pos, writeField_cap]
    omega
  have hfirst := (exec_bbWriteBits hf n v).trans (bufWrite_ok (by omega) hv hr1)
  have hsecond := (exec_bbWriteBits (s := setOk 0 n [] (writeField n v.toNat s)) hf k w).trans
    (bufWrite_ok (by omega) hw hr2)
  rw [runOk_cons hfirst rfl]
  have hread := bufRead_readsTo (s := rewound s.pos (setOk 0 k [] (writeField k w.toNat
    (setOk 0 n [] (writeField n v.toNat s))))) hnk hr
  rw [← exec_bbReadBits (by exact hf)] at hread
  obtain ⟨t, hrun, hreports, -⟩ := runOk_rewind (p := s.pos) hsecond rfl hf (pos_le_cap_of_room hr1) hread
  obtain ⟨-, -, hval, -⟩ := hreports
  exact ⟨t, hrun, hval.trans (memRead_writeField_writeField hwf hv hw)⟩

end

/-- Settles O26: `memRead_append`, on the bits two writes left and on any bits. -/
theorem adjacentFieldsConcatenate : Obligations.AdjacentFieldsConcatenate :=
  ⟨fun _ _ _ _ _ hs hv hw hnk hr => writeBits_writeBits_readBits hs hv hw hnk hr, memRead_split⟩

/-! ### Equal commands -/

section
variable {s : State} {n : Nat}

theorem unlessFaulted_constSize (h1 : 1 ≤ n) (h64 : n ≤ 64) (body : StepResult) :
    unlessFaulted s body = unlessFaulted s (constSize n s body) := by rw [constSize_within h1 h64]

end

/-- Settles O29. Equal commands call one body at the same width, where one of them has a domain check that the width
passes (`unlessFaulted_constSize`) or, for the encoders of reals, that the pattern passes. -/
theorem aliasesAreTheSameCommand : Obligations.AliasesAreTheSameCommand := by
  intro s v
  have const {n : Nat} (h1 : 1 ≤ n) (h64 : n ≤ 64) := unlessFaulted_constSize (s := s) h1 h64
  refine ⟨rfl, rfl, rfl, rfl, fun _ => rfl, const (by decide) (by decide) _, const (by decide) (by decide) _,
    const (by decide) (by decide) _, const (by decide) (by decide) _, const (by decide) (by decide) _,
    const (by decide) (by decide) _, const (by decide) (by decide) _, const (by decide) (by decide) _,
    const (by decide) (by decide) _, const (by decide) (by decide) _, const (by decide) (by decide) _,
    const (by decide) (by decide) _, fun _ => ⟨rfl, rfl⟩, fun h32 => ⟨?_, ?_⟩, fun h64 => ⟨?_, ?_⟩, rfl, rfl, rfl, rfl⟩
  · exact congrArg (unlessFaulted s) (encRealBe_of_fitsU (k := 4) h32)
  · exact congrArg (unlessFaulted s) (encRealLe_of_fitsU (k := 4) h32)
  · exact congrArg (unlessFaulted s) (encRealBe_of_fitsU (k := 8) h64)
  · exact congrArg (unlessFaulted s) (encRealLe_of_fitsU (k := 8) h64)

end Sys2Proof.Machine
end

section
/-!
The constrained integers of the generic codec (42_generic_codec.md R150, R151, R154) and its alignment to words (R158,
R159, R161, R162). DEC_INT over a range and DEC_ENUM read a field and check its value afterwards (`decChecked`); ENC_INT
is the check of its value and then `writeIfRoom`.
-/

namespace Sys2Proof.Machine

/-! ### Alignment to words -/

section
variable {s : State}

theorem exec_encAlignWord (hs : s.fault = false) : exec .encAlignWord s = encAlign 16 s := unlessFaulted_ready hs _

theorem exec_decAlignWord (hs : s.fault = false) : exec .decAlignWord s = decAlign 16 s := unlessFaulted_ready hs _

theorem exec_encAlignDword (hs : s.fault = false) : exec .encAlignDword s = encAlign 32 s := unlessFaulted_ready hs _

theorem exec_decAlignDword (hs : s.fault = false) : exec .decAlignDword s = decAlign 32 s := unlessFaulted_ready hs _

theorem align_clauses (hwf : s.buf.wf = true) {a g : Nat} (hg : IsPadding a s.pos g) :
    (room g s → WritesField (encAlign a s) s g 0 ∧ ReadsTo (decAlign a s) s g 0 []) ∧
    (¬ room g s → FailsWith (encAlign a s) s .insufficientData ∧ FailsWith (decAlign a s) s .insufficientData) := by
  obtain rfl := pad_eq_of_isPadding hg
  exact ⟨fun hr => ⟨encAlign_writesField hwf hr, decAlign_readsTo hr⟩,
    fun hr => ⟨encAlign_failsWith hr, decAlign_failsWith hr⟩⟩

end

/-- Settles O39: `align_clauses` at 16 and at 32. -/
theorem wordAlignment : Obligations.WordAlignment := by
  rintro s g ⟨hs, hwf⟩
  rw [exec_encAlignWord hs, exec_decAlignWord hs, exec_encAlignDword hs, exec_decAlignDword hs]
  exact ⟨align_clauses hwf, align_clauses hwf⟩

/-! ### Decoding a field whose value is checked -/

/-- What R151's range mode and R154 share: a field of `n` bits, refused behind it when it is `bad`, else the `value`
made of it. -/
def decChecked (n : Nat) (bad : Nat → Prop) [DecidablePred bad] (value : Nat → Int) (s : State) : StepResult :=
  if ¬ room n s then fail .insufficientData s else
  if bad (memRead s.buf s.pos n) then fail .constraintViolation (skipBits n s) else
  ok (value (memRead s.buf s.pos n)) n [] (skipBits n s)

section
variable {s : State} {n k b : Nat} {v lo hi : Int} {size : Option Nat} {bad : Nat → Prop} [DecidablePred bad]
  {value : Nat → Int}

theorem decChecked_readsTo (hr : room n s) (hgood : ¬ bad (memRead s.buf s.pos n)) :
    ReadsTo (decChecked n bad value s) s n (value (memRead s.buf s.pos n)) [] := by
  rw [decChecked, if_neg (not_not_intro hr), if_neg hgood]
  exact readsTo_setOk s n _ _

theorem decChecked_failsAfter (hr : room n s) (hbad : bad (memRead s.buf s.pos n)) :
    FailsAfter (decChecked n bad value s) s n .constraintViolation := by
  rw [decChecked, if_neg (not_not_intro hr), if_pos hbad]
  exact failsAfter_setErr s n _

theorem decChecked_failsWith (hr : ¬ room n s) : FailsWith (decChecked n bad value s) s .insufficientData := by
  rw [decChecked, if_pos hr]
  exact failsWith_setErr s _

/-! ### The width of a range -/

theorem bitLength_range (hle : lo ≤ hi) (hb : IsBitLength (hi - lo) b) : bitLength (hi - lo).toNat = b :=
  bitLength_unique (by rwa [Int.toNat_of_nonneg (Int.sub_nonneg_of_le hle)])

/-- An offset within the range fits the field. -/
theorem fitsU_offset (hb : IsBitLength (hi - lo) b) (hlo : lo ≤ v) (hhi : v ≤ hi) : fitsU (v - lo) b := by
  have h := hb.1
  exact ⟨by omega, by omega⟩

/-! ### ENC_INT -/

theorem exec_encInt_raises (hs : s.fault = false) (h : hi < lo ∨ 2 ^ 64 ≤ hi - lo) :
    exec (.encInt v lo hi size) s = contractFault s := by
  refine (unlessFaulted_ready hs _).trans ?_
  rcases h with h | h
  · exact if_pos h
  · exact (if_neg (by omega)).trans (if_pos h)

theorem exec_encInt_in_range (hs : s.fault = false) (hle : lo ≤ hi) (h64 : hi - lo < 2 ^ 64)
    (hb : IsBitLength (hi - lo) b) (hlo : lo ≤ v) (hhi : v ≤ hi) :
    exec (.encInt v lo hi size) s = writeIfRoom b (writeField b (v - lo).toNat s) s := by
  rw [← bitLength_range hle hb]
  exact (unlessFaulted_ready hs _).trans <| (if_neg (Int.not_lt.mpr hle)).trans <|
    (if_neg (Int.not_le.mpr h64)).trans (if_neg (by omega))

theorem exec_encInt_out_of_range (hs : s.fault = false) (hle : lo ≤ hi) (h64 : hi - lo < 2 ^ 64)
    (hv : v < lo ∨ hi < v) : exec (.encInt v lo hi size) s = .next (setErr .constraintViolation s) :=
  (unlessFaulted_ready hs _).trans <| (if_neg (Int.not_lt.mpr hle)).trans <|
    (if_neg (Int.not_le.mpr h64)).trans (if_pos hv)

end

/-- Settles O41: in the range the offset is written if there is room, and the value is checked before the room. -/
theorem constrainedEncode : Obligations.ConstrainedEncode := by
  rintro s v lo hi size b ⟨hs, hwf⟩
  refine ⟨fun hle h64 hb => ⟨fun hlo hhi hr => ?_, fun hlo hhi hr => ?_, fun hv => ?_⟩, fun hbad => ?_⟩
  · rw [exec_encInt_in_range hs hle h64 hb hlo hhi, writeIfRoom_of_room hr]
    exact writesField_setOk hwf (toNat_lt_of_fitsU (fitsU_offset hb hlo hhi))
  · rw [exec_encInt_in_range hs hle h64 hb hlo hhi]
    exact writeIfRoom_failsWith hr
  · rw [exec_encInt_out_of_range hs hle h64 hv]
    exact failsWith_setErr s _
  · rw [exec_encInt_raises hs hbad]
    exact raises_contractFault s

/-! ### DEC_INT -/

/-- The bounds of size mode that a value `x` breaks; at most one is supplied (R151). -/
def BreaksBound (lo hi : Option Int) (x : Nat) : Prop :=
  lo.any (fun l => decide ((x : Int) < l)) = true ∨ hi.any (fun h => decide (h < (x : Int))) = true

theorem breaksBound_iff {lo hi : Option Int} {x : Nat} :
    BreaksBound lo hi x ↔ (∃ l, lo = some l ∧ (x : Int) < l) ∨ ∃ h, hi = some h ∧ h < (x : Int) := by
  simp [BreaksBound, Option.any_eq_true]

section
variable {s : State} {n b : Nat} {lo hi : Int} {lo' hi' : Option Int} {size : Option Nat}

theorem exec_decInt_range_raises (hs : s.fault = false) (h : hi < lo ∨ 2 ^ 64 ≤ hi - lo) :
    exec (.decInt (some lo) (some hi) size) s = contractFault s := by
  refine (unlessFaulted_ready hs _).trans ?_
  rcases h with h | h
  · exact if_pos h
  · exact (if_neg (by omega)).trans (if_pos h)

theorem exec_decInt_range (hs : s.fault = false) (hle : lo ≤ hi) (h64 : hi - lo < 2 ^ 64)
    (hb : IsBitLength (hi - lo) b) :
    exec (.decInt (some lo) (some hi) size) s =
      decChecked b (fun x => hi < (x : Int) + lo) (fun x => (x : Int) + lo) s := by
  rw [← bitLength_range hle hb]
  exact (unlessFaulted_ready hs _).trans <| (if_neg (Int.not_lt.mpr hle)).trans (if_neg (Int.not_le.mpr h64))

theorem exec_decInt_sized (hs : s.fault = false) (h : lo' = none ∨ hi' = none) (n : Nat) :
    exec (.decInt lo' hi' (some n)) s = decIntSized lo' hi' n s := by
  refine (unlessFaulted_ready hs _).trans ?_
  match lo', hi' with
  | none, _ => rfl
  | some _, none => rfl
  | some _, some _ => simp at h

theorem exec_decInt_unsized (hs : s.fault = false) (h : lo' = none ∨ hi' = none) :
    exec (.decInt lo' hi' none) s = .next (setErr .invalidValue s) := by
  refine (unlessFaulted_ready hs _).trans ?_
  match lo', hi' with
  | none, _ => rfl
  | some _, none => rfl
  | some _, some _ => simp at h

theorem decIntSized_beyond (hn : 64 < n) : decIntSized lo' hi' n s = contractFault s := if_pos hn

theorem decIntSized_failsWith (hn : n ≤ 64) (hr : ¬ room n s) :
    FailsWith (decIntSized lo' hi' n s) s .insufficientData := by
  have e : decIntSized lo' hi' n s = .next (setErr .insufficientData s) :=
    (if_neg (Nat.not_lt.mpr hn)).trans (if_pos hr)
  rw [e]
  exact failsWith_setErr s _

theorem decIntSized_readsTo (hn : n ≤ 64) (hr : room n s) (h : ¬ BreaksBound lo' hi' (memRead s.buf s.pos n)) :
    ReadsTo (decIntSized lo' hi' n s) s n (memRead s.buf s.pos n) [] := by
  obtain ⟨hlo, hhi⟩ := not_or.mp h
  have e : decIntSized lo' hi' n s = .next (setOk (memRead s.buf s.pos n) n [] (skipBits n s)) :=
    (if_neg (Nat.not_lt.mpr hn)).trans <| (if_neg (not_not_intro hr)).trans <| (if_neg hlo).trans (if_neg hhi)
  rw [e]
  exact readsTo_setOk s n _ _

theorem decIntSized_failsAfter (hn : n ≤ 64) (hr : room n s) (h : BreaksBound lo' hi' (memRead s.buf s.pos n)) :
    FailsAfter (decIntSized lo' hi' n s) s n .constraintViolation := by
  have e : decIntSized lo' hi' n s = .next (setErr .constraintViolation (skipBits n s)) := by
    refine (if_neg (Nat.not_lt.mpr hn)).trans <| (if_neg (not_not_intro hr)).trans ?_
    by_cases hlo : lo'.any (fun l => decide ((memRead s.buf s.pos n : Int) < l)) = true
    · exact if_pos hlo
    · exact (if_neg hlo).trans (if_pos (h.resolve_left hlo))
  rw [e]
  exact failsAfter_setErr s n _

end

/-- Settles O42: range mode is `decChecked`, size mode `decIntSized`, and without a size DEC_INT fails at once. -/
theorem constrainedDecode : Obligations.ConstrainedDecode := by
  refine ⟨fun s lo hi size b hs => ⟨fun hle h64 hb => ?_, fun hbad => ?_⟩, fun s lo hi n hs hone => ?_⟩
  · rw [exec_decInt_range hs.1 hle h64 hb]
    exact ⟨fun hr hin => decChecked_readsTo hr (Int.not_lt.mpr hin), fun hr hout => decChecked_failsAfter hr hout,
      decChecked_failsWith⟩
  · rw [exec_decInt_range_raises hs.1 hbad]
    exact raises_contractFault s
  · rw [exec_decInt_sized hs.1 hone, exec_decInt_unsized hs.1 hone]
    refine ⟨fun hn hr hlo hhi => decIntSized_readsTo hn hr ?_, fun hn hr l hl hlt => ?_, fun hn hr h hh hlt => ?_,
      decIntSized_failsWith, fun hn => ?_, failsWith_setErr s _⟩
    · rw [breaksBound_iff]
      rintro (⟨l, hl, hlt⟩ | ⟨h, hh, hlt⟩)
      · exact Int.not_lt.mpr (hlo l hl) hlt
      · exact Int.not_lt.mpr (hhi h hh) hlt
    · exact decIntSized_failsAfter hn hr (breaksBound_iff.mpr (.inl ⟨l, hl, hlt⟩))
    · exact decIntSized_failsAfter hn hr (breaksBound_iff.mpr (.inr ⟨h, hh, hlt⟩))
    · rw [decIntSized_beyond hn]
      exact raises_contractFault s

/-! ### DEC_ENUM -/

section
variable {s : State} {k b x : Nat}

theorem exec_decEnum_zero (hs : s.fault = false) : exec (.decEnum 0) s = contractFault s := unlessFaulted_ready hs _

theorem exec_decEnum (hs : s.fault = false) (hk : 1 ≤ k) (hb : IsBitLength ((k : Int) - 1) b) :
    exec (.decEnum k) s = decChecked b (fun x => k ≤ x) (fun x => x) s := by
  have hwidth : bitLength (k - 1) = b := bitLength_unique (by rwa [Nat.cast_sub hk, Nat.cast_one])
  rw [← hwidth]
  exact (unlessFaulted_ready hs _).trans (if_neg (Nat.one_le_iff_ne_zero.mp hk))

/-- The index that ENC_INT wrote over `0 … k − 1` reads back (R154). -/
theorem encInt_decEnum (hs : Ready s) (hk : 1 ≤ k) (hb : IsBitLength ((k : Int) - 1) b) (hx : x < k)
    (h64 : k ≤ 2 ^ 64) (hr : room b s) :
    ∃ t, runOk [.encInt x 0 (k - 1) none, .bbSetPos s.pos, .decEnum k] s = some t ∧ ReportsOk t x b [] := by
  obtain ⟨hf, hwf⟩ := hs
  have hb' : IsBitLength ((k : Int) - 1 - 0) b := by rwa [Int.sub_zero]
  have hfits : fitsU ((x : Int) - 0) b := fitsU_offset hb' (by omega) (by omega)
  have henc : exec (.encInt x 0 (k - 1) none) s = .next (setOk 0 b [] (writeField b ((x : Int) - 0).toNat s)) := by
    rw [exec_encInt_in_range hf (by omega) (by omega) hb' (by omega) (by omega), writeIfRoom_of_room hr]
  have hread : memRead (writeField b ((x : Int) - 0).toNat s).buf s.pos b = x := by
    have h := memRead_writeField hwf hfits
    omega
  have hdec := decChecked_readsTo (n := b) (bad := fun y => k ≤ y) (value := fun y => y)
    (s := rewound s.pos (setOk 0 b [] (writeField b ((x : Int) - 0).toNat s))) hr
    (by rw [rewound_buf, rewound_pos, setOk_buf, hread]; omega)
  rw [← exec_decEnum (by exact hf) hk hb, rewound_buf, rewound_pos, setOk_buf, hread] at hdec
  obtain ⟨t, hrun, hreports, -⟩ := runOk_rewind (p := s.pos) henc rfl hf (pos_le_cap_of_room hr) hdec
  exact ⟨t, hrun, hreports⟩

end

/-- Settles O44: DEC_ENUM is `decChecked` with the index itself. -/
theorem enumIndexDecode : Obligations.EnumIndexDecode := by
  intro s k b hs
  refine ⟨fun hk hb => ⟨fun hr hlt => ?_, fun hr hge => ?_, fun hr => ?_,
    fun x hx h64 hr => encInt_decEnum hs hk hb hx h64 hr⟩, fun hk => ?_⟩
  · rw [exec_decEnum hs.1 hk hb]
    exact decChecked_readsTo hr (Nat.not_le.mpr hlt)
  · rw [exec_decEnum hs.1 hk hb]
    exact decChecked_failsAfter hr hge
  · rw [exec_decEnum hs.1 hk hb]
    exact decChecked_failsWith hr
  · rw [hk, exec_decEnum_zero hs.1]
    exact raises_contractFault s

end Sys2Proof.Machine
end

section
/-!
The round trips of the codec (42_generic_codec.md R168). `RoundTrips` says it of one encoder's outcome and one decoder.
An encoder that did not succeed satisfies it for nothing; one that did left fields that its claim names (`EncodesField`,
`EncodesRun`, …), and a state that carries the same bits (`Carries`) has the same fields, from which the decoder's claim
gives the value. A sequence is then an induction: later encoders leave the bits behind the cursor alone (`Onward`).
-/

namespace Sys2Proof.Machine

/-- `s'` stands where `s` stood, and has at the cursor the bits that the encoder which led from `s` to `t` produced. -/
structure Carries (s t s' : State) : Prop where
  fault : s'.fault = false
  pos : s'.pos = s.pos
  cap : s'.cap = s.cap
  bits : ∀ q, s.pos ≤ q → q < s.pos + t.bits → bitAt s'.buf q = bitAt t.buf q

/-- If the outcome `e` of an encoder on `s` is a success, then on every state that carries what it wrote the decoder `d`
returns `val` and `data` and consumes as many bits as the encoder produced. -/
def RoundTrips (s : State) (e : StepResult) (d : State → StepResult) (val : Int) (data : List Byte) : Prop :=
  ∀ t s', e = .next t → t.success = true → Carries s t s' → ReadsTo (d s') s' t.bits val data

section
variable {s t s' : State} {e : StepResult} {d : State → StepResult} {val v : Int} {data din : List Byte}
  {n m k w u : Nat} {f : Nat → Nat} {c : ErrCode} {i j : Instr}

theorem Carries.field (h : Carries s t s') (hbits : m + n ≤ t.bits) :
    memRead s'.buf (s'.pos + m) n = memRead t.buf (s.pos + m) n := by
  rw [h.pos]
  exact memRead_congr fun q hlo hhi => h.bits q (by omega) (by omega)

theorem Carries.room (h : Carries s t s') (hr : room n s) : room n s' := by
  unfold Machine.room
  rw [h.pos, h.cap]
  exact hr

/-! ### Outcomes of an encoder -/

theorem RoundTrips.of_failsWith (h : FailsWith e s c) : RoundTrips s e d val data := by
  rintro t s' rfl succeeded -
  obtain ⟨_, ⟨⟩, -, failed, -⟩ := h
  simp [failed] at succeeded

theorem RoundTrips.of_raises (h : RaisesContractFault e s) : RoundTrips s e d val data := by
  rintro t s' rfl - -
  obtain ⟨_, ⟨⟩, -⟩ := h

theorem RoundTrips.of_field (h : EncodesField e s n u) (hr : Machine.room n s)
    (hd : ∀ s', s'.fault = false → Machine.room n s' → memRead s'.buf s'.pos n = u → ReadsTo (d s') s' n val data) :
    RoundTrips s e d val data := by
  rintro t s' rfl - hc
  obtain ⟨_, ⟨⟩, -, hfield, -, -, -, hbits⟩ := h
  rw [hbits]
  exact hd s' hc.fault (hc.room hr) ((hc.field (m := 0) (by omega)).trans hfield)

theorem RoundTrips.of_run (h : EncodesRun e s w k f) (hr : Machine.room (w * k) s)
    (hd : ∀ s', s'.fault = false → Machine.room (w * k) s' → (∀ a < k, memRead s'.buf (s'.pos + w * a) w = f a) →
      ReadsTo (d s') s' (w * k) val data) : RoundTrips s e d val data := by
  rintro t s' rfl - hc
  obtain ⟨_, ⟨⟩, -, hfields, -, -, -, hbits⟩ := h
  rw [hbits]
  refine hd s' hc.fault (hc.room hr) fun a ha => (hc.field ?_).trans (hfields a ha)
  rw [hbits, ← Nat.mul_succ]
  exact Nat.mul_le_mul_left w ha

theorem RoundTrips.of_lengthPrefixed (h : WritesLengthPrefixed e s k u) (hr : Machine.room (8 + 8 * k) s)
    (hd : ∀ s', s'.fault = false → Machine.room (8 + 8 * k) s' → memRead s'.buf s'.pos 8 = k →
      memRead s'.buf (s'.pos + 8) (8 * k) = u → ReadsTo (d s') s' (8 + 8 * k) val data) :
    RoundTrips s e d val data := by
  rintro t s' rfl - hc
  obtain ⟨_, ⟨⟩, -, hcount, hfield, -, -, -, hbits⟩ := h
  rw [hbits]
  exact hd s' hc.fault (hc.room hr) ((hc.field (m := 0) (by omega)).trans hcount)
    ((hc.field (by omega)).trans hfield)

theorem RoundTrips.of_counted {count : Nat} (h : WritesCounted e s count w k f) (hr : Machine.room (8 + w * k) s)
    (hd : ∀ s', s'.fault = false → Machine.room (8 + w * k) s' → memRead s'.buf s'.pos 8 = count →
      (∀ a < k, memRead s'.buf (s'.pos + 8 + w * a) w = f a) → ReadsTo (d s') s' (8 + w * k) val data) :
    RoundTrips s e d val data := by
  rintro t s' rfl - hc
  obtain ⟨_, ⟨⟩, -, hcount, hfields, -, -, -, hbits⟩ := h
  rw [hbits]
  refine hd s' hc.fault (hc.room hr) ((hc.field (m := 0) (by omega)).trans hcount) fun a ha => ?_
  have hfit : w * (a + 1) ≤ w * k := Nat.mul_le_mul_left w ha
  rw [Nat.add_assoc, hc.field (by rw [hbits, Nat.mul_succ] at *; omega), ← Nat.add_assoc]
  exact hfields a ha

theorem RoundTrips.congr {d' : State → StepResult} (h : RoundTrips s e d val data)
    (hd : ∀ s', s'.fault = false → d' s' = d s') : RoundTrips s e d' val data := by
  intro t s' he hok hc
  rw [hd s' hc.fault]
  exact h t s' he hok hc

theorem RoundTrips.unlessFaulted (hs : s.fault = false) (h : RoundTrips s e d val data) :
    RoundTrips s (unlessFaulted s e) (fun s' => unlessFaulted s' (d s')) val data := by
  rw [unlessFaulted_ready hs]
  exact h.congr fun s' hs' => unlessFaulted_ready hs' _

/-- The domain check of the unsigned encoders of variable size (R220, R241, R243, R245). -/
theorem RoundTrips.of_value (hneg : v < 0 → FailsWith e s c) (hbig : 2 ^ 64 ≤ v → RaisesContractFault e s)
    (h : fitsU v 64 → RoundTrips s e d val data) : RoundTrips s e d val data := by
  by_cases h0 : v < 0
  · exact .of_failsWith (hneg h0)
  · by_cases h64 : 2 ^ 64 ≤ v
    · exact .of_raises (hbig h64)
    · exact h ⟨Int.not_lt.mp h0, Int.not_le.mp h64⟩

/-! ### Unsigned fields -/

theorem encPos_roundTrips (hwf : s.buf.wf = true) : RoundTrips s (encPos n v s) (decPos n) v [] := by
  by_cases hv : fitsU v n
  · by_cases hr : room n s
    · refine .of_field (encPos_writesField hwf hv hr).encodes hr fun s' _ hr' hfield => ?_
      have hread := decPos_readsTo hr'
      rwa [hfield, Int.toNat_of_nonneg hv.1] at hread
    · exact .of_failsWith (encPos_failsWith_of_not_room hv hr)
  · exact .of_failsWith (encPos_failsWith_of_not_fitsU hv)

theorem encWidth_roundTrips (hwf : s.buf.wf = true) : RoundTrips s (encWidth n v s) (decWidth n) v [] := by
  by_cases hn : n ≤ 64
  · rw [encWidth_within hn]
    exact .congr (encPos_roundTrips hwf) fun s' _ => decWidth_within hn s'
  · rw [encWidth_beyond (Nat.not_le.mp hn)]
    exact .of_raises (raises_contractFault s)

theorem constSize_roundTrips (h : 1 ≤ n → RoundTrips s e d val data) :
    RoundTrips s (constSize n s e) (fun s' => constSize n s' (d s')) val data := by
  by_cases hn : n < 1 ∨ 64 < n
  · exact .of_raises (constSize_raises hn e)
  · have h1 : 1 ≤ n := by omega
    have h64 : n ≤ 64 := by omega
    simp only [constSize_within h1 h64]
    exact h h1

theorem encRealBe_roundTrips (hwf : s.buf.wf = true) : RoundTrips s (encRealBe k v s) (decPos (8 * k)) v [] := by
  by_cases hv : fitsU v (8 * k)
  · rw [encRealBe_of_fitsU hv]
    exact encPos_roundTrips hwf
  · exact .of_raises (encRealBe_raises hv)

/-! ### Two's complement fields -/

theorem encTc_roundTrips (hwf : s.buf.wf = true) (hn : 1 ≤ n) : RoundTrips s (encTc n v s) (decTc n) v [] := by
  by_cases hv : fitsS v n
  · by_cases hr : room n s
    · refine .of_field (encTc_writesField hwf hn hv hr).encodes hr fun s' _ hr' hfield => ?_
      have hread := decTc_readsTo hr'
      rwa [hfield, ← toU_eq_emod hn hv, sext_toU hn hv] at hread
    · exact .of_failsWith (encTc_failsWith_of_not_room hv hr)
  · exact .of_failsWith (encTc_failsWith_of_not_fitsS hv)

/-! ### Bytes, the least significant first -/

/-- The bytes of a number, found again one by one, are the number (R180). -/
theorem littleEndianAt_eq_of_bytes {mem : Memory} {p : Nat} (hu : u < 256 ^ k)
    (h : ∀ a < k, memRead mem (p + 8 * a) 8 = u / 256 ^ a % 256) : littleEndianAt mem p k = u := by
  induction k generalizing p u with
  | zero =>
    rw [Nat.pow_zero] at hu
    rw [littleEndianAt, Finset.range_zero, Finset.sum_empty]
    omega
  | succ k ih =>
    have hfirst : byteAt mem p 0 = u % 256 := by simpa [byteAt] using h 0 (Nat.succ_pos k)
    have hrest : littleEndianAt mem (p + 8) k = u / 256 := by
      refine ih (by rw [Nat.pow_succ] at hu; omega) fun a ha => ?_
      rw [show p + 8 + 8 * a = p + 8 * (a + 1) by omega, h (a + 1) (by omega), Nat.pow_succ', Nat.div_div_eq_div_mul]
    rw [littleEndianAt_succ, hfirst, hrest, Nat.mod_add_div]

theorem encLe_roundTrips (hwf : s.buf.wf = true) {value : Nat → Int} (hu : u < 2 ^ (8 * k)) (hval : value u = val) :
    RoundTrips s (encLe k u s) (decLe k value) val [] := by
  by_cases hr : room (8 * k) s
  · refine .of_run (encLe_writesRun hwf u hr).encodes hr fun s' _ hr' hfields => ?_
    have hread := decLe_readsTo value hr'
    rwa [littleEndianAt_eq_of_bytes (by rwa [Nat.pow_mul] at hu) hfields, hval] at hread
  · exact .of_failsWith (encLe_failsWith u hr)

theorem encPosLe_roundTrips (hwf : s.buf.wf = true) : RoundTrips s (encPosLe k v s) (decLe k Int.ofNat) v [] := by
  by_cases hv : fitsU v (8 * k)
  · rw [encPosLe_of_fitsU hv]
    exact encLe_roundTrips hwf (toNat_lt_of_fitsU hv) (Int.toNat_of_nonneg hv.1)
  · exact .of_failsWith (encPosLe_failsWith hv)

theorem encTcLe_roundTrips (hwf : s.buf.wf = true) (hk : 1 ≤ k) :
    RoundTrips s (encTcLe k v s) (decLe k (sext (8 * k))) v [] := by
  have hn : 1 ≤ 8 * k := by omega
  by_cases hv : fitsS v (8 * k)
  · rw [encTcLe_of_fitsS hv]
    exact encLe_roundTrips hwf (toU_lt hn hv) (sext_toU hn hv)
  · exact .of_failsWith (encTcLe_failsWith hv)

theorem encRealLe_roundTrips (hwf : s.buf.wf = true) : RoundTrips s (encRealLe k v s) (decLe k Int.ofNat) v [] := by
  by_cases hv : fitsU v (8 * k)
  · rw [encRealLe_of_fitsU hv]
    exact encPosLe_roundTrips hwf
  · exact .of_raises (encRealLe_raises hv)

/-! ### NULL, alignment, octet arrays -/

theorem null_roundTrips : RoundTrips s (ok 0 0 [] s) (fun s' => ok 0 0 [] s') 0 [] := by
  rintro _ s' ⟨⟩ - -
  exact answers_setOk s' 0 []

theorem encAlign_roundTrips {a : Nat} : RoundTrips s (encAlign a s) (decAlign a) 0 [] := by
  rcases encAlign_cases a s with ⟨hr, e⟩ | ⟨-, e⟩
  · rw [e]
    rintro _ s' ⟨⟩ - hc
    have hread := decAlign_readsTo (a := a) (by rw [hc.pos]; exact hc.room hr)
    rwa [hc.pos] at hread
  · rw [e]
    exact .of_failsWith (failsWith_setErr s _)

theorem octets_roundTrips (hwf : s.buf.wf = true) :
    RoundTrips s (encBytes din s) (exec (.decOctetsNolen din.length)) 0 din := by
  by_cases hr : room (8 * din.length) s
  · refine .of_run (encBytes_writesRun hwf hr).encodes hr fun s' hs' hr' hfields => ?_
    have hread := decOctetsNolen_readsTo hs' hr'
    rwa [readBytes_eq_of_fields fun a ha => by rw [hfields a ha, List.getD_eq_getElem _ _ ha]] at hread
  · exact .of_failsWith (encBytes_failsWith hr)

/-! ### Constrained integers -/

theorem encInt_roundTrips (hs : Ready s) (v lo hi : Int) (size : Option Nat) :
    RoundTrips s (exec (.encInt v lo hi size) s) (exec (.decInt (some lo) (some hi) none)) v [] := by
  obtain ⟨hf, hwf⟩ := hs
  by_cases hrange : hi < lo ∨ 2 ^ 64 ≤ hi - lo
  · rw [exec_encInt_raises hf hrange]
    exact .of_raises (raises_contractFault s)
  · have hle : lo ≤ hi := by omega
    have h64 : hi - lo < 2 ^ 64 := by omega
    have hb : IsBitLength (hi - lo) (bitLength (hi - lo).toNat) := by
      have h := isBitLength_bitLength (hi - lo).toNat
      rwa [Int.toNat_of_nonneg (Int.sub_nonneg_of_le hle)] at h
    obtain ⟨hwrites, hshort, hbad⟩ := (constrainedEncode s v lo hi size _ ⟨hf, hwf⟩).1 hle h64 hb
    by_cases hv : v < lo ∨ hi < v
    · exact .of_failsWith (hbad hv)
    · have hlo : lo ≤ v := by omega
      have hhi : v ≤ hi := by omega
      by_cases hr : room (bitLength (hi - lo).toNat) s
      · refine .of_field (hwrites hlo hhi hr).encodes hr fun s' hs' hr' hfield => ?_
        have hvalue : (memRead s'.buf s'.pos (bitLength (hi - lo).toNat) : Int) + lo = v := by
          rw [hfield, Int.toNat_of_nonneg (Int.sub_nonneg_of_le hlo), Int.sub_add_cancel]
        rw [exec_decInt_range hs' hle h64 hb]
        have hread := decChecked_readsTo (bad := fun x => hi < (x : Int) + lo) (value := fun x => (x : Int) + lo) hr'
          (by rw [hvalue]; exact Int.not_lt.mpr hhi)
        rwa [hvalue] at hread
      · exact .of_failsWith (hshort hlo hhi hr)

/-! ### Length-embedded integers -/

theorem encCounted_roundTrips (hwf : s.buf.wf = true) {value : Nat → Nat → Int} (hk : k ≤ 8) (hu : u < 2 ^ (8 * k))
    (hval : value k u = val) : RoundTrips s (encCounted k u s) (decCounted value) val [] := by
  by_cases hr : room (8 + 8 * k) s
  · refine .of_lengthPrefixed (encCounted_writesLengthPrefixed hwf hk hu hr) hr fun s' _ hr' hcount hfield => ?_
    have hread := decCounted_readsTo (value := value) hcount hk hr'
    rwa [hfield, hval] at hread
  · exact .of_failsWith (encCounted_failsWith hr)

theorem acnEncPosVar_roundTrips (hs : Ready s) (v : Int) :
    RoundTrips s (exec (.acnEncPosVar v) s) (exec .acnDecPosVar) v [] := by
  obtain ⟨-, hneg, hbig, -⟩ := variableSizeUnsigned s v 0 hs
  refine .of_value hneg hbig fun hv => ?_
  rw [exec_acnEncPosVar_of_fitsU hs.1 hv]
  exact .congr (encCounted_roundTrips hs.2 (ubytes_le_eight (toNat_lt_of_fitsU hv)) (lt_two_pow_ubytes _)
    (Int.toNat_of_nonneg hv.1)) fun _ => exec_acnDecPosVar

theorem acnEncTcVar_roundTrips (hs : Ready s) (v : Int) :
    RoundTrips s (exec (.acnEncTcVar v) s) (exec .acnDecTcVar) v [] := by
  obtain ⟨hf, hwf⟩ := hs
  by_cases hv : fitsS v 64
  · have h1 := one_le_sbytes v
    have hwidth : 1 ≤ 8 * sbytes v := by omega
    rw [exec_acnEncTcVar_of_fitsS hf hv]
    refine .congr (encCounted_roundTrips hwf (sbytes_le_eight hv) (toU_lt hwidth (fitsS_sbytes v)) ?_)
      fun s' => exec_acnDecTcVar
    rw [signedPayload_pos h1, sext_toU hwidth (fitsS_sbytes v)]
  · rw [exec_acnEncTcVar_of_not_fitsS hf hv]
    exact .of_raises (raises_contractFault s)

/-! ### BCD -/

/-- The value path that returns no bytes: what O60 adds to a decoder's claim. -/
theorem DecodesTo.readsTo (h : DecodesTo (exec j s) s n v) (hj : returnsBytes j = false) :
    ReadsTo (exec j s) s n v [] := by
  obtain ⟨t, hexec, hreads, hok, herr, hval, hbits⟩ := h
  exact ⟨t, hexec, hreads, hok, herr, hval, hbits, doutIsEmptyUnlessBytesReturned j s t hexec hok hj⟩

/-- The low `k` digits of a number, found again one by one, spell the number (R240). -/
theorem decimalAt_eq_of_digits {mem : Memory} {p : Nat} (hu : u < 10 ^ k)
    (h : ∀ a < k, nibbleAt mem p a = u / 10 ^ (k - 1 - a) % 10) : decimalAt mem p k = u := by
  have key : decimalAt mem p k = u % 10 ^ k := by
    clear hu
    induction k generalizing p with
    | zero => rw [decimalAt, Finset.range_zero, Finset.sum_empty, Nat.pow_zero, Nat.mod_one]
    | succ k ih =>
      have hfirst : nibbleAt mem p 0 = u / 10 ^ k % 10 := h 0 (Nat.succ_pos k)
      have hrest : decimalAt mem (p + 4) k = u % 10 ^ k := ih fun a ha => by
        rw [nibbleAt_skip, h (a + 1) (by omega), show k + 1 - 1 - (a + 1) = k - 1 - a by omega]
      rw [decimalAt_succ, hfirst, hrest, Nat.mod_pow_succ]
      ring
  rw [key, Nat.mod_eq_of_lt hu]

theorem nibble_le_nine {mem : Memory} {p : Nat} (h : ∀ a < k, nibbleAt mem p a = u / 10 ^ (k - 1 - a) % 10) :
    ∀ a < k, nibbleAt mem p a ≤ 9 := fun a ha => by
  rw [h a ha]
  omega

/-- What `decDigits` makes of the digits of a number below 2^64. -/
theorem decDigits_decodes (hu : u < 10 ^ k) (h64 : u < 2 ^ 64)
    (h : ∀ a < k, nibbleAt s.buf (s.pos + m) a = u / 10 ^ (k - 1 - a) % 10) :
    DecodesTo (decDigits m k s) s (m + 4 * k) u := by
  have hdecodes := (decDigits_clauses (nibble_le_nine h)).1
  rw [decimalAt_eq_of_digits hu h] at hdecodes
  exact hdecodes h64

theorem acnDecBcdNt_decodes (hs : s.fault = false) (hr : room (4 * k + 4) s) (hk : k ≤ 20) (hu : u < 10 ^ k)
    (h64 : u < 2 ^ 64) (h : ∀ a < k, nibbleAt s.buf s.pos a = u / 10 ^ (k - 1 - a) % 10)
    (h15 : nibbleAt s.buf s.pos k = 15) : DecodesTo (exec .acnDecBcdNt s) s (4 * k + 4) u := by
  rw [exec_acnDecBcdNt_sentinel hs hk (nibble_le_nine h) hr h15, decimalAt_eq_of_digits hu h]
  exact bcdResult_decodes h64

theorem acnEncBcdConst_roundTrips (hs : Ready s) (n : Nat) (v : Int) :
    RoundTrips s (exec (.acnEncBcdConst n v) s) (exec (.acnDecBcdConst n)) v [] := by
  obtain ⟨hin, hout, hbig⟩ := bcdConstantSize s n v hs
  by_cases hn : n < 1 ∨ 20 < n
  · exact .of_raises (hout hn).1
  · have h1 : 1 ≤ n := by omega
    have h20 : n ≤ 20 := by omega
    obtain ⟨hwrites, hbad, hshort, -⟩ := hin h1 h20
    refine .of_value (fun h => hbad (.inl h)) hbig fun hv => ?_
    have ⟨h0, h64⟩ := hv
    by_cases hfits : v < 10 ^ n
    · have hu : v.toNat < 10 ^ n := (Int.toNat_lt h0).mpr (by exact_mod_cast hfits)
      by_cases hr : room (4 * n) s
      · refine .of_run (hwrites h0 h64 hfits hr) hr fun s' hs' hr' hfields => ?_
        have hdecodes := decDigits_decodes (s := s') (m := 0) hu (toNat_lt_of_fitsU hv) hfields
        rw [Int.toNat_of_nonneg h0, Nat.zero_add, ← exec_acnDecBcdConst_of_room hs' h1 h20 hr'] at hdecodes
        exact hdecodes.readsTo rfl
      · exact .of_failsWith (hshort h0 h64 hfits hr)
    · exact .of_failsWith (hbad (.inr ⟨h64, Int.not_lt.mp hfits⟩))

theorem isDigitCount_toNat (h0 : 0 ≤ v) : IsDigitCount v (ndigits v.toNat) := by
  have h := isDigitCount_ndigits v.toNat
  rwa [Int.toNat_of_nonneg h0] at h

theorem acnEncBcdVar_roundTrips (hs : Ready s) (v : Int) :
    RoundTrips s (exec (.acnEncBcdVar v) s) (exec .acnDecBcdVar) v [] := by
  obtain ⟨hin, hneg, hbig, -⟩ := bcdLengthEmbedded s v (ndigits v.toNat) hs
  refine .of_value hneg hbig fun hv => ?_
  have ⟨h0, h64⟩ := hv
  have hu64 := toNat_lt_of_fitsU hv
  obtain ⟨hwrites, hshort⟩ := hin h0 h64 (isDigitCount_toNat h0)
  by_cases hr : room (8 + 4 * ndigits v.toNat) s
  · refine .of_counted (hwrites hr) hr fun s' hs' hr' hlength hfields => ?_
    have hdecodes := decDigits_decodes (s := s') (m := 8) (ndigits_spec v.toNat).1 hu64 hfields
    rw [Int.toNat_of_nonneg h0, ← exec_acnDecBcdVar_of_room hs' hlength (ndigits_le_twenty hu64) hr'] at hdecodes
    exact hdecodes.readsTo rfl
  · exact .of_failsWith (hshort hr)

theorem acnEncBcdNt_roundTrips (hs : Ready s) (v : Int) :
    RoundTrips s (exec (.acnEncBcdNt v) s) (exec .acnDecBcdNt) v [] := by
  obtain ⟨hin, hneg, hbig, -⟩ := bcdTerminated s v (ndigits v.toNat) hs
  refine .of_value hneg hbig fun hv => ?_
  have ⟨h0, h64⟩ := hv
  have hu64 := toNat_lt_of_fitsU hv
  obtain ⟨hwrites, hshort⟩ := hin h0 h64 (isDigitCount_toNat h0)
  by_cases hr : room (4 * ndigits v.toNat + 4) s
  · refine .of_run (hwrites hr) hr fun s' hs' hr' hfields => ?_
    have hdecodes := acnDecBcdNt_decodes hs' hr' (ndigits_le_twenty hu64) (ndigits_spec v.toNat).1 hu64
      (fun a ha => (hfields a (by omega)).trans (if_neg (Nat.ne_of_lt ha)))
      ((hfields _ (Nat.lt_succ_self _)).trans (if_pos rfl))
    rw [Int.toNat_of_nonneg h0] at hdecodes
    exact hdecodes.readsTo rfl
  · exact .of_failsWith (hshort hr)

/-! ### Every pair -/

theorem pair_roundTrips (hpair : pairedDecoder i = some j) (hs : Ready s) :
    RoundTrips s (exec i s) (exec j) (encodedValue i) (encodedBytes i) := by
  have ⟨hf, hwf⟩ := hs
  cases i with
  | encInt v lo hi size =>
    cases hpair
    exact encInt_roundTrips hs v lo hi size
  | encUint | acnEncLength =>
    cases hpair
    exact .unlessFaulted hf (encWidth_roundTrips hwf)
  | encNull =>
    cases hpair
    exact .unlessFaulted hf null_roundTrips
  | encAlignByte | encAlignWord | encAlignDword =>
    cases hpair
    exact .unlessFaulted hf encAlign_roundTrips
  | encAppendBytes din =>
    cases hpair
    rw [exec_encAppendBytes hf]
    exact octets_roundTrips hwf
  | encOctetsNolen din =>
    cases hpair
    rw [exec_encOctetsNolen hf]
    exact octets_roundTrips hwf
  | acnEncPosConst =>
    cases hpair
    exact .unlessFaulted hf (constSize_roundTrips fun _ => encPos_roundTrips hwf)
  | acnEncTcConst =>
    cases hpair
    exact .unlessFaulted hf (constSize_roundTrips fun hn => encTc_roundTrips hwf hn)
  | acnEncPosVar v =>
    cases hpair
    exact acnEncPosVar_roundTrips hs v
  | acnEncTcVar v =>
    cases hpair
    exact acnEncTcVar_roundTrips hs v
  | acnEncPosBe16 | acnEncPosBe32 | acnEncPosBe64 =>
    cases hpair
    exact .unlessFaulted hf (encPos_roundTrips hwf)
  | acnEncPosLe16 | acnEncPosLe32 | acnEncPosLe64 =>
    cases hpair
    exact .unlessFaulted hf (encPosLe_roundTrips hwf)
  | acnEncTcBe16 | acnEncTcBe32 | acnEncTcBe64 =>
    cases hpair
    exact .unlessFaulted hf (encTc_roundTrips hwf (by decide))
  | acnEncTcLe16 | acnEncTcLe32 | acnEncTcLe64 =>
    cases hpair
    exact .unlessFaulted hf (encTcLe_roundTrips hwf (by decide))
  | acnEncBcdConst n v =>
    cases hpair
    exact acnEncBcdConst_roundTrips hs n v
  | acnEncBcdVar v =>
    cases hpair
    exact acnEncBcdVar_roundTrips hs v
  | acnEncBcdNt v =>
    cases hpair
    exact acnEncBcdNt_roundTrips hs v
  | acnEncReal32Be v =>
    cases hpair
    exact .unlessFaulted hf (encRealBe_roundTrips (k := 4) hwf)
  | acnEncReal64Be v =>
    cases hpair
    exact .unlessFaulted hf (encRealBe_roundTrips (k := 8) hwf)
  | acnEncReal32Le | acnEncReal64Le =>
    cases hpair
    exact .unlessFaulted hf (encRealLe_roundTrips hwf)
  | _ => cases hpair

end

/-- Settles O30, by `pair_roundTrips`. -/
theorem everyPairRoundTrips : Obligations.EveryPairRoundTrips :=
  fun _ _ _ t s' hpair hs hexec hok hfault hpos hcap hbits =>
  pair_roundTrips hpair hs t s' hexec hok ⟨hfault, hpos, hcap, hbits⟩

/-! ### Sequences -/

/-- `t` is `s` some encoders later: the bits before the cursor of `s` are as they were. -/
structure Onward (s t : State) : Prop where
  ready : Ready t
  cap : t.cap = s.cap
  pos : s.pos ≤ t.pos
  before : ∀ q < s.pos, bitAt t.buf q = bitAt s.buf q

section
variable {s t u : State} {i j : Instr} {is ds : List Instr}

theorem Onward.trans (h : Onward s t) (h' : Onward t u) : Onward s u where
  ready := h'.ready
  cap := h'.cap.trans h.cap
  pos := h.pos.trans h'.pos
  before q hq := (h'.before q (Nat.lt_of_lt_of_le hq h.pos)).trans (h.before q hq)

theorem placesCursor_of_paired (h : pairedDecoder i = some j) : placesCursor i = false := by
  cases i with
  | bbSetPos | bbResetPos => cases h
  | _ => rfl

theorem EndsIn.keepsWf (h : EndsIn i s (.next t)) (hwf : s.buf.wf = true) : t.buf.wf = true := by
  cases h with
  | write u n _ _ wrote => exact (wrote.writesAt hwf).2
  | read | place | fails => exact hwf

theorem EndsIn.onward (h : EndsIn i s (.next t)) (hs : Ready s) (hi : placesCursor i = false) : Onward s t := by
  obtain ⟨hf, hwf⟩ := hs
  have hwf' := h.keepsWf hwf
  cases h with
  | write u n _ _ wrote =>
    refine ⟨⟨wrote.fault.trans hf, hwf'⟩, wrote.cap, ?_, fun q hq => (wrote.writesAt hwf).1.bits_outside q (.inl hq)⟩
    rw [setOk_pos, wrote.pos]
    exact Nat.le_add_right _ _
  | read | fails => exact ⟨⟨hf, hwf'⟩, rfl, Nat.le_add_right _ _, fun _ _ => rfl⟩
  | place p _ _ hp => simp [hi] at hp

theorem runOk_cons_some (h : runOk (i :: is) s = some u) :
    ∃ t, exec i s = .next t ∧ t.success = true ∧ runOk is t = some u := by
  rw [runOk] at h
  split at h
  next t hexec =>
    split at h
    next hok => exact ⟨t, hexec, hok, h⟩
    next => cases h
  all_goals cases h

theorem resultsOk_cons (h : exec i s = .next t) (hok : t.success = true) :
    resultsOk (i :: is) s = (resultsOk is t).map fun r => ((t.val, t.dout) :: r.1, r.2) := by
  rw [resultsOk, h]
  exact if_pos hok

theorem runOk_onward (hpairs : List.Forall₂ (fun e d => pairedDecoder e = some d) is ds) (hs : Ready s)
    (h : runOk is s = some t) : Onward s t := by
  induction hpairs generalizing s with
  | nil =>
    cases h
    exact ⟨hs, rfl, Nat.le_refl _, fun _ _ => rfl⟩
  | cons hpair _ ih =>
    obtain ⟨t', hexec, -, hrest⟩ := runOk_cons_some h
    have first := (exec_next_ends hexec).onward hs (placesCursor_of_paired hpair)
    exact first.trans (ih first.ready hrest)

end

/-- Settles O31, by induction on the pairs. The head's decoder meets the head's bits, because the later encoders left
them alone (`runOk_onward`), and stops where the tail's encoders began. -/
theorem sequencesRoundTrip : Obligations.SequencesRoundTrip := by
  intro es ds s t s' hpairs hs hrun hfault hpos hcap hbits
  induction hpairs generalizing s s' with
  | nil =>
    cases hrun
    exact ⟨s', rfl, hpos⟩
  | @cons e d es ds hpair hpairs ih =>
    obtain ⟨t₁, hexec, hok, hrest⟩ := runOk_cons_some hrun
    have keeps := placesCursor_of_paired hpair
    have first := (exec_next_ends hexec).onward hs keeps
    have later := runOk_onward hpairs first.ready hrest
    have hadvance : t₁.pos = s.pos + t₁.bits := (bitsCountsTheAdvance e s t₁ hexec hok).1 keeps
    have hlater := later.pos
    have carries : Carries s t₁ s' := ⟨hfault, hpos, hcap, fun q hlo hhi => by
      rw [hbits q hlo (by omega), later.before q (by omega)]⟩
    obtain ⟨u₁, hdecode, hreads, hok', -, hval, -, hdout⟩ := pair_roundTrips hpair hs t₁ s' hexec hok carries
    have hstart : u₁.pos = t₁.pos := by rw [hreads.pos, hpos, hadvance]
    obtain ⟨u, hresults, hend⟩ := ih t₁ u₁ first.ready hrest (hreads.fault.trans hfault) hstart
      (by rw [hreads.cap, hcap, first.cap]) fun q hlo hhi => by
        rw [hreads.buf]
        exact hbits q (Nat.le_trans first.pos hlo) hhi
    refine ⟨u, ?_, hend⟩
    rw [resultsOk_cons hdecode hok', hresults, hval, hdout]
    rfl

end Sys2Proof.Machine
end
